-- ==== Sys2Proof/Word.lean ====
section
/-!
DEFINITION. The words of the comparator-DAC block: the value of a register field, the 32-bit command word, and the
channel index. Every field is 1 to 16 bits wide (10_state.md R22, R23) and a command is one 32-bit word
(30_encoding.md R85), so these three widths are the only ones the machine computes with.
-/

namespace Sys2Proof

/-- The value of one register field, zero-extended to the 16 bits of FWR's value operand (30_encoding.md R88, R91). -/
abbrev Word := BitVec 16

/-- A command word (30_encoding.md R85). -/
abbrev Cmd := BitVec 32

/-- A channel index, as wide as the 4-bit channel operand (30_encoding.md R88). Only the channels below N_CH exist
(00_scope.md R8, 30_encoding.md R90). -/
abbrev Chan := Fin 16

/-- The index j of a stop-trigger source, 0 ≤ j < 8 (00_scope.md R8). Only those below N_STOP exist. -/
abbrev StopIx := Fin 8

/-- The value fits a field of `width` bits: v < 2^W(f) (00_scope.md R12, 30_encoding.md R91). -/
abbrev Fits (width : Nat) (v : Word) : Prop := v.toNat < 2 ^ width

end Sys2Proof
end

