-- ==== Sys2Proof/Syntax.lean ====
section
/-!
DEFINITION. The names of the spec: the agents, the register fields and their groups, the commands, and the
pseudo-commands. One constructor of `Instr` stands for each row of spec/opcode_table.json.
-/

namespace Sys2Proof

/-- The agents of 00_scope.md R15. `env` supplies analog draws and may issue no command. -/
inductive Agent where
  | ctl   -- the control-loop context
  | col   -- the higher-privilege external collaborator
  | env   -- the analog environment
deriving DecidableEq, Repr

/-- The command mnemonics, as write-log events record them (10_state.md R40). -/
inductive Op where
  | init | setref | setenOn | setenOff | fwr | frd
deriving DecidableEq, Repr

/-- The fields of the Shared Control Block, `SH.*` (10_state.md R26). -/
inductive ShField where
  | clkSel | clkDiv | fclkDiv | idleCtl | moduleEn | tmodTime | ssTime
deriving DecidableEq, Repr

/-- The writable fields of one channel's Channel Configuration and Reference Register Pair, `CHN[c].*`
(10_state.md R28, R30). -/
inductive ChnField where
  | chEn | irqMode | blankEn | outEn | filtEn | polarity | inSel | hysPol | hysSel | blankTime
  | datLow | datHigh
deriving DecidableEq, Repr

/-- The fields of one channel's Waveform Generator Configuration, `WG[c].*` (10_state.md R31). -/
inductive WgField where
  | hcFsel | startSel | stopSel (j : StopIx) | slopeEn | hystModeEn | triModeEn | slopePol | slopeRate
deriving DecidableEq, Repr

/-- A writable field with its channel where it has one: `SH.f`, `CHN[c].f`, `WG[c].f` (00_scope.md R11). -/
inductive Loc where
  | sh (f : ShField)
  | chn (c : Chan) (f : ChnField)
  | wg (c : Chan) (f : WgField)
deriving DecidableEq, Repr

/-- The channel of a field, none for an `SH` field. -/
def Loc.channel? : Loc → Option Chan
  | .sh _ => none
  | .chn c _ => some c
  | .wg c _ => some c

/-- What FRD may name: a writable field, or the read-only comparator output `CHN[c].cmp_out` (10_state.md R34). -/
inductive ReadTarget where
  | field (l : Loc)
  | cmpOut (c : Chan)
deriving DecidableEq, Repr

/-- The commands (30_encoding.md R85), one constructor per row of spec/opcode_table.json. -/
inductive Instr where
  /-- `INIT` (40_initializer.md R110). -/
  | init
  /-- `SETREF v` with its 16-bit immediate as the word holds it (41_reference.md R142). -/
  | setref (imm : Word)
  /-- `SETEN.ON` (42_enable.md R160). -/
  | setenOn
  /-- `SETEN.OFF` (42_enable.md R161). -/
  | setenOff
  /-- `FWR field, c, v` (43_field_access.md R190). -/
  | fwr (l : Loc) (v : Word)
  /-- `FRD field, c` (43_field_access.md R191). -/
  | frd (t : ReadTarget)
deriving DecidableEq, Repr

/-- The mnemonic of a command. -/
def Instr.op : Instr → Op
  | .init => .init
  | .setref _ => .setref
  | .setenOn => .setenOn
  | .setenOff => .setenOff
  | .fwr _ _ => .fwr
  | .frd _ => .frd

/-- The one agent that may issue a command of this mnemonic (00_scope.md R15). -/
def Op.agent : Op → Agent
  | .init | .setref | .setenOn | .setenOff => .ctl
  | .fwr | .frd => .col

/-- The one agent that may issue this command (00_scope.md R15). -/
def Instr.agent (i : Instr) : Agent := i.op.agent

/-- The four hysteresis magnitudes (10_state.md R29). -/
inductive Hysteresis where
  | none | mv15 | mv30 | mv45
deriving DecidableEq, Repr

/-- The reasons of a refusal, RF1 to RF7 (60_exceptions.md R233). A refused command performs no write. -/
inductive RefusalReason where
  /-- RF1 ReservedOpcode: w[31:28] is not in 1..5. -/
  | reservedOpcode
  /-- RF2 NonZeroReserved: a must-be-zero bit is 1. -/
  | nonZeroReserved
  /-- RF3 BadField: the fid is not in the table of 30_encoding.md R89. -/
  | badField
  /-- RF4 BadChannel: chan ≠ 0 for an SH field, or chan ≥ N_CH. -/
  | badChannel
  /-- RF5 ValueTooWide: FWR val ≥ 2^W(f). -/
  | valueTooWide
  /-- RF6 ReadOnlyField: FWR to cmp_out. -/
  | readOnlyField
  /-- RF7 WrongAgent: the agent may not issue this command. -/
  | wrongAgent
deriving DecidableEq, Repr

/-- Pseudo-command `SETEN 1` / `SETEN 0` (30_encoding.md R98). -/
def Instr.seten (enable : Bool) : Instr := if enable then .setenOn else .setenOff

/-- Pseudo-command `PINON c` (30_encoding.md R98). -/
def Instr.pinOn (c : Chan) : Instr := .fwr (.chn c .outEn) 1#16

/-- Pseudo-command `PINOFF c` (30_encoding.md R98). -/
def Instr.pinOff (c : Chan) : Instr := .fwr (.chn c .outEn) 0#16

end Sys2Proof
end

