-- ==== Sys2Proof/Config.lean ====
section
/-!
DEFINITION. The implementation parameters of 00_scope.md R8 and 40_initializer.md R111, as one record of plain data:
"The model takes the parameters below as arguments". A machine state carries its record (`State.cfg`) and no step changes
it, so a statement about every state is a statement about every choice of the parameters. The free values (the draws of
the comparator output, the analog scale) are constants with no body at the end.
-/

namespace Sys2Proof

/-- The field widths W(f) that no source gives (10_state.md R23). -/
structure Widths where
  clkSel : Nat
  clkDiv : Nat
  fclkDiv : Nat
  idleCtl : Nat
  tmodTime : Nat
  ssTime : Nat
  irqMode : Nat
  inSel : Nat
  blankTime : Nat
  hcFsel : Nat
  startSel : Nat
  stopSel : Nat
  slopeRate : Nat
deriving DecidableEq, Repr

/-- The values INIT writes where D00 gives none (40_initializer.md R111). -/
structure InitValues where
  clkSel : Word
  clkDiv : Word
  fclkDiv : Word
  idle : Word
  tmod : Word
  ss : Word
  irqMode : Word
  blankEn : Word
  polarity : Word
  inSel : Word
  hysPol : Word
  blankTime : Word
  datLow : Word
  datHigh : Word
deriving DecidableEq, Repr

/-- HYS_CODE, the field code of each hysteresis magnitude (10_state.md R29). -/
structure HysCodes where
  none : BitVec 2
  mv15 : BitVec 2
  mv30 : BitVec 2
  mv45 : BitVec 2
deriving DecidableEq, Repr

/-- The hysteresis magnitudes that are not none, in millivolts: nominal values, with D00's literals as their defaults
(00_scope.md R7, 44_analog_behaviour.md R214). -/
structure HysMillivolts where
  mv15 : Nat := 15
  mv30 : Nat := 30
  mv45 : Nat := 45
deriving DecidableEq, Repr

/-- The boundary codes, the codes of the least, the zero and the greatest application value, with D00's literals as their
defaults (00_scope.md R7). -/
structure BoundaryCodes where
  least : Int := 1
  zero : Int := 2048
  greatest : Int := 4095
deriving DecidableEq, Repr

/-- REF_ROUNDING (41_reference.md R140). -/
inductive Rounding where
  | halfUp | floor | halfAway
deriving DecidableEq, Repr

/-- The labelled write steps of INIT (40_initializer.md R110): groups S, C, R and W. -/
inductive InitStep where
  | s1 | s2 | s3 | s4 | s5 | s6 | s7
  | c1 | c2 | c3 | c4 | c5 | c6 | c7 | c8 | c9 | c10 | c11
  | r1 | r2
  | w1 | w2 | w3 | w4 | w5 | w6 (j : StopIx) | w7 | w8
deriving DecidableEq, Repr

/-- The groups of INIT's steps, in the order INIT runs them (40_initializer.md R112, R116). -/
inductive InitGroup where
  | s | c | r | w
deriving DecidableEq, Repr

/-- The place of a group in INIT's order: S before C before R before W (40_initializer.md R112, R116). -/
def InitGroup.rank : InitGroup → Nat
  | .s => 0
  | .c => 1
  | .r => 2
  | .w => 3

/-- The group of a step (40_initializer.md R110). -/
def InitStep.group : InitStep → InitGroup
  | .s1 | .s2 | .s3 | .s4 | .s5 | .s6 | .s7 => .s
  | .c1 | .c2 | .c3 | .c4 | .c5 | .c6 | .c7 | .c8 | .c9 | .c10 | .c11 => .c
  | .r1 | .r2 => .r
  | .w1 | .w2 | .w3 | .w4 | .w5 | .w6 _ | .w7 | .w8 => .w

/-- The stop-source indices that exist, in increasing order (00_scope.md R8). -/
def stopIndices (nStop : Nat) : List StopIx := (List.finRange 8).filter (fun j => j.val < nStop)

/-- Group S in its canonical order: the Shared Control Block (40_initializer.md R110). -/
def InitStep.groupS : List InitStep := [.s1, .s2, .s3, .s4, .s5, .s6, .s7]

/-- Group C in its canonical order: the Channel Configuration (40_initializer.md R110). -/
def InitStep.groupC : List InitStep := [.c1, .c2, .c3, .c4, .c5, .c6, .c7, .c8, .c9, .c10, .c11]

/-- Group R in its canonical order: the Reference Register Pair (40_initializer.md R110, R116). -/
def InitStep.groupR : List InitStep := [.r1, .r2]

/-- Group W in its canonical order: the Waveform Generator Configuration (40_initializer.md R110). -/
def InitStep.groupW (nStop : Nat) : List InitStep :=
  .w1 :: .w2 :: .w3 :: .w4 :: .w5 :: List.append (List.map InitStep.w6 (stopIndices nStop)) [.w7, .w8]

/-- The canonical write order of INIT (40_initializer.md R110). -/
def InitStep.canonical (nStop : Nat) : List InitStep :=
  InitStep.groupS ++ (InitStep.groupC ++ (InitStep.groupR ++ InitStep.groupW nStop))

/-- `a` may run before `b`: the group order of R112, and C9 before C11 (40_initializer.md R114, R115). -/
abbrev InitStep.MayPrecede (a b : InitStep) : Prop :=
  a.group.rank ≤ b.group.rank ∧ ¬ (a = .c11 ∧ b = .c9)

/-- The parameters of the block (00_scope.md R8). -/
structure Config where
  /-- N_CH, the number of channels that share the Shared Control Block. -/
  nCh : Nat
  /-- CH, the channel the three operations drive. -/
  ch : Chan
  /-- N_STOP, the number of stop-trigger-source fields per waveform generator. -/
  nStop : Nat
  /-- W(f) for the fields whose width no source fixes. -/
  widths : Widths
  /-- INIT_*. -/
  initVals : InitValues
  /-- HYS_CODE. -/
  hys : HysCodes
  /-- The hysteresis magnitudes in millivolts (00_scope.md R7). -/
  hysMv : HysMillivolts
  /-- The boundary codes of the conversion (00_scope.md R7). -/
  boundary : BoundaryCodes
  /-- K, the conversion gain. -/
  k : Int
  /-- OFFSET, the conversion offset. -/
  offset : Int
  /-- Q, the conversion scale exponent. -/
  q : Nat
  /-- REF_ROUNDING. -/
  rounding : Rounding
  /-- INIT_ORDER, the order of INIT's writes (40_initializer.md R114). -/
  initOrder : List InitStep
deriving DecidableEq, Repr

/-- HYS_CODE as a map from the magnitudes (10_state.md R29). -/
def Config.hysCode (cfg : Config) : Hysteresis → BitVec 2
  | .none => cfg.hys.none
  | .mv15 => cfg.hys.mv15
  | .mv30 => cfg.hys.mv30
  | .mv45 => cfg.hys.mv45

/-- W(SH.f) (10_state.md R22, R23, R26). -/
def Config.shWidth (cfg : Config) : ShField → Nat
  | .clkSel => cfg.widths.clkSel
  | .clkDiv => cfg.widths.clkDiv
  | .fclkDiv => cfg.widths.fclkDiv
  | .idleCtl => cfg.widths.idleCtl
  | .moduleEn => 1
  | .tmodTime => cfg.widths.tmodTime
  | .ssTime => cfg.widths.ssTime

/-- W(CHN[c].f) (10_state.md R22, R23, R28, R30). -/
def Config.chnWidth (cfg : Config) : ChnField → Nat
  | .chEn | .blankEn | .outEn | .filtEn | .polarity | .hysPol => 1
  | .hysSel => 2
  | .datLow | .datHigh => 12
  | .irqMode => cfg.widths.irqMode
  | .inSel => cfg.widths.inSel
  | .blankTime => cfg.widths.blankTime

/-- W(WG[c].f) (10_state.md R22, R23, R31). -/
def Config.wgWidth (cfg : Config) : WgField → Nat
  | .slopeEn | .hystModeEn | .triModeEn | .slopePol => 1
  | .hcFsel => cfg.widths.hcFsel
  | .startSel => cfg.widths.startSel
  | .stopSel _ => cfg.widths.stopSel
  | .slopeRate => cfg.widths.slopeRate

/-- W(f) of a field (10_state.md R22, R23). -/
def Config.width (cfg : Config) : Loc → Nat
  | .sh f => cfg.shWidth f
  | .chn _ f => cfg.chnWidth f
  | .wg _ f => cfg.wgWidth f

/-- The channels that exist, in increasing order: 0 ≤ c < N_CH (10_state.md R20). -/
def Config.channels (cfg : Config) : List Chan := (List.finRange 16).filter (fun c => c.val < cfg.nCh)

/-- N_CH, CH and N_STOP lie in the ranges of 00_scope.md R8. -/
abbrev Config.CountsValid (cfg : Config) : Prop :=
  1 ≤ cfg.nCh ∧ cfg.nCh ≤ 16 ∧ cfg.ch.val < cfg.nCh ∧ 1 ≤ cfg.nStop ∧ cfg.nStop ≤ 8

/-- The open widths, as a list. -/
def Widths.all (w : Widths) : List Nat :=
  [w.clkSel, w.clkDiv, w.fclkDiv, w.idleCtl, w.tmodTime, w.ssTime, w.irqMode, w.inSel, w.blankTime,
   w.hcFsel, w.startSel, w.stopSel, w.slopeRate]

/-- Every open width satisfies 1 ≤ W(f) ≤ 16 (10_state.md R23). -/
abbrev Config.WidthsValid (cfg : Config) : Prop := ∀ w ∈ cfg.widths.all, 1 ≤ w ∧ w ≤ 16

/-- Each INIT value fits its field, and INIT_TMOD < INIT_SS (40_initializer.md R111). -/
abbrev Config.InitValuesValid (cfg : Config) : Prop :=
  Fits cfg.widths.clkSel cfg.initVals.clkSel ∧ Fits cfg.widths.clkDiv cfg.initVals.clkDiv ∧
  Fits cfg.widths.fclkDiv cfg.initVals.fclkDiv ∧ Fits cfg.widths.idleCtl cfg.initVals.idle ∧
  Fits cfg.widths.tmodTime cfg.initVals.tmod ∧ Fits cfg.widths.ssTime cfg.initVals.ss ∧
  Fits cfg.widths.irqMode cfg.initVals.irqMode ∧ Fits 1 cfg.initVals.blankEn ∧
  Fits 1 cfg.initVals.polarity ∧ Fits cfg.widths.inSel cfg.initVals.inSel ∧
  Fits 1 cfg.initVals.hysPol ∧ Fits cfg.widths.blankTime cfg.initVals.blankTime ∧
  Fits 12 cfg.initVals.datLow ∧ Fits 12 cfg.initVals.datHigh ∧
  cfg.initVals.tmod.toNat < cfg.initVals.ss.toNat

/-- HYS_CODE is injective (10_state.md R29). -/
abbrev Config.HysValid (cfg : Config) : Prop :=
  [cfg.hys.none, cfg.hys.mv15, cfg.hys.mv30, cfg.hys.mv45].Nodup

/-- INIT_ORDER holds the canonical steps, in an order that R112, R115 and R116 allow (40_initializer.md R114). -/
abbrev Config.OrderValid (cfg : Config) : Prop :=
  cfg.initOrder.Perm (InitStep.canonical cfg.nStop) ∧ cfg.initOrder.Pairwise InitStep.MayPrecede

/-- The parameters satisfy every constraint of the spec. DEDUCED: Q ≥ 1, because 41_reference.md R140 uses 2^(Q-1).
Safe: a statement with this premise says nothing of other values of Q. -/
abbrev Config.Valid (cfg : Config) : Prop :=
  cfg.CountsValid ∧ cfg.WidthsValid ∧ cfg.InitValuesValid ∧ cfg.HysValid ∧ cfg.OrderValid ∧ 1 ≤ cfg.q

/-- The conversion constants have D00's values (00_scope.md R7, R8). REF_ROUNDING and Q, K, OFFSET at their defaults. -/
abbrev Config.DefaultConversion (cfg : Config) : Prop :=
  cfg.k = 2047 ∧ cfg.offset = 2048 ∧ cfg.q = 15 ∧ cfg.rounding = .halfUp

/-- PRESUMED (notes/assumptions/1.md): the instance of 95_test_vectors.md section 0, with the general-knowledge widths of
30_encoding.md R84. The machine that `State.reset` starts. Unsafe for a statement about this one instance only; statements
over every state hold for every instance. -/
def Config.vectors : Config where
  nCh := 3
  ch := 0
  nStop := 2
  widths :=
    { clkSel := 2, clkDiv := 2, fclkDiv := 3, idleCtl := 1, tmodTime := 10, ssTime := 10, irqMode := 2, inSel := 3,
      blankTime := 10, hcFsel := 4, startSel := 4, stopSel := 4, slopeRate := 16 }
  initVals :=
    { clkSel := 1, clkDiv := 0, fclkDiv := 0, idle := 0, tmod := 0x055, ss := 0x08A, irqMode := 1, blankEn := 0,
      polarity := 0, inSel := 0, hysPol := 0, blankTime := 0, datLow := 0, datHigh := 2048 }
  hys := { none := 0, mv15 := 1, mv30 := 2, mv45 := 3 }
  hysMv := { mv15 := 15, mv30 := 30, mv45 := 45 }
  boundary := { least := 1, zero := 2048, greatest := 4095 }
  k := 2047
  offset := 2048
  q := 15
  rounding := .halfUp
  initOrder := InitStep.canonical 2

/-- Free value (notes/assumptions/5.md): the n-th draw the environment makes, for a read of channel c's comparator output.
44_analog_behaviour.md R211: "a draw from the environment on every read, with no law". It has no body, so no proof can see a
value of it. Safe. -/
opaque Config.cmpOutDraw : Nat → Chan → BitVec 1

/-- Free value (notes/assumptions/6.md): VREF_SCALE, the analog voltage per reference code, in volts (00_scope.md R8,
44_analog_behaviour.md R210). OPEN in the spec, so it has no body. Safe. -/
opaque Config.vrefScale : Rat

/-- Free value (notes/assumptions/19.md): the voltage of code 0, in volts. No source gives the voltage of a code
(30_encoding.md R82) or says where zero volts lies in the bipolar reference, so it has no body. Safe. -/
opaque Config.vrefZero : Rat

/-- Free value (notes/assumptions/6.md): VIN(c, t), the environment's input to channel c (44_analog_behaviour.md R210). The
model has no time and R211 relates the comparator output to nothing, so no definition reads it. Safe. -/
opaque Config.vin : Chan → Nat → Rat

end Sys2Proof
end

