-- ==== Sys2Proof/WellFormed.lean ====
section
/-!
DEFINITION. The commands the decoder may give: a field that exists, a channel below N_CH, a value that fits its field
(30_encoding.md R89, R90, R91). That an SH field takes no channel, and that FWR cannot name the comparator output, hold by the
types of `Loc` and `Instr`.
-/

namespace Sys2Proof

/-- A stop source exists when its index is below N_STOP; every other waveform-generator field exists (10_state.md R31). -/
def WgField.inRange (cfg : Config) : WgField → Bool
  | .stopSel j => decide (j.val < cfg.nStop)
  | .hcFsel | .startSel | .slopeEn | .hystModeEn | .triModeEn | .slopePol | .slopeRate => true

/-- The field exists in this instance: its channel is below N_CH and it is one of the generator's fields
(10_state.md R20, R31). -/
def Loc.inRange (cfg : Config) : Loc → Bool
  | .sh _ => true
  | .chn c _ => decide (c.val < cfg.nCh)
  | .wg c f => decide (c.val < cfg.nCh) && f.inRange cfg

/-- What an FRD names exists. -/
def ReadTarget.inRange (cfg : Config) : ReadTarget → Bool
  | .field l => l.inRange cfg
  | .cmpOut c => decide (c.val < cfg.nCh)

/-- The command's operands are ones a command word can carry under this instance (30_encoding.md R89 to R91). -/
def Instr.wellFormed (cfg : Config) : Instr → Bool
  | .init => true
  | .setref _ => true
  | .setenOn => true
  | .setenOff => true
  | .fwr l v => l.inRange cfg && decide (Fits (cfg.width l) v)
  | .frd t => t.inRange cfg

end Sys2Proof
end

