-- ==== Sys2Proof/Decode.lean ====
section
/-!
DEFINITION. The decoder of 30_encoding.md R94, total on every agent and every 32-bit word and refusing by name, and the
encoder written from the same encodings (R85 to R93).
-/

namespace Sys2Proof

/-! ## Field identifiers (30_encoding.md R89) -/

/-- The rows of the field-identifier table: a field's name without its channel. -/
inductive FieldName where
  | sh (f : ShField)
  | chn (f : ChnField)
  | cmpOut
  | wg (f : WgField)
deriving DecidableEq, Repr

/-- The field identifier, bits [27:20] of FWR and FRD (30_encoding.md R89). -/
def FieldName.fid : FieldName → BitVec 8
  | .sh .clkSel => 0x00#8
  | .sh .clkDiv => 0x01#8
  | .sh .fclkDiv => 0x02#8
  | .sh .idleCtl => 0x03#8
  | .sh .moduleEn => 0x04#8
  | .sh .tmodTime => 0x05#8
  | .sh .ssTime => 0x06#8
  | .chn .chEn => 0x10#8
  | .chn .irqMode => 0x11#8
  | .chn .blankEn => 0x12#8
  | .chn .outEn => 0x13#8
  | .chn .filtEn => 0x14#8
  | .chn .polarity => 0x15#8
  | .chn .inSel => 0x16#8
  | .chn .hysPol => 0x17#8
  | .chn .hysSel => 0x18#8
  | .chn .blankTime => 0x19#8
  | .chn .datLow => 0x1A#8
  | .chn .datHigh => 0x1B#8
  | .cmpOut => 0x1F#8
  | .wg .hcFsel => 0x20#8
  | .wg .startSel => 0x21#8
  | .wg (.stopSel j) => 0x22#8 + BitVec.ofNat 8 j.val
  | .wg .slopeEn => 0x2A#8
  | .wg .hystModeEn => 0x2B#8
  | .wg .triModeEn => 0x2C#8
  | .wg .slopePol => 0x2D#8
  | .wg .slopeRate => 0x2E#8

/-- The rows of group SH, in the table's order. -/
def FieldName.shRows : List FieldName :=
  [.sh .clkSel, .sh .clkDiv, .sh .fclkDiv, .sh .idleCtl, .sh .moduleEn, .sh .tmodTime, .sh .ssTime]

/-- The rows of group CHN, in the table's order. -/
def FieldName.chnRows : List FieldName :=
  [.chn .chEn, .chn .irqMode, .chn .blankEn, .chn .outEn, .chn .filtEn, .chn .polarity, .chn .inSel, .chn .hysPol,
   .chn .hysSel, .chn .blankTime, .chn .datLow, .chn .datHigh, .cmpOut]

/-- The rows of group WG for the largest N_STOP, in the table's order. -/
def FieldName.wgRows : List FieldName :=
  [.wg .hcFsel, .wg .startSel, .wg (.stopSel 0), .wg (.stopSel 1), .wg (.stopSel 2), .wg (.stopSel 3),
   .wg (.stopSel 4), .wg (.stopSel 5), .wg (.stopSel 6), .wg (.stopSel 7), .wg .slopeEn, .wg .hystModeEn,
   .wg .triModeEn, .wg .slopePol, .wg .slopeRate]

/-- Every row of the table for the largest N_STOP, in the table's order. -/
def FieldName.rows : List FieldName := FieldName.shRows ++ (FieldName.chnRows ++ FieldName.wgRows)

/-- The row is in the table of this instance: a stop source only below N_STOP (30_encoding.md R89). -/
def FieldName.inTable (cfg : Config) : FieldName → Bool
  | .wg f => f.inRange cfg
  | .sh _ | .chn _ | .cmpOut => true

/-- The row a field identifier names, none for a reserved one (30_encoding.md R89). -/
def FieldName.ofFid (cfg : Config) (fid : BitVec 8) : Option FieldName :=
  (FieldName.rows.find? (fun n => n.fid == fid)).filter (fun n => n.inTable cfg)

/-- The field a row names on a channel; the channel is ignored for an SH field. -/
def FieldName.at (c : Chan) : FieldName → ReadTarget
  | .sh f => .field (.sh f)
  | .chn f => .field (.chn c f)
  | .cmpOut => .cmpOut c
  | .wg f => .field (.wg c f)

/-- The channel operand is legal for the row's group (30_encoding.md R90). -/
def FieldName.chanLegal (cfg : Config) (c : Chan) : FieldName → Bool
  | .sh _ => c == 0
  | .chn _ | .cmpOut | .wg _ => decide (c.val < cfg.nCh)

/-- The row of what FRD names. -/
def ReadTarget.name : ReadTarget → FieldName
  | .field (.sh f) => .sh f
  | .field (.chn _ f) => .chn f
  | .field (.wg _ f) => .wg f
  | .cmpOut _ => .cmpOut

/-- The channel operand of what FRD names: 0 for an SH field (30_encoding.md R90). -/
def ReadTarget.chan : ReadTarget → Chan
  | .field (.sh _) => 0
  | .field (.chn c _) => c
  | .field (.wg c _) => c
  | .cmpOut c => c

/-! ## The fields of the command word (30_encoding.md R85) -/

/-- `w[31:28]`. -/
def opField (w : Cmd) : BitVec 4 := w.extractLsb' 28 4

/-- `w[27:20]`. -/
def fidField (w : Cmd) : BitVec 8 := w.extractLsb' 20 8

/-- `w[19:16]`. -/
def chanField (w : Cmd) : Chan := (w.extractLsb' 16 4).toFin

/-- `w[15:0]`. -/
def lowField (w : Cmd) : Word := w.extractLsb' 0 16

/-! ## The decoder (30_encoding.md R94) -/

/-- The fid and channel checks that FWR and FRD share: RF3, then RF4. -/
def decodeTarget (cfg : Config) (w : Cmd) : Except RefusalReason ReadTarget :=
  match FieldName.ofFid cfg (fidField w) with
  | none => .error .badField
  | some n => if n.chanLegal cfg (chanField w) then .ok (n.at (chanField w)) else .error .badChannel

/-- op 1: `w[27:0]` must be 0 (30_encoding.md R86). -/
def decodeInit (w : Cmd) : Except RefusalReason Instr :=
  if w.extractLsb' 0 28 = 0#28 then .ok .init else .error .nonZeroReserved

/-- op 2: `w[27:16]` must be 0; `w[15:0]` is the immediate (30_encoding.md R87). -/
def decodeSetref (w : Cmd) : Except RefusalReason Instr :=
  if w.extractLsb' 16 12 = 0#12 then .ok (.setref (lowField w)) else .error .nonZeroReserved

/-- op 3: `w[27:1]` must be 0; `w[0]` chooses ON or OFF (30_encoding.md R93). -/
def decodeSeten (w : Cmd) : Except RefusalReason Instr :=
  if w.extractLsb' 1 27 = 0#27 then .ok (if w.extractLsb' 0 1 = 1#1 then .setenOn else .setenOff)
  else .error .nonZeroReserved

/-- op 4: RF3, RF4, then RF6, then RF5 (30_encoding.md R94). -/
def decodeFwr (cfg : Config) (w : Cmd) : Except RefusalReason Instr :=
  match decodeTarget cfg w with
  | .error r => .error r
  | .ok (.cmpOut _) => .error .readOnlyField
  | .ok (.field l) =>
    if Fits (cfg.width l) (lowField w) then .ok (.fwr l (lowField w)) else .error .valueTooWide

/-- op 5: RF2 on `w[15:0]`, then RF3, RF4 (30_encoding.md R94). -/
def decodeFrd (cfg : Config) (w : Cmd) : Except RefusalReason Instr :=
  if lowField w = 0#16 then
    match decodeTarget cfg w with
    | .error r => .error r
    | .ok t => .ok (.frd t)
  else .error .nonZeroReserved

/-- What follows the agent check, by op. -/
def decodeBody (cfg : Config) (w : Cmd) : Except RefusalReason Instr :=
  if opField w = 1#4 then decodeInit w
  else if opField w = 2#4 then decodeSetref w
  else if opField w = 3#4 then decodeSeten w
  else if opField w = 4#4 then decodeFwr cfg w
  else decodeFrd cfg w

/-- The agent that may issue a word with this op: ctl for 1 to 3, col for 4 and 5, none for a reserved op
(00_scope.md R15, 30_encoding.md R85). -/
def agentOfOp (op : BitVec 4) : Option Agent :=
  if op = 1#4 ∨ op = 2#4 ∨ op = 3#4 then some .ctl
  else if op = 4#4 ∨ op = 5#4 then some .col
  else none

/-- The decoder: every agent and word gives one command or one refusal, the first check that fails giving the reason
(30_encoding.md R94). -/
def decode (cfg : Config) (a : Agent) (w : Cmd) : Except RefusalReason Instr :=
  match agentOfOp (opField w) with
  | none => .error .reservedOpcode
  | some owner => if a = owner then decodeBody cfg w else .error .wrongAgent

/-! ## The encoder (30_encoding.md R86 to R88, R92, R93) -/

/-- The word of FWR and FRD: `op ++ fid[7:0] ++ chan[3:0] ++ low[15:0]`, that is `op<<28 | fid<<20 | chan<<16 | low`. -/
def fieldWord (op : BitVec 4) (t : ReadTarget) (low : Word) : Cmd :=
  op.zeroExtend 32 <<< 28 ||| t.name.fid.zeroExtend 32 <<< 20 |||
    (BitVec.ofFin (w := 4) t.chan).zeroExtend 32 <<< 16 ||| low.zeroExtend 32

/-- The word of a command. -/
def encode : Instr → Cmd
  | .init => 0x10000000#32
  | .setref imm => 0x20000000#32 ||| imm.zeroExtend 32
  | .setenOn => 0x30000001#32
  | .setenOff => 0x30000000#32
  | .fwr l v => fieldWord 4#4 (.field l) v
  | .frd t => fieldWord 5#4 t 0#16

/-- The agent that issues a word when the trace line names none: "The prefix can be left out when it is the only agent
allowed" (30_encoding.md R97). A word with a reserved op is refused for every agent; ctl stands there. -/
def agentFor (w : Cmd) : Agent := (agentOfOp (opField w)).getD .ctl

/-- What the decoder reads from the low `nbits` bits of `w`, bit 0 the least significant, under the instance
`Config.vectors`, from the one agent that may issue the word. Every command is 32 bits (30_encoding.md R96), so bits above
`nbits` are 0. -/
def decodeTableWord (nbits w : Nat) : Option Instr :=
  let cmd := BitVec.ofNat 32 (w % 2 ^ nbits)
  (decode Config.vectors (agentFor cmd) cmd).toOption

end Sys2Proof
end

