-- ==== Sys2Proof/Machine/State.lean ====
section
/-!
DEFINITION. The machine's state as plain data: the register fields of 10_state.md R20 (parts 1 to 3), the source of the
comparator output's draws (part 4), the bookkeeping of R39 to R41 (part 5), the trace with its index (R25), the values FRD has
returned (00_scope.md R16), and the parameter record. Also the ways a step can stop, and the state after reset.
-/

namespace Sys2Proof.Machine

/-- What a register field holds (00_scope.md R12). `unknown` is the spec's own value, not a missing one: "`Unknown` is the
value of a field nothing has written since reset", and the spec gives a read of it the fault FC4 (10_state.md R24,
20_memory.md R62); see notes/assumptions/2.md. -/
inductive FieldVal where
  | unknown
  | known (v : Word)
deriving DecidableEq, Repr

/-- The Shared Control Block (10_state.md R26). -/
structure Shared where
  clkSel : FieldVal
  clkDiv : FieldVal
  fclkDiv : FieldVal
  idleCtl : FieldVal
  moduleEn : FieldVal
  tmodTime : FieldVal
  ssTime : FieldVal
deriving DecidableEq, Repr

/-- One channel's Channel Configuration and Reference Register Pair (10_state.md R28, R30). -/
structure ChannelRegs where
  chEn : FieldVal
  irqMode : FieldVal
  blankEn : FieldVal
  outEn : FieldVal
  filtEn : FieldVal
  polarity : FieldVal
  inSel : FieldVal
  hysPol : FieldVal
  hysSel : FieldVal
  blankTime : FieldVal
  datLow : FieldVal
  datHigh : FieldVal
deriving DecidableEq, Repr

/-- One channel's Waveform Generator Configuration (10_state.md R31). Only the stop sources below N_STOP exist. -/
structure WaveRegs where
  hcFsel : FieldVal
  startSel : FieldVal
  stopSel : Vector FieldVal 8
  slopeEn : FieldVal
  hystModeEn : FieldVal
  triModeEn : FieldVal
  slopePol : FieldVal
  slopeRate : FieldVal
deriving DecidableEq, Repr

/-- What a log event records: a field write with its old and new value, or the value a read returned (10_state.md R40). -/
inductive LogAction where
  | wrote (l : Loc) (old : FieldVal) (new : FieldVal)
  | read (t : ReadTarget) (value : FieldVal)
deriving DecidableEq, Repr

/-- One event of the write log: `(seq, agent, op, fid, c, old, new)`, or `(seq, col, FRD, fid, c, value)` (10_state.md R40).
The field identifier and the channel are the `Loc` or `ReadTarget` of the action. -/
structure Event where
  seq : Nat
  agent : Agent
  op : Op
  action : LogAction
deriving DecidableEq, Repr

/-- Whose invariant FC8 found broken: "SH or c" (60_exceptions.md R231). -/
inductive InvariantSite where
  | shared
  | channel (c : Chan)
deriving DecidableEq, Repr

/-- The model fault codes FC1 to FC9 with the information each records (60_exceptions.md R231). A fault is recorded in
`State.fault`; the command that raises it still answers a next state, the faulted state of R232. Safe: the machine goes no
further where the chip might. -/
inductive FaultMark where
  /-- FC1 NotInitialized: SETREF, SETEN.ON or SETEN.OFF before INIT. Records the command word. -/
  | notInitialized (w : Cmd)
  /-- FC2 ReInit: INIT when `initialized` is true. Records the command word. -/
  | reInit (w : Cmd)
  /-- FC3 InitWhileEnabled: INIT with `SH.module_en = 1`. Records the command word. -/
  | initWhileEnabled (w : Cmd)
  /-- FC4 UnknownRead: a read of a field that holds `Unknown`. -/
  | unknownRead (l : Loc)
  /-- FC5 OutputGlitchHazard: a write changes an enable field while an output buffer is connected. -/
  | outputGlitchHazard (l : Loc) (old : FieldVal) (new : Word)
  /-- FC6 PinContention: a second channel's output buffer would be connected. -/
  | pinContention (l : Loc) (other : Chan)
  /-- FC7 LiveReconfig: a write of configuration that is in use. -/
  | liveReconfig (l : Loc) (old : FieldVal) (new : Word)
  /-- FC8 ConfigInvariant: after a write, the module is on and an invariant of a shared or live configuration fails. -/
  | configInvariant (site : InvariantSite)
  /-- FC9 CodeOutOfRange: a `RefCode` result outside 0..4095. Records v and the code. -/
  | codeOutOfRange (v : Int) (code : Int)
deriving DecidableEq, Repr

/-- Why a step gives no next state. Both are the end of a run (00_scope.md R16), not an instruction's. -/
inductive Fault where
  /-- Raised by `step` on a state whose `fault` is set: "A state with either set takes no further step" (10_state.md R41).
  Safe. -/
  | runFaulted (m : FaultMark)
  /-- Raised by `step` when the trace is exhausted: "A run ends when the trace is exhausted" (00_scope.md R16). Safe. -/
  | traceExhausted
deriving DecidableEq, Repr

/-- Why a step has no meaning to give. -/
inductive Refusal where
  /-- Kept for an instruction with no meaning yet, raised by an arm of `exec`; no arm uses it. Safe. -/
  | notModelled (mnemonic : String)
  /-- Raised by `step` on a state whose `refused` mark is set: it takes no further step (10_state.md R41). Safe. -/
  | runRefused (r : RefusalReason)
deriving DecidableEq, Repr

/-- One (agent, command word) pair of the trace (00_scope.md R15). -/
structure TraceEntry where
  agent : Agent
  word : Cmd
deriving DecidableEq, Repr

/-- The state of the block and of the model's bookkeeping (10_state.md R20). -/
structure State where
  /-- The parameters of this instance (00_scope.md R8). No step changes them. -/
  cfg : Config
  /-- `SH.*` (10_state.md R26). -/
  sh : Shared
  /-- `CHN[c].*` (10_state.md R28, R30); the entries at N_CH and above stand for no channel. -/
  chn : Vector ChannelRegs 16
  /-- `WG[c].*` (10_state.md R31); the entries at N_CH and above stand for no channel. -/
  wg : Vector WaveRegs 16
  /-- `initialized` (10_state.md R39). -/
  initialized : Bool
  /-- The write log, oldest event first (10_state.md R40). -/
  log : List Event
  /-- `fault` (10_state.md R41). -/
  fault : Option FaultMark
  /-- `refused` (10_state.md R41). -/
  refused : Option RefusalReason
  /-- The trace of (agent, command word) pairs the run executes (00_scope.md R15). -/
  trace : List TraceEntry
  /-- The index of the next command in the trace (10_state.md R25). -/
  index : Nat
  /-- The values FRD has returned, oldest first: part of the observation of a run (00_scope.md R16). -/
  returned : List Word
  /-- The model's own counter of draws of the comparator output; it selects the next free value (10_state.md R34). -/
  draws : Nat
deriving DecidableEq, Repr

/-- The Shared Control Block after reset under BootQuiet (10_state.md R24, 70_reset_and_hazards.md R260). -/
def Shared.reset : Shared where
  clkSel := .unknown
  clkDiv := .unknown
  fclkDiv := .unknown
  idleCtl := .unknown
  moduleEn := .known 0#16
  tmodTime := .unknown
  ssTime := .unknown

/-- A channel after reset under BootQuiet (10_state.md R24, 70_reset_and_hazards.md R260). -/
def ChannelRegs.reset : ChannelRegs where
  chEn := .known 0#16
  irqMode := .unknown
  blankEn := .unknown
  outEn := .known 0#16
  filtEn := .unknown
  polarity := .unknown
  inSel := .unknown
  hysPol := .unknown
  hysSel := .unknown
  blankTime := .unknown
  datLow := .unknown
  datHigh := .unknown

/-- A waveform generator after reset (10_state.md R24, 70_reset_and_hazards.md R260). -/
def WaveRegs.reset : WaveRegs where
  hcFsel := .unknown
  startSel := .unknown
  stopSel := Vector.replicate 8 .unknown
  slopeEn := .unknown
  hystModeEn := .unknown
  triModeEn := .unknown
  slopePol := .unknown
  slopeRate := .unknown

/-- The state after reset of the instance `cfg`, with a trace loaded from outside the block (70_reset_and_hazards.md R260). -/
def State.boot (cfg : Config) (trace : List TraceEntry) : State where
  cfg := cfg
  sh := Shared.reset
  chn := Vector.replicate 16 ChannelRegs.reset
  wg := Vector.replicate 16 WaveRegs.reset
  initialized := false
  log := []
  fault := none
  refused := none
  trace := trace
  index := 0
  returned := []
  draws := 0

/-- The machine right after reset (70_reset_and_hazards.md R260), for the instance `Config.vectors` and with no trace loaded
(notes/assumptions/1.md, 3.md). -/
def State.reset : State := State.boot Config.vectors []

end Sys2Proof.Machine
end

