-- ==== Sys2Proof/Machine/Operands.lean ====
section
/-!
DEFINITION. The operand forms: the value a register field holds and its replacement, the fields' classes, the
magnitude a hysteresis code stands for, and the signed application value of SETREF. Every access to a field goes through `State.value` and `State.setValue`: a field has one home and
no alias (10_state.md R21).
-/

namespace Sys2Proof.Machine

/-- The value of an `SH` field (10_state.md R26). -/
def Shared.get (r : Shared) : ShField → FieldVal
  | .clkSel => r.clkSel
  | .clkDiv => r.clkDiv
  | .fclkDiv => r.fclkDiv
  | .idleCtl => r.idleCtl
  | .moduleEn => r.moduleEn
  | .tmodTime => r.tmodTime
  | .ssTime => r.ssTime

/-- One `SH` field replaced (10_state.md R26). -/
def Shared.set (r : Shared) (v : FieldVal) : ShField → Shared
  | .clkSel => { r with clkSel := v }
  | .clkDiv => { r with clkDiv := v }
  | .fclkDiv => { r with fclkDiv := v }
  | .idleCtl => { r with idleCtl := v }
  | .moduleEn => { r with moduleEn := v }
  | .tmodTime => { r with tmodTime := v }
  | .ssTime => { r with ssTime := v }

/-- The value of a `CHN[c]` field (10_state.md R28, R30). -/
def ChannelRegs.get (r : ChannelRegs) : ChnField → FieldVal
  | .chEn => r.chEn
  | .irqMode => r.irqMode
  | .blankEn => r.blankEn
  | .outEn => r.outEn
  | .filtEn => r.filtEn
  | .polarity => r.polarity
  | .inSel => r.inSel
  | .hysPol => r.hysPol
  | .hysSel => r.hysSel
  | .blankTime => r.blankTime
  | .datLow => r.datLow
  | .datHigh => r.datHigh

/-- One `CHN[c]` field replaced (10_state.md R28, R30). -/
def ChannelRegs.set (r : ChannelRegs) (v : FieldVal) : ChnField → ChannelRegs
  | .chEn => { r with chEn := v }
  | .irqMode => { r with irqMode := v }
  | .blankEn => { r with blankEn := v }
  | .outEn => { r with outEn := v }
  | .filtEn => { r with filtEn := v }
  | .polarity => { r with polarity := v }
  | .inSel => { r with inSel := v }
  | .hysPol => { r with hysPol := v }
  | .hysSel => { r with hysSel := v }
  | .blankTime => { r with blankTime := v }
  | .datLow => { r with datLow := v }
  | .datHigh => { r with datHigh := v }

/-- The value of a `WG[c]` field (10_state.md R31). -/
def WaveRegs.get (r : WaveRegs) : WgField → FieldVal
  | .hcFsel => r.hcFsel
  | .startSel => r.startSel
  | .stopSel j => r.stopSel[j]
  | .slopeEn => r.slopeEn
  | .hystModeEn => r.hystModeEn
  | .triModeEn => r.triModeEn
  | .slopePol => r.slopePol
  | .slopeRate => r.slopeRate

/-- One `WG[c]` field replaced (10_state.md R31). -/
def WaveRegs.set (r : WaveRegs) (v : FieldVal) : WgField → WaveRegs
  | .hcFsel => { r with hcFsel := v }
  | .startSel => { r with startSel := v }
  | .stopSel j => { r with stopSel := r.stopSel.set j v }
  | .slopeEn => { r with slopeEn := v }
  | .hystModeEn => { r with hystModeEn := v }
  | .triModeEn => { r with triModeEn := v }
  | .slopePol => { r with slopePol := v }
  | .slopeRate => { r with slopeRate := v }

/-- `value(f, c)` of 20_memory.md R62: what the field holds, `Unknown` included. -/
def State.value (s : State) : Loc → FieldVal
  | .sh f => s.sh.get f
  | .chn c f => s.chn[c].get f
  | .wg c f => s.wg[c].get f

/-- `value(f, c) <- x` of 20_memory.md R63 (d): the named field and no other (R66). -/
def State.setValue (s : State) (l : Loc) (x : FieldVal) : State :=
  match l with
  | .sh f => { s with sh := s.sh.set x f }
  | .chn c f => { s with chn := s.chn.set c (s.chn[c].set x f) }
  | .wg c f => { s with wg := s.wg.set c (s.wg[c].set x f) }

/-- The classes of the writable fields (10_state.md R36). -/
inductive FieldClass where
  | enable | pin | reference | sharedConfig | channelConfig
deriving DecidableEq, Repr

/-- The class of a field (10_state.md R36). -/
def fieldClass : Loc → FieldClass
  | .sh .moduleEn => .enable
  | .sh .clkSel | .sh .clkDiv | .sh .fclkDiv | .sh .idleCtl | .sh .tmodTime | .sh .ssTime => .sharedConfig
  | .chn _ .chEn => .enable
  | .chn _ .outEn => .pin
  | .chn _ .datLow | .chn _ .datHigh => .reference
  | .chn _ .irqMode | .chn _ .blankEn | .chn _ .filtEn | .chn _ .polarity | .chn _ .inSel | .chn _ .hysPol
  | .chn _ .hysSel | .chn _ .blankTime => .channelConfig
  | .wg _ _ => .channelConfig

/-- The four magnitudes (10_state.md R29). -/
def hysteresisAll : List Hysteresis := [.none, .mv15, .mv30, .mv45]

/-- The magnitude a value of `hys_sel` selects: the inverse of HYS_CODE (10_state.md R29, 44_analog_behaviour.md R214). None
where the value is no magnitude's code, which no 2-bit value is under an injective HYS_CODE. -/
def hysOfField (cfg : Config) (v : Word) : Option Hysteresis :=
  hysteresisAll.find? (fun m => (cfg.hysCode m).zeroExtend 16 == v)

/-- The nominal dead-band of a magnitude in millivolts; none is no dead-band (00_scope.md R7, 44_analog_behaviour.md R214). -/
def hysMillivolts (cfg : Config) : Hysteresis → Nat
  | .none => 0
  | .mv15 => cfg.hysMv.mv15
  | .mv30 => cfg.hysMv.mv30
  | .mv45 => cfg.hysMv.mv45

/-- The operand of SETREF: `v = sext_16(imm16)` (30_encoding.md R87). -/
def appValue (imm : Word) : Int := imm.toInt

/-- `v >>a n`, the arithmetic right shift floor(v / 2^n) of any integer (00_scope.md R10). Lean's `/` on Int rounds down for
the positive divisor 2^n. -/
def asr (v : Int) (n : Nat) : Int := v / 2 ^ n

end Sys2Proof.Machine
end

