-- ==== Sys2Proof/Machine/Flags.lean ====
section
/-!
DEFINITION. The block has no status flags or condition codes, and no operation sets a flag (10_state.md R35). What stands
here is read off the enable and mode fields: module on, channel live, the Enable Controller's state, the live
threshold, the hysteresis magnitude.
-/

namespace Sys2Proof.Machine

/-- The module is on: `SH.module_en = Known(1)` (10_state.md R37). -/
def moduleOn (s : State) : Bool := s.value (.sh .moduleEn) == .known 1#16

/-- Channel c is live: the module is on and `CHN[c].ch_en = Known(1)` (10_state.md R37). -/
def live (s : State) (c : Chan) : Bool := moduleOn s && s.value (.chn c .chEn) == .known 1#16

/-- The states of the Enable Controller (10_state.md R38). -/
inductive EnableState where
  | disabled | enabled | transitionalOn | otherOwner
deriving DecidableEq, Repr

/-- The Enable Controller's state for channel CH, read off two fields and stored nowhere (10_state.md R38); none where one of
them holds no known bit. -/
def enableState (s : State) : Option EnableState :=
  match s.value (.chn s.cfg.ch .chEn), s.value (.sh .moduleEn) with
  | .known 0#16, .known 0#16 => some .disabled
  | .known 1#16, .known 1#16 => some .enabled
  | .known 1#16, .known 0#16 => some .transitionalOn
  | .known 0#16, .known 1#16 => some .otherOwner
  | _, _ => none

/-- Every waveform mode of channel c is off (44_analog_behaviour.md R212). -/
def waveformOff (s : State) (c : Chan) : Bool :=
  s.value (.wg c .slopeEn) == .known 0#16 && s.value (.wg c .hystModeEn) == .known 0#16 &&
  s.value (.wg c .triModeEn) == .known 0#16

/-- The reference code the comparator of channel c is compared against, where the spec gives it: the high limit of a live
channel whose waveform modes are off (44_analog_behaviour.md R212). -/
def liveThreshold (s : State) (c : Chan) : Option Word :=
  if live s c && waveformOff s c then
    match s.value (.chn c .datHigh) with
    | .known v => some v
    | .unknown => none
  else none

/-- The analog value of a reference code, in volts. DESIGN CHOICE (notes/assumptions/19.md): the spec leaves the voltage of a
code open (30_encoding.md R82) and gives only "the volts per code" (00_scope.md R8, 44_analog_behaviour.md R210); the model
takes equal steps of VREF_SCALE from the voltage of code 0, and both numbers are free values, so where zero volts lies is open.
Unsafe for a claim that rests on the steps being equal; no command reads it. -/
def codeVolts (code : Word) : Rat := Config.vrefZero + Config.vrefScale * code.toNat

/-- The live threshold in volts (44_analog_behaviour.md R210, R212), in the form of `codeVolts`: the model's choice, marked in
notes/assumptions/19.md. -/
def liveThresholdVolts (s : State) (c : Chan) : Option Rat := (liveThreshold s c).map codeVolts

/-- The hysteresis magnitude that `hys_sel` of channel c sets, none while it holds `Unknown` (10_state.md R29,
44_analog_behaviour.md R214). -/
def hysteresis (s : State) (c : Chan) : Option Hysteresis :=
  match s.value (.chn c .hysSel) with
  | .known v => hysOfField s.cfg v
  | .unknown => none

/-- The nominal width in millivolts of the dead-band that `hys_sel` of channel c sets (44_analog_behaviour.md R214). -/
def hysteresisMillivolts (s : State) (c : Chan) : Option Nat := (hysteresis s c).map (hysMillivolts s.cfg)

/-- The dead-band added to the threshold of channel c while the channel is live; none otherwise: "channel disabled so inactive"
(44_analog_behaviour.md R214). DEDUCED (notes/assumptions/20.md): active means live. Which side of the threshold the dead-band
stands on is not in source, so `hys_pol` stays data. Safe. -/
def liveDeadBand (s : State) (c : Chan) : Option Nat := if live s c then hysteresisMillivolts s c else none

end Sys2Proof.Machine
end

