-- ==== Sys2Proof/Machine/Ops.lean ====
section
/-!
DEFINITION. The operations every command is made of: a field read with its FC4, a field write with its checks in their order
and its log event, the live-invariant check, a straight-line list of writes, and taking a fault or a refusal.
-/

namespace Sys2Proof.Machine

/-! ## Taking a fault or a refusal -/

/-- `raise Fault(FCn)`: records the sticky fault (00_scope.md R12, 60_exceptions.md R231). Nothing else changes: nothing is
saved, no mode changes and no handler runs (60_exceptions.md R235). -/
def State.raise (s : State) (m : FaultMark) : State := { s with fault := some m }

/-- `refuse(RFn)`: sets the sticky refusal mark and performs no write (00_scope.md R12, 60_exceptions.md R233). -/
def State.refuse (s : State) (r : RefusalReason) : State := { s with refused := some r }

/-- Where a command stands between two of its steps: it goes on, or a `raise` has stopped it (00_scope.md R13). -/
inductive Progress where
  | going (s : State)
  | stopped (s : State)
deriving DecidableEq, Repr

/-- The next step of a straight-line list, run only if nothing stopped the command (00_scope.md R13). -/
def Progress.andThen (p : Progress) (f : State → Progress) : Progress :=
  match p with
  | .going s => f s
  | .stopped s => .stopped s

/-- The state a command has reached. -/
def Progress.state : Progress → State
  | .going s => s
  | .stopped s => s

/-- The trace index goes up by one (10_state.md R25). -/
def State.advance (s : State) : State := { s with index := s.index + 1 }

/-- The end of a command: the index goes up "after each command that neither faults nor is refused" (10_state.md R25); a
faulted command leaves the faulted state of 60_exceptions.md R232. -/
def Progress.finish (p : Progress) : Host.Outcome State Fault Refusal :=
  match p with
  | .going s => .next s.advance
  | .stopped s => .next s

/-! ## Reading -/

/-- `rd(f, c)` of a writable field: its value, or FC4 where it holds `Unknown` (20_memory.md R62). -/
def rd (s : State) (l : Loc) : Except FaultMark Word :=
  match s.value l with
  | .unknown => .error (.unknownRead l)
  | .known v => .ok v

/-- `rd(f, c) = v`, as a condition: FC4 where the field holds `Unknown`. -/
def rdIs (s : State) (l : Loc) (v : Word) : Except FaultMark Bool :=
  match rd s l with
  | .error m => .error m
  | .ok x => .ok (x == v)

/-- DEDUCED (notes/assumptions/7.md): `a and b` in the spec's pseudocode reads `b` only when `a` holds. 20_memory.md R63 needs
it ("f = ch_en and ... rd(out_en, c) = 1" reads no `out_en` for another field). Safe. -/
def andAlso (a b : Except FaultMark Bool) : Except FaultMark Bool :=
  match a with
  | .error m => .error m
  | .ok false => .ok false
  | .ok true => b

/-- The first channel of the list, in its order, whose output buffer is connected: the witness of
"exists c2. rd(out_en, c2) = 1" (20_memory.md R63). Channels are taken in increasing index and the search ends at the first
one found (notes/assumptions/7.md). -/
def firstConnected (s : State) : List Chan → Except FaultMark (Option Chan)
  | [] => .ok none
  | c :: cs =>
    match rdIs s (.chn c .outEn) 1#16 with
    | .error m => .error m
    | .ok true => .ok (some c)
    | .ok false => firstConnected s cs

/-! ## The checks of a write (20_memory.md R63) -/

/-- Check (a), no live reconfiguration: FC7. -/
def checkReconfig (s : State) (l : Loc) (v : Word) : Except FaultMark Unit :=
  match l, fieldClass l with
  | _, .sharedConfig => if moduleOn s then .error (.liveReconfig l (s.value l) v) else .ok ()
  | .chn c _, .channelConfig => if live s c then .error (.liveReconfig l (s.value l) v) else .ok ()
  | .wg c _, .channelConfig => if live s c then .error (.liveReconfig l (s.value l) v) else .ok ()
  | _, _ => .ok ()

/-- Check (b), no enable or disable while an output buffer is connected: FC5. -/
def checkEnable (s : State) (l : Loc) (v : Word) : Except FaultMark Unit :=
  match l with
  | .chn c .chEn =>
    if s.value l = .known v then .ok ()
    else match rdIs s (.chn c .outEn) 1#16 with
      | .error m => .error m
      | .ok true => .error (.outputGlitchHazard l (s.value l) v)
      | .ok false => .ok ()
  | .sh .moduleEn =>
    if s.value l = .known v then .ok ()
    else match firstConnected s s.cfg.channels with
      | .error m => .error m
      | .ok (some _) => .error (.outputGlitchHazard l (s.value l) v)
      | .ok none => .ok ()
  | _ => .ok ()

/-- Check (c), one channel drives the shared output pin: FC6. -/
def checkPin (s : State) (l : Loc) (v : Word) : Except FaultMark Unit :=
  match l with
  | .chn c .outEn =>
    if v = 1#16 then
      match firstConnected s (s.cfg.channels.filter (fun c2 => c2 ≠ c)) with
      | .error m => .error m
      | .ok (some other) => .error (.pinContention l other)
      | .ok none => .ok ()
    else .ok ()
  | _ => .ok ()

/-- The checks before a write, in the order (a), (b), (c); the first that fails is reported (20_memory.md R63,
60_exceptions.md R234). -/
def checkWrite (s : State) (l : Loc) (v : Word) : Except FaultMark Unit :=
  match checkReconfig s l v with
  | .error m => .error m
  | .ok () =>
    match checkEnable s l v with
    | .error m => .error m
    | .ok () => checkPin s l v

/-! ## The live invariants (20_memory.md R64) -/

/-- `SH_OK`: `rd(SH.tmod_time) < rd(SH.ss_time)`, as unsigned integers (10_state.md R27). -/
def shOk (s : State) : Except FaultMark Bool :=
  match rd s (.sh .tmodTime) with
  | .error m => .error m
  | .ok t =>
    match rd s (.sh .ssTime) with
    | .error m => .error m
    | .ok u => .ok (decide (t.toNat < u.toNat))

/-- `WG_OK(c)`: hysteretic mode requires slope disabled, triangle mode requires slope enabled (10_state.md R32). -/
def wgOk (s : State) (c : Chan) : Except FaultMark Bool :=
  match andAlso (rdIs s (.wg c .hystModeEn) 1#16) (rdIs s (.wg c .slopeEn) 1#16) with
  | .error m => .error m
  | .ok true => .ok false
  | .ok false =>
    match andAlso (rdIs s (.wg c .triModeEn) 1#16) (rdIs s (.wg c .slopeEn) 0#16) with
    | .error m => .error m
    | .ok b => .ok (!b)

/-- The channel part of `check_live()`: every enabled channel of the list satisfies `WG_OK`, in the list's order. -/
def checkChannels (s : State) : List Chan → Except FaultMark Unit
  | [] => .ok ()
  | c :: cs =>
    if s.value (.chn c .chEn) = .known 1#16 then
      match wgOk s c with
      | .error m => .error m
      | .ok false => .error (.configInvariant (.channel c))
      | .ok true => checkChannels s cs
    else checkChannels s cs

/-- `check_live()`: while the module is on, `SH_OK` and then each enabled channel's `WG_OK` in increasing c, or FC8
(20_memory.md R64). -/
def checkLive (s : State) : Except FaultMark Unit :=
  if moduleOn s then
    match shOk s with
    | .error m => .error m
    | .ok false => .error (.configInvariant .shared)
    | .ok true => checkChannels s s.cfg.channels
  else .ok ()

/-! ## Writing (20_memory.md R63) -/

/-- The event a write appends: `(len(log), agent, op, f, c, old, Known(v))` (20_memory.md R63 (d), 10_state.md R40). -/
def writeEvent (op : Op) (l : Loc) (v : Word) (s : State) : Event where
  seq := s.log.length
  agent := op.agent
  op := op
  action := .wrote l (s.value l) (.known v)

/-- Step (d) of `wr`: the field takes the value and the event is logged, also where the value does not change
(20_memory.md R63, R66). -/
def performWrite (op : Op) (l : Loc) (v : Word) (s : State) : State :=
  { s.setValue l (.known v) with log := s.log ++ [writeEvent op l v s] }

/-- `wr(f, c, v)` inside the command `op`: checks (a), (b), (c), the write with its event, then `check_live()`. A fault of a
check leaves the state before the write; a fault of `check_live()` leaves the state after it (20_memory.md R63, R64,
60_exceptions.md R232). -/
def wr (op : Op) (l : Loc) (v : Word) (s : State) : Progress :=
  match checkWrite s l v with
  | .error m => .stopped (s.raise m)
  | .ok () =>
    match checkLive (performWrite op l v s) with
    | .error m => .stopped ((performWrite op l v s).raise m)
    | .ok () => .going (performWrite op l v s)

/-- A straight-line list of writes, executed top to bottom (00_scope.md R13). -/
def wrAll (op : Op) : List (Loc × Word) → State → Progress
  | [], s => .going s
  | (l, v) :: ws, s => (wr op l v s).andThen (wrAll op ws)

/-- The precondition "peripheral initialized" of SETREF and SETEN: FC1 with the command word, before any write
(41_reference.md R142, 42_enable.md R160, R161). -/
def whenInitialized (i : Instr) (s : State) (body : State → Progress) : Progress :=
  if s.initialized then body s else .stopped (s.raise (.notInitialized (encode i)))

/-! ## Reading back (43_field_access.md R191) -/

/-- `rd(f, c)` of what FRD names, with the state after it: the comparator output gives the environment's next draw, and every
other read changes nothing (20_memory.md R62, R66, 44_analog_behaviour.md R211). -/
def rdTarget (s : State) : ReadTarget → Except FaultMark (Word × State)
  | .cmpOut c => .ok ((Config.cmpOutDraw s.draws c).zeroExtend 16, { s with draws := s.draws + 1 })
  | .field l =>
    match rd s l with
    | .error m => .error m
    | .ok v => .ok (v, s)

/-- The event a read-back appends: `(len(log), col, FRD, f, c, Known(x))` (43_field_access.md R191). -/
def readEvent (op : Op) (t : ReadTarget) (x : Word) (s : State) : Event where
  seq := s.log.length
  agent := op.agent
  op := op
  action := .read t (.known x)

/-- The read event is logged, and the value is returned to the observation (43_field_access.md R191, 00_scope.md R16). -/
def State.recordRead (s : State) (op : Op) (t : ReadTarget) (x : Word) : State :=
  { s with log := s.log ++ [readEvent op t x s], returned := s.returned ++ [x] }

end Sys2Proof.Machine
end

