-- ==== Sys2Proof/Machine/Enable.lean ====
section
/-!
DEFINITION. The Enable Controller: `SETEN.ON` and `SETEN.OFF` (42_enable.md). Each always performs all its writes, in its
order, and reads no field to choose them (42_enable.md R168).
-/

namespace Sys2Proof.Machine

/-- Steps E1 and E2: "set channel-enable bit, then set shared-module-enable bit" (42_enable.md R160). -/
def enableWrites (cfg : Config) : List (Loc × Word) := [(.chn cfg.ch .chEn, 1#16), (.sh .moduleEn, 1#16)]

/-- Steps D1, D2 and D3: the output-pin buffer enable first, then the channel enable, then the shared module enable
(42_enable.md R161). -/
def disableWrites (cfg : Config) : List (Loc × Word) :=
  [(.chn cfg.ch .outEn, 0#16), (.chn cfg.ch .chEn, 0#16), (.sh .moduleEn, 0#16)]

/-- `SETEN.ON` (42_enable.md R160). -/
def execSetenOn (s : State) : Host.Outcome State Fault Refusal :=
  (whenInitialized .setenOn s (fun s => wrAll .setenOn (enableWrites s.cfg) s)).finish

/-- `SETEN.OFF` (42_enable.md R161). -/
def execSetenOff (s : State) : Host.Outcome State Fault Refusal :=
  (whenInitialized .setenOff s (fun s => wrAll .setenOff (disableWrites s.cfg) s)).finish

end Sys2Proof.Machine
end

