-- ==== Sys2Proof/Machine/FieldAccess.lean ====
section
/-!
DEFINITION. The collaborator's field access: `FWR` and `FRD` (43_field_access.md). "Decode has already checked" their
operands (R190).
-/

namespace Sys2Proof.Machine

/-- `FWR field, c, v` (43_field_access.md R190). It has no precondition on `initialized`. -/
def execFwr (l : Loc) (v : Word) (s : State) : Host.Outcome State Fault Refusal := (wr .fwr l v s).finish

/-- `FRD field, c` (43_field_access.md R191). -/
def execFrd (t : ReadTarget) (s : State) : Host.Outcome State Fault Refusal :=
  match rdTarget s t with
  | .error m => (Progress.stopped (s.raise m)).finish
  | .ok (x, s') => (Progress.going (s'.recordRead .frd t x)).finish

end Sys2Proof.Machine
end

