-- ==== Sys2Proof/Machine/Initializer.lean ====
section
/-!
DEFINITION. The Peripheral Initializer: `INIT` (40_initializer.md).
-/

namespace Sys2Proof.Machine

/-- The field and the value of each step of INIT; a channel field is channel CH's (40_initializer.md R110). -/
def initWrite (cfg : Config) : InitStep → Loc × Word
  | .s1 => (.sh .clkSel, cfg.initVals.clkSel)
  | .s2 => (.sh .clkDiv, cfg.initVals.clkDiv)
  | .s3 => (.sh .fclkDiv, cfg.initVals.fclkDiv)
  | .s4 => (.sh .idleCtl, cfg.initVals.idle)
  | .s5 => (.sh .moduleEn, 0#16)
  | .s6 => (.sh .tmodTime, cfg.initVals.tmod)
  | .s7 => (.sh .ssTime, cfg.initVals.ss)
  | .c1 => (.chn cfg.ch .chEn, 0#16)
  | .c2 => (.chn cfg.ch .irqMode, cfg.initVals.irqMode)
  | .c3 => (.chn cfg.ch .blankEn, cfg.initVals.blankEn)
  | .c4 => (.chn cfg.ch .outEn, 0#16)
  | .c5 => (.chn cfg.ch .filtEn, 1#16)
  | .c6 => (.chn cfg.ch .polarity, cfg.initVals.polarity)
  | .c7 => (.chn cfg.ch .inSel, cfg.initVals.inSel)
  | .c8 => (.chn cfg.ch .hysPol, cfg.initVals.hysPol)
  | .c9 => (.chn cfg.ch .hysSel, (cfg.hysCode .none).zeroExtend 16)
  | .c10 => (.chn cfg.ch .blankTime, cfg.initVals.blankTime)
  | .c11 => (.chn cfg.ch .hysSel, (cfg.hysCode .mv45).zeroExtend 16)
  | .r1 => (.chn cfg.ch .datLow, cfg.initVals.datLow)
  | .r2 => (.chn cfg.ch .datHigh, cfg.initVals.datHigh)
  | .w1 => (.wg cfg.ch .slopeEn, 0#16)
  | .w2 => (.wg cfg.ch .hystModeEn, 0#16)
  | .w3 => (.wg cfg.ch .triModeEn, 0#16)
  | .w4 => (.wg cfg.ch .slopePol, 0#16)
  | .w5 => (.wg cfg.ch .hcFsel, 0#16)
  | .w6 j => (.wg cfg.ch (.stopSel j), 0#16)
  | .w7 => (.wg cfg.ch .startSel, 0#16)
  | .w8 => (.wg cfg.ch .slopeRate, 0#16)

/-- The writes of INIT, in the instance's order, by default the order of 40_initializer.md R110 (R114). -/
def initWrites (cfg : Config) : List (Loc × Word) := cfg.initOrder.map (initWrite cfg)

/-- The preconditions of INIT: FC2 "called exactly once", then the read of `SH.module_en` with its FC4, then FC3 "with the
shared module globally disabled" (40_initializer.md R110, 60_exceptions.md R234). -/
def initPrecheck (s : State) : Except FaultMark Unit :=
  if s.initialized then .error (.reInit (encode .init))
  else match rd s (.sh .moduleEn) with
    | .error m => .error m
    | .ok v => if v = 0#16 then .ok () else .error (.initWhileEnabled (encode .init))

/-- `initialized <- true`, INIT's last step (10_state.md R39). -/
def State.markInitialized (s : State) : State := { s with initialized := true }

/-- `INIT` (40_initializer.md R110). -/
def execInit (s : State) : Host.Outcome State Fault Refusal :=
  match initPrecheck s with
  | .error m => (Progress.stopped (s.raise m)).finish
  | .ok () => ((wrAll .init (initWrites s.cfg) s).andThen (fun t => .going t.markInitialized)).finish

end Sys2Proof.Machine
end

