-- ==== Sys2Proof/Machine/Reference.lean ====
section
/-!
DEFINITION. The Reference Setter: the conversion `RefCode` and `SETREF` (41_reference.md).
-/

namespace Sys2Proof.Machine

/-- The rounded quotient of a product by 2^Q, in each reading of REF_ROUNDING (41_reference.md R140): half_up adds 2^(Q-1)
before the arithmetic shift, floor is the pure shift, half_away rounds the magnitude and restores the sign. Integers are exact,
which R143 allows. -/
def roundShift (mode : Rounding) (q : Nat) (p : Int) : Int :=
  match mode with
  | .halfUp => asr (p + 2 ^ (q - 1)) q
  | .floor => asr p q
  | .halfAway => p.sign * asr (p.natAbs + 2 ^ (q - 1)) q

/-- `RefCode(v)`: the reference code of an application value (41_reference.md R140). No clamp (R144). -/
def refCode (cfg : Config) (v : Int) : Int := roundShift cfg.rounding cfg.q (v * cfg.k) + cfg.offset

/-- The conversion gives the boundary codes of the parameters, with the codes of the least, the zero and the greatest
application value (00_scope.md R7, 41_reference.md R141). -/
def meetsBoundaryCodes (cfg : Config) : Bool :=
  refCode cfg (-32768) == cfg.boundary.least && refCode cfg 0 == cfg.boundary.zero &&
  refCode cfg 32767 == cfg.boundary.greatest

/-- `SETREF v`: FC1 before INIT, FC9 on a code outside 0..4095, else the one write of the high limit of channel CH
(41_reference.md R142, R144). -/
def execSetref (imm : Word) (s : State) : Host.Outcome State Fault Refusal :=
  (whenInitialized (.setref imm) s (fun s =>
    let code := refCode s.cfg (appValue imm)
    if code < 0 ∨ code > 4095 then .stopped (s.raise (.codeOutOfRange (appValue imm) code))
    else wr .setref (.chn s.cfg.ch .datHigh) (BitVec.ofInt 16 code) s)).finish

end Sys2Proof.Machine
end

