-- ==== Sys2Proof/Machine/Dispatch.lean ====
section
/-!
DEFINITION. One arm for each command.
-/

namespace Sys2Proof.Machine

def exec (i : Instr) (s : State) : Host.Outcome State Fault Refusal :=
  match i with
  | .init => Sys2Proof.Machine.execInit s
  | .setref imm => Sys2Proof.Machine.execSetref imm s
  | .setenOn => Sys2Proof.Machine.execSetenOn s
  | .setenOff => Sys2Proof.Machine.execSetenOff s
  | .fwr l v => Sys2Proof.Machine.execFwr l v s
  | .frd t => Sys2Proof.Machine.execFrd t s

end Sys2Proof.Machine
end

