-- ==== Sys2Proof/Machine/Fetch.lean ====
section
/-!
DEFINITION. The next command of the trace, and placing a command where it is taken from.
-/

namespace Sys2Proof.Machine

/-- The next (agent, command word) pair, none when the trace is exhausted (10_state.md R25, 00_scope.md R16). -/
def State.nextEntry (s : State) : Option TraceEntry := s.trace[s.index]?

/-- The trace with `e` at position `k`, every other entry unchanged. DESIGN CHOICE (notes/assumptions/4.md): positions
between the trace's end and `k`, which no run reaches, are filled with `e`. Safe. -/
def placeEntry (trace : List TraceEntry) (k : Nat) (e : TraceEntry) : List TraceEntry :=
  trace.take k ++ List.replicate (k - trace.length) e ++ e :: trace.drop (k + 1)

end Sys2Proof.Machine
end

