-- ==== Sys2Proof/Machine/Step.lean ====
section
/-!
DEFINITION. One step: the next command of the trace is decoded with its agent and run. A command is one model step
(10_state.md R25, 00_scope.md R13, R15).
-/

namespace Sys2Proof.Machine

/-- One step of a run. A state with a fault or a refusal mark takes no further step (10_state.md R41), a run ends when the
trace is exhausted (00_scope.md R16), and a word the decoder refuses sets the refusal mark with no write
(30_encoding.md R94). -/
def step (s : State) : Host.Outcome State Fault Refusal :=
  match s.fault with
  | some m => .fault (.runFaulted m)
  | none =>
    match s.refused with
    | some r => .refused (.runRefused r)
    | none =>
      match s.nextEntry with
      | none => .fault .traceExhausted
      | some e =>
        match decode s.cfg e.agent e.word with
        | .error r => .next (s.refuse r)
        | .ok i => exec i s

/-- `s` with the command word `w` loaded where `step` takes its next command, issued by the agent that may issue it, and with
no mark that would stop the run, so that the next step runs it. It stands for loading a trace from outside the block
(notes/assumptions/3.md); no step of the machine does this, and only a run from reset clears a mark
(60_exceptions.md R236). -/
def State.withFetchWord (s : State) (nbits w : Nat) : State :=
  let cmd := BitVec.ofNat 32 (w % 2 ^ nbits)
  { s with
    trace := placeEntry s.trace s.index ⟨agentFor cmd, cmd⟩
    fault := none
    refused := none }

end Sys2Proof.Machine
end

