-- ==== Sys2Proof/Machine/Assembler.lean ====
section
/-!
DEFINITION. The assembly syntax of 30_encoding.md R97 and its pseudo-commands (R98): one line of text gives the (agent,
command word) pair that stands on it. What the spec leaves open of the text's form (blanks, an operand no word can hold) is
chosen in notes/assumptions/18.md.
-/

namespace Sys2Proof.Machine

/-! ## The parts of a line -/

/-- A piece of a line: a run of characters with no blank, comma or colon in it, or one of the two marks. -/
inductive Token where
  | word (text : List Char)
  | comma
  | colon
deriving DecidableEq, Repr

/-- A finished word put before what follows it; no word where nothing was read. -/
def flushWord (text : List Char) (rest : List Token) : List Token :=
  if text = [] then rest else .word text :: rest

/-- The pieces of a line with no comment, `text` being the word read so far. -/
def tokens (text : List Char) : List Char → List Token
  | [] => flushWord text []
  | c :: cs =>
    if c = ' ' ∨ c = '\t' ∨ c = '\r' then flushWord text (tokens [] cs)
    else if c = ',' then flushWord text (.comma :: tokens [] cs)
    else if c = ':' then flushWord text (.colon :: tokens [] cs)
    else tokens (text ++ [c]) cs

/-- What stands before a comment: "`;` starts a comment" (30_encoding.md R97). -/
def beforeComment (line : List Char) : List Char := line.takeWhile (fun c => c ≠ ';')

/-! ## Immediates (30_encoding.md R97) -/

/-- The value of a digit, as far as the base has it. -/
def digitValue (base : Nat) (c : Char) : Option Nat :=
  let n := c.toNat
  let d := if 48 ≤ n ∧ n ≤ 57 then n - 48 else if 97 ≤ n ∧ n ≤ 102 then n - 87 else if 65 ≤ n ∧ n ≤ 70 then n - 55 else base
  if d < base then some d else none

/-- The value of the digits, after those read as `value`. -/
def readDigits (base value : Nat) : List Char → Option Nat
  | [] => some value
  | c :: cs =>
    match digitValue base c with
    | none => none
    | some d => readDigits base (value * base + d) cs

/-- The value of one or more digits. -/
def readNat (base : Nat) (text : List Char) : Option Nat := if text = [] then none else readDigits base 0 text

/-- An immediate as it is written. -/
inductive Immediate where
  | decimal (v : Int)
  | hex (n : Nat)
deriving DecidableEq, Repr

/-- "Immediates are decimal (with an optional sign) or `0x` hexadecimal" (30_encoding.md R97). -/
def readImmediate : List Char → Option Immediate
  | '0' :: 'x' :: cs => (readNat 16 cs).map .hex
  | '-' :: cs => (readNat 10 cs).map (fun n => .decimal (-(n : Int)))
  | '+' :: cs => (readNat 10 cs).map (fun n => .decimal n)
  | cs => (readNat 10 cs).map (fun n => .decimal n)

/-- The operand of SETREF: "-32768..32767, or 0x0000..0xFFFF taken as imm16" (30_encoding.md R97). -/
def Immediate.toImm16 : Immediate → Option Word
  | .decimal v => if -32768 ≤ v ∧ v ≤ 32767 then some (BitVec.ofInt 16 v) else none
  | .hex n => if n ≤ 0xFFFF then some (BitVec.ofNat 16 n) else none

/-- An unsigned operand of `width` bits, none where the word's field cannot hold it. -/
def Immediate.toUnsigned (width : Nat) : Immediate → Option (BitVec width)
  | .decimal v => if 0 ≤ v ∧ v < 2 ^ width then some (BitVec.ofInt width v) else none
  | .hex n => if n < 2 ^ width then some (BitVec.ofNat width n) else none

/-! ## Field names (30_encoding.md R89, R97) -/

/-- "a name from rule R89 without `[c]`" (30_encoding.md R97). -/
def fieldText : FieldName → List Char
  | .sh .clkSel => "SH.clk_sel".toList
  | .sh .clkDiv => "SH.clk_div".toList
  | .sh .fclkDiv => "SH.fclk_div".toList
  | .sh .idleCtl => "SH.idle_ctl".toList
  | .sh .moduleEn => "SH.module_en".toList
  | .sh .tmodTime => "SH.tmod_time".toList
  | .sh .ssTime => "SH.ss_time".toList
  | .chn .chEn => "CHN.ch_en".toList
  | .chn .irqMode => "CHN.irq_mode".toList
  | .chn .blankEn => "CHN.blank_en".toList
  | .chn .outEn => "CHN.out_en".toList
  | .chn .filtEn => "CHN.filt_en".toList
  | .chn .polarity => "CHN.polarity".toList
  | .chn .inSel => "CHN.in_sel".toList
  | .chn .hysPol => "CHN.hys_pol".toList
  | .chn .hysSel => "CHN.hys_sel".toList
  | .chn .blankTime => "CHN.blank_time".toList
  | .chn .datLow => "CHN.dat_low".toList
  | .chn .datHigh => "CHN.dat_high".toList
  | .cmpOut => "CHN.cmp_out".toList
  | .wg .hcFsel => "WG.hc_fsel".toList
  | .wg .startSel => "WG.start_sel".toList
  | .wg (.stopSel j) => "WG.stop_sel".toList ++ [Char.ofNat (48 + j.val)]
  | .wg .slopeEn => "WG.slope_en".toList
  | .wg .hystModeEn => "WG.hyst_mode_en".toList
  | .wg .triModeEn => "WG.tri_mode_en".toList
  | .wg .slopePol => "WG.slope_pol".toList
  | .wg .slopeRate => "WG.slope_rate".toList

/-- The row of a field name. -/
def fieldOfText (text : List Char) : Option FieldName := FieldName.rows.find? (fun n => fieldText n == text)

/-! ## Commands (30_encoding.md R97, R98) -/

/-- The word of FWR or FRD with the row's identifier and the operands as they are written. Whether the operands are legal is
the decoder's business (30_encoding.md R94). -/
def namedFieldWord (op : BitVec 4) (n : FieldName) (c : BitVec 4) (low : Word) : Cmd :=
  op.zeroExtend 32 <<< 28 ||| n.fid.zeroExtend 32 <<< 20 ||| c.zeroExtend 32 <<< 16 ||| low.zeroExtend 32

/-- `SETREF <imm>`. -/
def setrefWord (imm : List Char) : Option Cmd :=
  ((readImmediate imm).bind Immediate.toImm16).map (fun v => encode (.setref v))

/-- `FWR <field>, <c>, <v>`. -/
def fwrWord (field c v : List Char) : Option Cmd :=
  match fieldOfText field, (readImmediate c).bind (Immediate.toUnsigned 4),
      (readImmediate v).bind (Immediate.toUnsigned 16) with
  | some n, some chan, some val => some (namedFieldWord 4#4 n chan val)
  | _, _, _ => none

/-- `FRD <field>, <c>`. -/
def frdWord (field c : List Char) : Option Cmd :=
  match fieldOfText field, (readImmediate c).bind (Immediate.toUnsigned 4) with
  | some n, some chan => some (namedFieldWord 5#4 n chan 0#16)
  | _, _ => none

/-- `PINON <c>` and `PINOFF <c>`: FWR of `CHN.out_en` (30_encoding.md R98). -/
def pinWord (c : List Char) (v : Word) : Option Cmd :=
  ((readImmediate c).bind (Immediate.toUnsigned 4)).map (fun chan => namedFieldWord 4#4 (.chn .outEn) chan v)

/-- The word of a command with no operand. -/
def wordNoOperand (mnemonic : List Char) : Option Cmd :=
  if mnemonic = "INIT".toList then some (encode .init)
  else if mnemonic = "SETEN.ON".toList then some (encode .setenOn)
  else if mnemonic = "SETEN.OFF".toList then some (encode .setenOff)
  else none

/-- The word of a command with one operand. -/
def wordOneOperand (mnemonic a : List Char) : Option Cmd :=
  if mnemonic = "SETREF".toList then setrefWord a
  else if mnemonic = "SETEN".toList then
    if a = ['1'] then some (encode (Instr.seten true))
    else if a = ['0'] then some (encode (Instr.seten false))
    else none
  else if mnemonic = "PINON".toList then pinWord a 1#16
  else if mnemonic = "PINOFF".toList then pinWord a 0#16
  else none

/-- The word of the command a line's pieces spell, without the agent. -/
def commandWord : List Token → Option Cmd
  | [.word m] => wordNoOperand m
  | [.word m, .word a] => wordOneOperand m a
  | [.word m, .word field, .comma, .word c] => if m = "FRD".toList then frdWord field c else none
  | [.word m, .word field, .comma, .word c, .comma, .word v] => if m = "FWR".toList then fwrWord field c v else none
  | _ => none

/-- The agent of a prefix: "Each line is prefixed by its agent, `ctl:` or `col:`" (30_encoding.md R97). -/
def agentOfText (text : List Char) : Option Agent :=
  if text = "ctl".toList then some .ctl else if text = "col".toList then some .col else none

/-- The (agent, command word) pair of a line's pieces. A line without a prefix has the only agent allowed
(30_encoding.md R97). -/
def entryOfTokens : List Token → Option TraceEntry
  | .word a :: .colon :: rest =>
    match agentOfText a, commandWord rest with
    | some agent, some w => some ⟨agent, w⟩
    | _, _ => none
  | ts => (commandWord ts).map (fun w => ⟨agentFor w, w⟩)

/-- The pairs of one line: none where the line is not one of the syntax, no pair where it holds a comment alone. -/
def assembleLine (line : List Char) : Option (List TraceEntry) :=
  match tokens [] (beforeComment line) with
  | [] => some []
  | ts => (entryOfTokens ts).map (fun e => [e])

/-- The trace of a list of lines, "one command per line" (30_encoding.md R97). -/
def assemble : List (List Char) → Option (List TraceEntry)
  | [] => some []
  | line :: lines =>
    match assembleLine line, assemble lines with
    | some es, some rest => some (es ++ rest)
    | _, _ => none

end Sys2Proof.Machine
end

