-- ==== Sys2Proof/Safety.lean ====
section
/-!
DEFINITION. What claims about the block are stated with: when a run is going on and when it has succeeded, the hazards as
conditions on the fields, when a write is allowed, what a command leaves unchanged, and the invariants of a run.
-/

namespace Sys2Proof.Machine

/-! ## Runs (00_scope.md R16) -/

/-- No fault is recorded and no refusal mark is set: "a state with either set takes no further step" (10_state.md R41). -/
abbrev State.Running (s : State) : Prop := s.fault = none ∧ s.refused = none

/-- The run has succeeded: the trace is exhausted with no fault and no refusal (00_scope.md R16). -/
abbrev State.Succeeded (s : State) : Prop := s.Running ∧ s.nextEntry = none

/-- The observation of a run: the field values, the write log and the values FRD returned (00_scope.md R16). -/
structure Observation where
  sh : Shared
  chn : Vector ChannelRegs 16
  wg : Vector WaveRegs 16
  log : List Event
  returned : List Word
deriving DecidableEq, Repr

/-- What a run lets one observe (00_scope.md R16). -/
def State.observe (s : State) : Observation := ⟨s.sh, s.chn, s.wg, s.log, s.returned⟩

/-- States that some run from reset reaches, for the instance `cfg` and any trace. -/
inductive Reachable (cfg : Config) (trace : List TraceEntry) : State → Prop where
  | boot : Reachable cfg trace (State.boot cfg trace)
  | step (s t : State) : Reachable cfg trace s → step s = .next t → Reachable cfg trace t

/-! ## The hazards, as conditions on the fields -/

/-- The field holds a known value. -/
abbrev State.Known (s : State) (l : Loc) : Prop := s.value l ≠ .unknown

/-- The output buffer of channel c is known to be disconnected. -/
abbrev Disconnected (s : State) (c : Chan) : Prop :=
  s.value (.chn c .outEn) ≠ .unknown ∧ s.value (.chn c .outEn) ≠ .known 1#16

/-- `SH_OK` holds: both timing windows are known, and the transition-mode window is the shorter (10_state.md R27). -/
abbrev SharedTimingOk (s : State) : Prop :=
  ∃ t u, s.value (.sh .tmodTime) = .known t ∧ s.value (.sh .ssTime) = .known u ∧ t.toNat < u.toNat

/-- `WG_OK(c)` holds: hysteretic mode is off or slope is known not to be enabled, and triangle mode is off or slope is known
not to be disabled (10_state.md R32). -/
abbrev WaveOk (s : State) (c : Chan) : Prop :=
  (∃ h, s.value (.wg c .hystModeEn) = .known h ∧
    (h = 1#16 → s.value (.wg c .slopeEn) ≠ .unknown ∧ s.value (.wg c .slopeEn) ≠ .known 1#16)) ∧
  (∃ t, s.value (.wg c .triModeEn) = .known t ∧
    (t = 1#16 → s.value (.wg c .slopeEn) ≠ .unknown ∧ s.value (.wg c .slopeEn) ≠ .known 0#16))

/-- The live invariants: while the module is on, the timing windows are ordered and every live channel's waveform modes are
exclusive (20_memory.md R64). -/
abbrev LiveConfigOk (s : State) : Prop :=
  moduleOn s = true → SharedTimingOk s ∧ ∀ c : Chan, c.val < s.cfg.nCh → live s c = true → WaveOk s c

/-- At most one channel drives the shared output pin (70_reset_and_hazards.md R267). -/
abbrev OnePinDriver (s : State) : Prop :=
  ∀ c d : Chan, c.val < s.cfg.nCh → d.val < s.cfg.nCh →
    s.value (.chn c .outEn) = .known 1#16 → s.value (.chn d .outEn) = .known 1#16 → c = d

/-- The field is configuration in use: shared configuration with the module on, or configuration of a live channel
(20_memory.md R63 (a)). -/
def InUse (s : State) (l : Loc) : Prop :=
  (fieldClass l = .sharedConfig ∧ moduleOn s = true) ∨
  (fieldClass l = .channelConfig ∧ ∃ c : Chan, ((∃ f, l = .chn c f) ∨ (∃ f, l = .wg c f)) ∧ live s c = true)

/-- Every output buffer that the write of an enable field could glitch is known to be disconnected, where the write changes
the field (20_memory.md R63 (b)). -/
def EnableSafe (s : State) (l : Loc) (v : Word) : Prop :=
  s.value l ≠ .known v →
    (∀ c, l = .chn c .chEn → Disconnected s c) ∧
    (l = .sh .moduleEn → ∀ c : Chan, c.val < s.cfg.nCh → Disconnected s c)

/-- Where the write connects an output buffer, every other channel's is known to be disconnected (20_memory.md R63 (c)). -/
def PinFree (s : State) (l : Loc) (v : Word) : Prop :=
  v = 1#16 → ∀ c, l = .chn c .outEn → ∀ d : Chan, d.val < s.cfg.nCh → d ≠ c → Disconnected s d

/-- No check of `wr(l, v)` fails, before or after the write (20_memory.md R63, R64). -/
def WriteAllowed (s : State) (l : Loc) (v : Word) : Prop :=
  ¬ InUse s l ∧ EnableSafe s l v ∧ PinFree s l v ∧ LiveConfigOk (s.setValue l (.known v))

/-! ## What a command leaves unchanged -/

/-- Every field outside `ls` holds what it held. -/
def FieldsSameBut (s t : State) (ls : List Loc) : Prop := ∀ l, l ∉ ls → t.value l = s.value l

/-- The parameters and the loaded trace are what they were. -/
def InstanceSame (s t : State) : Prop := t.cfg = s.cfg ∧ t.trace = s.trace

/-- No read-back was recorded and no comparator output was drawn. -/
def ReadsSame (s t : State) : Prop := t.returned = s.returned ∧ t.draws = s.draws

/-- The event of a write of field `l` from `old` to `new` by `op` at log position `k` (10_state.md R40). -/
def wroteEvent (k : Nat) (op : Op) (l : Loc) (old : FieldVal) (new : Word) : Event :=
  ⟨k, op.agent, op, .wrote l old (.known new)⟩

/-- The event of a read-back of `tgt` that gave `x` at log position `k` (10_state.md R40, 43_field_access.md R191). -/
def readBackEvent (k : Nat) (tgt : ReadTarget) (x : Word) : Event :=
  ⟨k, .col, .frd, .read tgt (.known x)⟩

/-- The value an event wrote to the field `l`, none for any other event. -/
def Event.wroteTo? (l : Loc) (e : Event) : Option FieldVal :=
  match e.action with
  | .wrote l' _ new => if l' = l then some new else none
  | .read _ _ => none

/-- The command has ended without a fault or a refusal of its own: the trace index goes up by one, and the parameters, the
trace and the two marks are what they were (10_state.md R25, R41). -/
def Completed (s t : State) : Prop :=
  t.index = s.index + 1 ∧ InstanceSame s t ∧ t.fault = s.fault ∧ t.refused = s.refused

/-- The command has stopped at the fault `m`, with nothing but the fault recorded: no field, no log event, no index has changed
(60_exceptions.md R232). -/
def FaultedOnly (s : State) (m : FaultMark) (o : Host.Outcome State Fault Refusal) : Prop :=
  o = .next { s with fault := some m }

/-- The parameters of a waveform mode and of the timing windows under which SETEN.ON reaches Enabled: `SH_OK`, and `WG_OK` of
channel CH and of every channel that is enabled (42_enable.md R160). -/
abbrev ReadyToEnable (s : State) : Prop :=
  SharedTimingOk s ∧
  ∀ c : Chan, c.val < s.cfg.nCh → (c = s.cfg.ch ∨ s.value (.chn c .chEn) = .known 1#16) → WaveOk s c

/-- Where an enable or disable ended: the two enable fields, the events it logged and the fault, with every field outside `ls`
unchanged (42_enable.md R162, R163). -/
def EnableOutcome (s t : State) (ls : List Loc) (chEn moduleEn : Word) (evs : List Event) (m : Option FaultMark) : Prop :=
  t.value (.chn s.cfg.ch .chEn) = .known chEn ∧ t.value (.sh .moduleEn) = .known moduleEn ∧
  FieldsSameBut s t ls ∧ t.log = s.log ++ evs ∧ t.fault = m

/-! ## The fields a command may write (10_state.md R42) -/

/-- The table of 10_state.md R42: the fields each command writes. -/
def mayWrite (cfg : Config) : Instr → Loc → Prop
  | .init, l => l.channel? = none ∨ l.channel? = some cfg.ch
  | .setref _, l => l = .chn cfg.ch .datHigh
  | .setenOn, l => l = .chn cfg.ch .chEn ∨ l = .sh .moduleEn
  | .setenOff, l => l = .chn cfg.ch .outEn ∨ l = .chn cfg.ch .chEn ∨ l = .sh .moduleEn
  | .fwr l' _, l => l = l'
  | .frd _, _ => False

/-! ## The state INIT leaves (40_initializer.md R113) -/

/-- The table of 40_initializer.md R113: what each field holds after a successful INIT, none where INIT writes nothing. -/
def afterInit (cfg : Config) : Loc → Option Word
  | .sh .clkSel => some cfg.initVals.clkSel
  | .sh .clkDiv => some cfg.initVals.clkDiv
  | .sh .fclkDiv => some cfg.initVals.fclkDiv
  | .sh .idleCtl => some cfg.initVals.idle
  | .sh .moduleEn => some 0#16
  | .sh .tmodTime => some cfg.initVals.tmod
  | .sh .ssTime => some cfg.initVals.ss
  | .chn c f => if c = cfg.ch then some (match f with
      | .chEn => 0#16
      | .irqMode => cfg.initVals.irqMode
      | .blankEn => cfg.initVals.blankEn
      | .outEn => 0#16
      | .filtEn => 1#16
      | .polarity => cfg.initVals.polarity
      | .inSel => cfg.initVals.inSel
      | .hysPol => cfg.initVals.hysPol
      | .hysSel => (cfg.hysCode .mv45).zeroExtend 16
      | .blankTime => cfg.initVals.blankTime
      | .datLow => cfg.initVals.datLow
      | .datHigh => cfg.initVals.datHigh) else none
  | .wg c (.stopSel j) => if c = cfg.ch ∧ j.val < cfg.nStop then some 0#16 else none
  | .wg c _ => if c = cfg.ch then some 0#16 else none

/-- The group of a written field in the order of 40_initializer.md R112: shared, channel configuration, reference pair,
waveform generator. -/
def writeGroup : Loc → InitGroup
  | .sh _ => .s
  | .chn _ .datLow | .chn _ .datHigh => .r
  | .chn _ _ => .c
  | .wg _ _ => .w

/-- The same state under another INIT_ORDER (40_initializer.md R114). -/
def State.withOrder (s : State) (order : List InitStep) : State := { s with cfg := { s.cfg with initOrder := order } }

/-! ## Invariants of a run -/

/-- The value the log says a field holds: that of the most recent write to it, or `start` where there is none
(20_memory.md R70). -/
def lastWritten (l : Loc) (start : FieldVal) : List Event → FieldVal
  | [] => start
  | e :: es =>
    match e.action with
    | .wrote l' _ new => if l' = l then lastWritten l new es else lastWritten l start es
    | .read _ _ => lastWritten l start es

/-- Every field holds the value of the most recent write to it in the log, or its reset value where there is none
(20_memory.md R70). -/
abbrev LogTellsFields (s : State) : Prop :=
  ∀ l, s.value l = lastWritten l ((State.boot s.cfg s.trace).value l) s.log

/-- Every event's `seq` is its position in the log (10_state.md R40). -/
abbrev LogNumbered (s : State) : Prop := s.log.map Event.seq = List.range s.log.length

/-- Every event was issued by the agent its command belongs to (10_state.md R40, 00_scope.md R15). -/
abbrev LogAgents (s : State) : Prop := ∀ e ∈ s.log, e.agent = e.op.agent

/-- The value a read event returned. -/
def Event.readValue? (e : Event) : Option Word :=
  match e.action with
  | .read _ (.known x) => some x
  | _ => none

/-- The values returned are those of the log's read events, in order (00_scope.md R16, 43_field_access.md R191). -/
abbrev LogTellsReturned (s : State) : Prop := s.returned = s.log.filterMap Event.readValue?

/-- Every known value fits its field (00_scope.md R12). -/
abbrev ValuesFit (s : State) : Prop := ∀ l v, s.value l = .known v → Fits (s.cfg.width l) v

/-- A field no channel or stop source of the instance has is never written: it holds its reset value. -/
abbrev AbsentUntouched (s : State) : Prop :=
  ∀ l : Loc, l.inRange s.cfg = false → s.value l = (State.boot s.cfg s.trace).value l

/-- The enable and pin fields are known, as BootQuiet leaves them (10_state.md R24). -/
abbrev EnablesKnown (s : State) : Prop :=
  s.Known (.sh .moduleEn) ∧ ∀ c : Chan, c.val < s.cfg.nCh → s.Known (.chn c .chEn) ∧ s.Known (.chn c .outEn)

/-- After INIT every field it writes is known (40_initializer.md R113). -/
abbrev InitializedKnown (s : State) : Prop :=
  s.initialized = true → ∀ l, (afterInit s.cfg l).isSome = true → s.Known l

/-- A fault and a refusal are never both recorded (60_exceptions.md R234). -/
abbrev OneMark (s : State) : Prop := s.fault = none ∨ s.refused = none

/-- The trace index is at most the trace's length (10_state.md R25). -/
abbrev IndexInTrace (s : State) : Prop := s.index ≤ s.trace.length

/-- While the run is going on, the live invariants hold (20_memory.md R64). -/
abbrev LiveWhileRunning (s : State) : Prop := s.fault = none → LiveConfigOk s

/-- The invariants of a run, together. -/
structure RunInvariant (s : State) : Prop where
  valid : s.cfg.Valid
  fit : ValuesFit s
  absent : AbsentUntouched s
  known : EnablesKnown s
  initKnown : InitializedKnown s
  onePin : OnePinDriver s
  liveOk : LiveWhileRunning s
  logTells : LogTellsFields s
  numbered : LogNumbered s
  agents : LogAgents s
  returnedTold : LogTellsReturned s
  oneMark : OneMark s
  indexIn : IndexInTrace s

end Sys2Proof.Machine
end

