-- ==== Sys2Proof/Certificates/Slice0/Obligations.lean ====
section
/-!
DEFINITION. The statements for the provers. Each docstring names the rule of spec/ it formalises.
-/

open Sys2Proof Sys2Proof.Machine

/-! ## Encoding (30_encoding.md) -/

/-- R85 to R93, R94: every command whose operands a word can carry is decoded from its own word, issued by its own agent. -/
def Obligations.EncodeThenDecode : Prop :=
  ∀ (cfg : Config) (i : Instr), i.wellFormed cfg = true → decode cfg i.agent (encode i) = .ok i

/-- R85 to R94: a word the decoder accepts is the word of the command it gives, the agent is that command's, and the operands
are ones the instance has. -/
def Obligations.DecodeThenEncode : Prop :=
  ∀ (cfg : Config) (a : Agent) (w : Cmd) (i : Instr), decode cfg a w = .ok i →
    encode i = w ∧ i.agent = a ∧ i.wellFormed cfg = true

/-- R86, R87, R88, R92, R93: words written out from the encodings decode to the commands they stand for. -/
def Obligations.SampleWordsDecode : Prop :=
  decode Config.vectors .ctl 0x10000000#32 = .ok .init ∧
  decode Config.vectors .ctl 0x2000FFFF#32 = .ok (.setref 0xFFFF#16) ∧
  decode Config.vectors .ctl 0x30000001#32 = .ok .setenOn ∧
  decode Config.vectors .ctl 0x30000000#32 = .ok .setenOff ∧
  decode Config.vectors .col 0x42E0FFFF#32 = .ok (.fwr (.wg 0 .slopeRate) 0xFFFF#16) ∧
  decode Config.vectors .col 0x52300000#32 = .ok (.frd (.field (.wg 0 (.stopSel 1)))) ∧
  decode Config.vectors .col 0x51F00000#32 = .ok (.frd (.cmpOut 0))

/-- R85, R94: a word whose op is not 1 to 5 is refused with RF1, whoever issues it. -/
def Obligations.ReservedOpcodesRefused : Prop :=
  ∀ (cfg : Config) (a : Agent) (w : Cmd), (opField w).toNat ∉ [1, 2, 3, 4, 5] →
    decode cfg a w = .error .reservedOpcode

/-- R15, R94: a word of INIT, SETREF or SETEN that ctl does not issue, and a word of FWR or FRD that col does not issue, is
refused with RF7, before any other check of the word. -/
def Obligations.WrongAgentRefused : Prop :=
  ∀ (cfg : Config) (a : Agent) (w : Cmd),
    ((opField w).toNat ∈ [1, 2, 3] → a ≠ .ctl → decode cfg a w = .error .wrongAgent) ∧
    ((opField w).toNat ∈ [4, 5] → a ≠ .col → decode cfg a w = .error .wrongAgent)

/-- R86: INIT is exactly one word; every other word with its op is refused with RF2. -/
def Obligations.InitIsOneWord : Prop :=
  encode .init = 0x10000000#32 ∧
  ∀ (cfg : Config) (w : Cmd), opField w = 1#4 →
    decode cfg .ctl w = if w = 0x10000000#32 then .ok .init else .error .nonZeroReserved

/-- R87: SETREF carries its operand in the low 16 bits, sign-extended when read, and all its 65536 values are legal; a nonzero
`w[27:16]` is refused with RF2. -/
def Obligations.SetrefCarriesSignedImmediate : Prop :=
  (∀ (imm : Word), encode (.setref imm) = 0x20000000#32 ||| imm.zeroExtend 32) ∧
  (∀ (imm : Word), appValue imm = if imm.toNat < 2 ^ 15 then (imm.toNat : Int) else (imm.toNat : Int) - 2 ^ 16) ∧
  (∀ (cfg : Config) (imm : Word), decode cfg .ctl (encode (.setref imm)) = .ok (.setref imm)) ∧
  (∀ (cfg : Config) (w : Cmd), opField w = 2#4 → w.extractLsb' 16 12 ≠ 0#12 →
    decode cfg .ctl w = .error .nonZeroReserved)

/-- R93: SETEN.ON and SETEN.OFF are one word each, told apart by `w[0]`; a nonzero `w[27:1]` is refused with RF2. -/
def Obligations.SetenTwoWords : Prop :=
  encode .setenOn = 0x30000001#32 ∧ encode .setenOff = 0x30000000#32 ∧
  ∀ (cfg : Config) (w : Cmd), opField w = 3#4 →
    decode cfg .ctl w =
      if w = 0x30000001#32 then .ok .setenOn
      else if w = 0x30000000#32 then .ok .setenOff
      else .error .nonZeroReserved

/-- R88, R92: FWR and FRD hold op, fid, chan and value at bits 28, 20, 16 and 0; the value FWR carries is the word's low 16
bits and fits its field; FRD with a nonzero `w[15:0]` is refused with RF2. -/
def Obligations.FieldAccessWordLayout : Prop :=
  (∀ (l : Loc) (v : Word), encode (.fwr l v) =
    0x40000000#32 ||| (ReadTarget.field l).name.fid.zeroExtend 32 <<< 20
      ||| BitVec.ofNat 32 (ReadTarget.field l).chan.val <<< 16 ||| v.zeroExtend 32) ∧
  (∀ (t : ReadTarget), encode (.frd t) =
    0x50000000#32 ||| t.name.fid.zeroExtend 32 <<< 20 ||| BitVec.ofNat 32 t.chan.val <<< 16) ∧
  (∀ (cfg : Config) (a : Agent) (w : Cmd) (l : Loc) (v : Word), decode cfg a w = .ok (.fwr l v) →
    v = lowField w ∧ Fits (cfg.width l) v) ∧
  (∀ (cfg : Config) (w : Cmd), opField w = 5#4 → lowField w ≠ 0#16 → decode cfg .col w = .error .nonZeroReserved)

/-- R89: the field-identifier table, row by row, with the reserved identifiers refused RF3 for FWR and FRD, and the comparator
output read-only: FWR of it is refused RF6. -/
def Obligations.FieldIdentifierTable : Prop :=
  (∀ (cfg : Config),
    [0x00#8, 0x01#8, 0x02#8, 0x03#8, 0x04#8, 0x05#8, 0x06#8].map (FieldName.ofFid cfg) =
      [ShField.clkSel, .clkDiv, .fclkDiv, .idleCtl, .moduleEn, .tmodTime, .ssTime].map (fun f => some (.sh f)) ∧
    [0x10#8, 0x11#8, 0x12#8, 0x13#8, 0x14#8, 0x15#8, 0x16#8, 0x17#8, 0x18#8, 0x19#8, 0x1A#8, 0x1B#8].map
        (FieldName.ofFid cfg) =
      [ChnField.chEn, .irqMode, .blankEn, .outEn, .filtEn, .polarity, .inSel, .hysPol, .hysSel, .blankTime, .datLow,
        .datHigh].map (fun f => some (.chn f)) ∧
    FieldName.ofFid cfg 0x1F#8 = some .cmpOut ∧
    [0x20#8, 0x21#8, 0x2A#8, 0x2B#8, 0x2C#8, 0x2D#8, 0x2E#8].map (FieldName.ofFid cfg) =
      [WgField.hcFsel, .startSel, .slopeEn, .hystModeEn, .triModeEn, .slopePol, .slopeRate].map (fun f => some (.wg f)) ∧
    (∀ j : StopIx, FieldName.ofFid cfg (0x22#8 + BitVec.ofNat 8 j.val) =
      if j.val < cfg.nStop then some (.wg (.stopSel j)) else none)) ∧
  (∀ (cfg : Config) (w : Cmd), cfg.nStop ≤ 8 →
    ((0x07 ≤ (fidField w).toNat ∧ (fidField w).toNat ≤ 0x0F) ∨ (0x1C ≤ (fidField w).toNat ∧ (fidField w).toNat ≤ 0x1E) ∨
      (0x22 + cfg.nStop ≤ (fidField w).toNat ∧ (fidField w).toNat ≤ 0x29) ∨ 0x2F ≤ (fidField w).toNat) →
    (opField w = 4#4 → decode cfg .col w = .error .badField) ∧
    (opField w = 5#4 → lowField w = 0#16 → decode cfg .col w = .error .badField)) ∧
  (∀ (cfg : Config) (w : Cmd), opField w = 4#4 → fidField w = 0x1F#8 → (chanField w).val < cfg.nCh →
    decode cfg .col w = .error .readOnlyField)

/-- R90: for a field of group SH the channel operand must be 0, for any other field it must be below N_CH; otherwise the word is
refused with RF4. -/
def Obligations.ChannelOperandChecked : Prop :=
  ∀ (cfg : Config) (w : Cmd) (n : FieldName),
    FieldName.ofFid cfg (fidField w) = some n → (opField w = 4#4 ∨ (opField w = 5#4 ∧ lowField w = 0#16)) →
    ((∃ f, n = .sh f) → chanField w ≠ 0 → decode cfg .col w = .error .badChannel) ∧
    ((∀ f, n ≠ .sh f) → cfg.nCh ≤ (chanField w).val → decode cfg .col w = .error .badChannel)

/-- R91: a value of FWR that does not fit the field is refused with RF5, and a value that fits is passed on as it stands. -/
def Obligations.ValueOperandChecked : Prop :=
  ∀ (cfg : Config) (w : Cmd) (l : Loc), opField w = 4#4 → decodeTarget cfg w = .ok (.field l) →
    (2 ^ cfg.width l ≤ (lowField w).toNat → decode cfg .col w = .error .valueTooWide) ∧
    ((lowField w).toNat < 2 ^ cfg.width l → decode cfg .col w = .ok (.fwr l (lowField w)))

/-- R98: each pseudo-command assembles to exactly one command: `SETEN 1` and `SETEN 0` to SETEN.ON and SETEN.OFF of ctl, and
`PINON c` and `PINOFF c` to col's FWR of `CHN.out_en` on channel c, for every channel index. -/
def Obligations.PseudoCommandsExpand : Prop :=
  assembleLine "SETEN 1".toList = some [⟨.ctl, encode .setenOn⟩] ∧
  assembleLine "SETEN 0".toList = some [⟨.ctl, encode .setenOff⟩] ∧
  ∀ c : Chan,
    assembleLine ("PINON ".toList ++ Nat.toDigits 10 c.val) = some [⟨.col, encode (.fwr (.chn c .outEn) 1#16)⟩] ∧
    assembleLine ("PINOFF ".toList ++ Nat.toDigits 10 c.val) = some [⟨.col, encode (.fwr (.chn c .outEn) 0#16)⟩]

/-! ## Steps and runs -/

/-- 10_state.md R25, 00_scope.md R15: when no mark is set and the next pair of the trace decodes to a command, a step is that
command, run once, and nothing is added around it. -/
def Obligations.StepRunsDecodedCommand : Prop :=
  ∀ (s : State) (e : TraceEntry) (i : Instr), s.Running → s.trace[s.index]? = some e →
    decode s.cfg e.agent e.word = .ok i → step s = exec i s

/-- 00_scope.md R12, 30_encoding.md R94: a word the decoder refuses sets the refusal mark with the first failing check's reason,
and changes nothing else: no write, no log event, no advance of the index. -/
def Obligations.RefusedWordWritesNothing : Prop :=
  ∀ (s : State) (e : TraceEntry) (r : RefusalReason), s.Running → s.trace[s.index]? = some e →
    decode s.cfg e.agent e.word = .error r → step s = .next { s with refused := some r }

/-- 10_state.md R41: the marks are none at reset, a state with either set takes no further step, and so neither is ever
cleared. That such a step is answered by `runFaulted` or `runRefused` with the recorded mark (the last two clauses) is the
model's choice, DESIGN CHOICE of notes/assumptions/8.md. -/
def Obligations.MarkedStateTakesNoStep : Prop :=
  (∀ (cfg : Config) (tr : List TraceEntry), (State.boot cfg tr).fault = none ∧ (State.boot cfg tr).refused = none) ∧
  (∀ (s t : State), s.fault ≠ none ∨ s.refused ≠ none → step s ≠ .next t) ∧
  (∀ (s : State) (m : FaultMark), s.fault = some m → step s = .fault (.runFaulted m)) ∧
  (∀ (s : State) (r : RefusalReason), s.fault = none → s.refused = some r → step s = .refused (.runRefused r))

/-- 00_scope.md R16: a run with no mark ends exactly where its trace is exhausted. That this end, which R16 calls a success, is
answered by the Lean fault `traceExhausted`, and that every pair, a refused or faulting one too, is answered by a next state,
is the model's choice, DESIGN CHOICE of notes/assumptions/8.md. -/
def Obligations.RunEndsWithItsTrace : Prop :=
  ∀ (s : State), s.Running →
    (s.trace[s.index]? = none → step s = .fault .traceExhausted) ∧
    (∀ e, s.trace[s.index]? = some e → ∃ t, step s = .next t)

/-- 10_state.md R25: the trace index starts at 0 and goes up by one after each command that neither faults nor is refused; after
any other it stays. -/
def Obligations.TraceIndexCountsCommands : Prop :=
  (∀ (cfg : Config) (tr : List TraceEntry), (State.boot cfg tr).index = 0) ∧
  (∀ (s t : State), step s = .next t →
    (t.Running → t.index = s.index + 1) ∧ (¬ t.Running → t.index = s.index))

/-- 00_scope.md R8, 10_state.md R40: what any step leaves alone: the parameters, the trace and every event already logged; it
adds events numbered from the log's length, each issued by the agent its command belongs to. -/
def Obligations.StepOnlyAppendsToLog : Prop :=
  ∀ (s t : State), step s = .next t →
    InstanceSame s t ∧
    ∃ evs, t.log = s.log ++ evs ∧
      ∀ k e, evs[k]? = some e → e.seq = s.log.length + k ∧ e.agent = e.op.agent

/-- 10_state.md R24, 70_reset_and_hazards.md R260: after reset the enable and pin fields of the existing channels hold 0, every
other field holds Unknown and reading it records FC4, the bookkeeping is clear, and the first command of the trace is next. -/
def Obligations.ResetLeavesBootQuiet : Prop :=
  ∀ (cfg : Config) (tr : List TraceEntry),
    (State.boot cfg tr).value (.sh .moduleEn) = .known 0#16 ∧
    (∀ f, f ≠ .moduleEn → (State.boot cfg tr).value (.sh f) = .unknown) ∧
    (∀ c : Chan, c.val < cfg.nCh →
      (State.boot cfg tr).value (.chn c .chEn) = .known 0#16 ∧ (State.boot cfg tr).value (.chn c .outEn) = .known 0#16 ∧
      (∀ f, f ≠ .chEn → f ≠ .outEn → (State.boot cfg tr).value (.chn c f) = .unknown) ∧
      (∀ f, (State.boot cfg tr).value (.wg c f) = .unknown)) ∧
    (State.boot cfg tr).initialized = false ∧ (State.boot cfg tr).log = [] ∧ (State.boot cfg tr).fault = none ∧
    (State.boot cfg tr).refused = none ∧ (State.boot cfg tr).index = 0 ∧ (State.boot cfg tr).nextEntry = tr.head? ∧
    (∀ l, (State.boot cfg tr).value l = .unknown →
      FaultedOnly (State.boot cfg tr) (.unknownRead l) (exec (.frd (.field l)) (State.boot cfg tr)))

/-! ## INIT (40_initializer.md) -/

/-- R110, R113: from a state that is not initialized, with the module off and channel CH not enabled behind a connected output
buffer, INIT completes, in every order R114 allows, and leaves exactly the fields of R113; it logs 27 + N_STOP events. -/
def Obligations.InitCompletes : Prop :=
  ∀ (s : State), s.cfg.Valid → s.initialized = false → s.value (.sh .moduleEn) = .known 0#16 →
    (s.value (.chn s.cfg.ch .chEn) = .known 0#16 ∨ Disconnected s s.cfg.ch) →
    ∃ t, exec .init s = .next t ∧ t.initialized = true ∧
      (∀ l v, afterInit s.cfg l = some v → t.value l = .known v) ∧
      (∀ l, afterInit s.cfg l = none → t.value l = s.value l) ∧
      (∃ evs, t.log = s.log ++ evs ∧ evs.length = 27 + s.cfg.nStop) ∧
      Completed s t ∧ ReadsSame s t

/-- R112: in the write log of INIT every Shared Control Block event precedes every Channel Configuration event, every one of
these precedes every event of the reference pair (R116), and every one of these every waveform-generator event, also where a
fault cuts INIT short. -/
def Obligations.InitWritesGroupsInOrder : Prop :=
  ∀ (s t : State), s.cfg.OrderValid → exec .init s = .next t →
    ∃ evs, t.log = s.log ++ evs ∧
      evs.Pairwise (fun a b => ∀ la oa na lb ob nb, a.action = .wrote la oa na → b.action = .wrote lb ob nb →
        (writeGroup la).rank ≤ (writeGroup lb).rank)

/-- R115: INIT writes the hysteresis magnitude of channel CH exactly twice, first none and then 45 mV; after it the magnitude is
45 mV, and inactive, since the channel is not live (44_analog_behaviour.md R214). -/
def Obligations.InitWritesHysteresisNoneThenMax : Prop :=
  ∀ (s t : State), s.cfg.Valid → s.fault = none → exec .init s = .next t → t.fault = none →
    ∃ evs, t.log = s.log ++ evs ∧
      evs.filterMap (Event.wroteTo? (.chn s.cfg.ch .hysSel)) =
      [.known ((s.cfg.hysCode .none).zeroExtend 16), .known ((s.cfg.hysCode .mv45).zeroExtend 16)] ∧
      hysteresis t s.cfg.ch = some .mv45 ∧ hysteresisMillivolts t s.cfg.ch = some s.cfg.hysMv.mv45 ∧
      liveDeadBand t s.cfg.ch = none

/-- R110: INIT's preconditions fail before any write, FC2 first: a second INIT records FC2 whatever the enable fields hold, and a
first INIT with the module on records FC3. -/
def Obligations.InitPreconditionFaults : Prop :=
  (∀ (s : State), s.initialized = true → FaultedOnly s (.reInit 0x10000000#32) (exec .init s)) ∧
  (∀ (s : State) (v : Word), s.initialized = false → s.value (.sh .moduleEn) = .known v → v ≠ 0#16 →
    FaultedOnly s (.initWhileEnabled 0x10000000#32) (exec .init s)) ∧
  (∀ (s : State), s.initialized = false → s.value (.sh .moduleEn) = .unknown →
    FaultedOnly s (.unknownRead (.sh .moduleEn)) (exec .init s))

/-- R110 in its canonical order: with channel CH enabled behind a connected output buffer, INIT stops with FC5 at step C1, after
the seven writes of group S and before any channel write. -/
def Obligations.InitStopsAtConnectedChannel : Prop :=
  ∀ (s : State), s.cfg.initOrder = InitStep.canonical s.cfg.nStop → s.initialized = false →
    s.value (.sh .moduleEn) = .known 0#16 → s.value (.chn s.cfg.ch .chEn) = .known 1#16 →
    s.value (.chn s.cfg.ch .outEn) = .known 1#16 →
    ∃ t, exec .init s = .next t ∧
      t.fault = some (.outputGlitchHazard (.chn s.cfg.ch .chEn) (.known 1#16) 0#16) ∧
      (∀ f v, afterInit s.cfg (.sh f) = some v → t.value (.sh f) = .known v) ∧
      (∀ c f, t.value (.chn c f) = s.value (.chn c f)) ∧ (∀ c f, t.value (.wg c f) = s.value (.wg c f)) ∧
      t.log.length = s.log.length + 7 ∧ t.initialized = false ∧ t.index = s.index

/-- 40_initializer.md R114 (the sentence marked derived there): no two orders that R114 allows can be told apart by the fields
INIT leaves, from any state in which INIT completes. -/
def Obligations.InitOrderLeavesSameFields : Prop :=
  ∀ (s : State) (o₁ o₂ : List InitStep),
    (s.withOrder o₁).cfg.Valid → (s.withOrder o₂).cfg.Valid →
    s.initialized = false → s.value (.sh .moduleEn) = .known 0#16 →
    (s.value (.chn s.cfg.ch .chEn) = .known 0#16 ∨ Disconnected s s.cfg.ch) →
    ∃ t₁ t₂, exec .init (s.withOrder o₁) = .next t₁ ∧ exec .init (s.withOrder o₂) = .next t₂ ∧
      t₁.sh = t₂.sh ∧ t₁.chn = t₂.chn ∧ t₁.wg = t₂.wg ∧ t₁.log.length = t₂.log.length

/-! ## SETREF (41_reference.md) -/

/-- R140: `RefCode` is OFFSET plus the quotient v*K / 2^Q as a rational number, rounded to nearest with ties toward +infinity,
rounded down, or rounded to nearest with ties away from zero, by REF_ROUNDING. -/
def Obligations.RefCodeRoundsTheQuotient : Prop :=
  ∀ (cfg : Config) (v : Int), 1 ≤ cfg.q →
    (cfg.rounding = .halfUp →
      refCode cfg v = ⌊((v * cfg.k : Int) : ℚ) / 2 ^ cfg.q + 1 / 2⌋ + cfg.offset) ∧
    (cfg.rounding = .floor → refCode cfg v = ⌊((v * cfg.k : Int) : ℚ) / 2 ^ cfg.q⌋ + cfg.offset) ∧
    (cfg.rounding = .halfAway →
      refCode cfg v = (v * cfg.k).sign * ⌊|((v * cfg.k : Int) : ℚ)| / 2 ^ cfg.q + 1 / 2⌋ + cfg.offset)

/-- 41_reference.md R141 (marked derived there): under D00's constants the code of a 16-bit application value takes every value
of 1..4095 and no other, with the three boundary values, in order, 2048 exactly on -8..8, and the extremes exactly beyond
±32760. -/
def Obligations.RefCodeRangeAndOrder : Prop :=
  ∀ (cfg : Config), cfg.DefaultConversion →
    (refCode cfg 0 = 2048 ∧ refCode cfg 32767 = 4095 ∧ refCode cfg (-32768) = 1) ∧
    (∀ v : Int, -32768 ≤ v → v ≤ 32767 → 1 ≤ refCode cfg v ∧ refCode cfg v ≤ 4095) ∧
    (∀ c : Int, 1 ≤ c → c ≤ 4095 → ∃ v : Int, -32768 ≤ v ∧ v ≤ 32767 ∧ refCode cfg v = c) ∧
    (∀ v w : Int, v ≤ w → refCode cfg v ≤ refCode cfg w) ∧
    (∀ v : Int, refCode cfg v = 2048 ↔ -8 ≤ v ∧ v ≤ 8) ∧
    (∀ v : Int, -32768 ≤ v → v ≤ 32767 → (refCode cfg v = 4095 ↔ 32760 ≤ v)) ∧
    (∀ v : Int, -32768 ≤ v → v ≤ 32767 → (refCode cfg v = 1 ↔ v ≤ -32760))

/-- 41_reference.md R141 (marked derived there): the conversion is symmetric about 2048 but at the two ties ±16384, which are the
only inputs whose quotient lies half way, and they give 3072 and 1025. -/
def Obligations.RefCodeSymmetryFailsAtTies : Prop :=
  ∀ (cfg : Config), cfg.DefaultConversion →
    (∀ v : Int, -32767 ≤ v → v ≤ 32767 →
      ((refCode cfg (-v) = 4096 - refCode cfg v) ↔ (v ≠ 16384 ∧ v ≠ -16384)) ∧
      ((2 * (v * 2047)) % 65536 = 32768 ↔ (v = 16384 ∨ v = -16384))) ∧
    refCode cfg 16384 = 3072 ∧ refCode cfg (-16384) = 1025

/-- R142: once initialized, SETREF of a value whose code fits 0..4095 completes: the code is written to the high limit of channel
CH, one event is logged, and no other field changes. -/
def Obligations.SetrefCompletes : Prop :=
  ∀ (s : State) (imm : Word), s.initialized = true → LiveConfigOk s →
    0 ≤ refCode s.cfg imm.toInt → refCode s.cfg imm.toInt ≤ 4095 →
    ∃ t code, exec (.setref imm) s = .next t ∧ (code.toNat : Int) = refCode s.cfg imm.toInt ∧
      t.value (.chn s.cfg.ch .datHigh) = .known code ∧ FieldsSameBut s t [.chn s.cfg.ch .datHigh] ∧
      t.log = s.log ++ [wroteEvent s.log.length .setref (.chn s.cfg.ch .datHigh) (s.value (.chn s.cfg.ch .datHigh)) code] ∧
      t.initialized = true ∧ Completed s t ∧ ReadsSame s t

/-- R144: nothing is clamped: under D00's constants, in each reading of REF_ROUNDING, every 16-bit value gives a code of 1..4095,
and under constants that give a code outside 0..4095, SETREF records FC9 and writes nothing. -/
def Obligations.SetrefFaultsOutsideCodeRange : Prop :=
  (∀ (cfg : Config) (imm : Word), cfg.k = 2047 → cfg.offset = 2048 → cfg.q = 15 →
    1 ≤ refCode cfg imm.toInt ∧ refCode cfg imm.toInt ≤ 4095) ∧
  (∀ (s : State) (imm : Word), s.initialized = true →
    (refCode s.cfg imm.toInt < 0 ∨ 4095 < refCode s.cfg imm.toInt) →
    FaultedOnly s (.codeOutOfRange imm.toInt (refCode s.cfg imm.toInt)) (exec (.setref imm) s))

/-- 44_analog_behaviour.md R212: while channel CH is live with every waveform mode off, the live threshold follows each
SETREF. -/
def Obligations.ThresholdFollowsSetref : Prop :=
  ∀ (s : State) (imm : Word), s.initialized = true → LiveConfigOk s → live s s.cfg.ch = true →
    waveformOff s s.cfg.ch = true → s.cfg.DefaultConversion →
    ∃ t code, exec (.setref imm) s = .next t ∧ liveThreshold t s.cfg.ch = some code ∧
      (code.toNat : Int) = refCode s.cfg imm.toInt

/-- 10_state.md R39: `initialized` is false at reset, INIT alone changes it, to true; while it is false SETREF, SETEN.ON and
SETEN.OFF record FC1 with their word and do nothing else; while it is true INIT records FC2. -/
def Obligations.InitializedGatesTheOperations : Prop :=
  (∀ (cfg : Config) (tr : List TraceEntry), (State.boot cfg tr).initialized = false) ∧
  (∀ (s t : State), s.fault = none → exec .init s = .next t → t.fault = none → t.initialized = true) ∧
  (∀ (i : Instr) (s t : State), i ≠ .init → exec i s = .next t → t.initialized = s.initialized) ∧
  (∀ (s : State), s.initialized = false →
    (∀ imm : Word, FaultedOnly s (.notInitialized (0x20000000#32 ||| imm.zeroExtend 32)) (exec (.setref imm) s)) ∧
    FaultedOnly s (.notInitialized 0x30000001#32) (exec .setenOn s) ∧
    FaultedOnly s (.notInitialized 0x30000000#32) (exec .setenOff s)) ∧
  (∀ (s : State), s.initialized = true → FaultedOnly s (.reInit 0x10000000#32) (exec .init s))

/-! ## SETEN (42_enable.md) -/

/-- R160: once initialized, with the output buffers disconnected that the writes could glitch and the configuration in order,
SETEN.ON completes: the channel enable and then the module enable are 1, in that order in the log, and nothing else changes, the
output buffer in particular. -/
def Obligations.SetenOnCompletes : Prop :=
  ∀ (s : State), s.initialized = true → ReadyToEnable s →
    (s.value (.chn s.cfg.ch .chEn) = .known 1#16 ∨ Disconnected s s.cfg.ch) →
    (s.value (.sh .moduleEn) = .known 1#16 ∨ ∀ c : Chan, c.val < s.cfg.nCh → Disconnected s c) →
    ∃ t, exec .setenOn s = .next t ∧
      t.value (.chn s.cfg.ch .chEn) = .known 1#16 ∧ t.value (.sh .moduleEn) = .known 1#16 ∧
      FieldsSameBut s t [.chn s.cfg.ch .chEn, .sh .moduleEn] ∧
      t.log = s.log ++
        [wroteEvent s.log.length .setenOn (.chn s.cfg.ch .chEn) (s.value (.chn s.cfg.ch .chEn)) 1#16,
         wroteEvent (s.log.length + 1) .setenOn (.sh .moduleEn) (s.value (.sh .moduleEn)) 1#16] ∧
      t.initialized = true ∧ Completed s t ∧ ReadsSame s t

/-- R161: once initialized, with no other channel's output buffer connected while the module is on, SETEN.OFF completes: the
output buffer, then the channel enable, then the module enable are cleared, in that order in the log, and nothing else
changes. -/
def Obligations.SetenOffCompletes : Prop :=
  ∀ (s : State), s.initialized = true → LiveConfigOk s →
    (s.value (.sh .moduleEn) = .known 0#16 ∨
      ∀ c : Chan, c.val < s.cfg.nCh → c ≠ s.cfg.ch → Disconnected s c) →
    ∃ t, exec .setenOff s = .next t ∧
      t.value (.chn s.cfg.ch .outEn) = .known 0#16 ∧ t.value (.chn s.cfg.ch .chEn) = .known 0#16 ∧
      t.value (.sh .moduleEn) = .known 0#16 ∧
      FieldsSameBut s t [.chn s.cfg.ch .outEn, .chn s.cfg.ch .chEn, .sh .moduleEn] ∧
      t.log = s.log ++
        [wroteEvent s.log.length .setenOff (.chn s.cfg.ch .outEn) (s.value (.chn s.cfg.ch .outEn)) 0#16,
         wroteEvent (s.log.length + 1) .setenOff (.chn s.cfg.ch .chEn) (s.value (.chn s.cfg.ch .chEn)) 0#16,
         wroteEvent (s.log.length + 2) .setenOff (.sh .moduleEn) (s.value (.sh .moduleEn)) 0#16] ∧
      t.initialized = true ∧ Completed s t ∧ ReadsSame s t

/-- 42_enable.md, the table of SETEN.ON's outcomes (R162, marked derived there): from each of the four Enable Controller states,
with o the output buffer of CH and O' another channel's, where SETEN.ON ends, what it logs, and where FC5 stops it. -/
def Obligations.EnableOutcomeTable : Prop :=
  ∀ (s : State) (a b o : Word), s.initialized = true → s.fault = none → s.cfg.CountsValid → ReadyToEnable s →
    s.value (.chn s.cfg.ch .chEn) = .known a → s.value (.sh .moduleEn) = .known b →
    s.value (.chn s.cfg.ch .outEn) = .known o →
    (∀ c : Chan, c.val < s.cfg.nCh → s.value (.chn c .outEn) = .known 0#16 ∨ s.value (.chn c .outEn) = .known 1#16) →
    ∃ t, exec .setenOn s = .next t ∧
      let n := s.log.length
      let ch := Loc.chn s.cfg.ch .chEn
      let md := Loc.sh .moduleEn
      let other : Prop := ∃ c : Chan, c.val < s.cfg.nCh ∧ c ≠ s.cfg.ch ∧ s.value (.chn c .outEn) = .known 1#16
      let e1 := wroteEvent n .setenOn ch (.known a) 1#16
      let e2 := wroteEvent (n + 1) .setenOn md (.known b) 1#16
      (a = 0#16 → b = 0#16 → o = 0#16 → ¬ other → EnableOutcome s t [ch, md] 1#16 1#16 [e1, e2] none) ∧
      (a = 0#16 → b = 0#16 → o = 1#16 →
        EnableOutcome s t [] 0#16 0#16 [] (some (.outputGlitchHazard ch (.known 0#16) 1#16))) ∧
      (a = 0#16 → b = 0#16 → o = 0#16 → other →
        EnableOutcome s t [ch] 1#16 0#16 [e1] (some (.outputGlitchHazard md (.known 0#16) 1#16))) ∧
      (a = 1#16 → b = 1#16 → EnableOutcome s t [] 1#16 1#16 [e1, e2] none) ∧
      (a = 1#16 → b = 0#16 → o = 0#16 → ¬ other → EnableOutcome s t [md] 1#16 1#16 [e1, e2] none) ∧
      (a = 1#16 → b = 0#16 → o = 1#16 ∨ other →
        EnableOutcome s t [] 1#16 0#16 [e1] (some (.outputGlitchHazard md (.known 0#16) 1#16))) ∧
      (a = 0#16 → b = 1#16 → o = 0#16 → EnableOutcome s t [ch] 1#16 1#16 [e1, e2] none) ∧
      (a = 0#16 → b = 1#16 → o = 1#16 →
        EnableOutcome s t [] 0#16 1#16 [] (some (.outputGlitchHazard ch (.known 0#16) 1#16)))

/-- 42_enable.md, the table of SETEN.OFF's outcomes (R163, marked derived there): from each of the four Enable Controller states,
where SETEN.OFF ends, what it logs, and where FC5 stops it: only where the module would go off behind another channel's
connected output buffer. -/
def Obligations.DisableOutcomeTable : Prop :=
  ∀ (s : State) (a b o : Word), s.initialized = true → s.fault = none → s.cfg.CountsValid → LiveConfigOk s →
    s.value (.chn s.cfg.ch .chEn) = .known a → s.value (.sh .moduleEn) = .known b →
    s.value (.chn s.cfg.ch .outEn) = .known o →
    (∀ c : Chan, c.val < s.cfg.nCh → s.value (.chn c .outEn) = .known 0#16 ∨ s.value (.chn c .outEn) = .known 1#16) →
    ∃ t, exec .setenOff s = .next t ∧
      let n := s.log.length
      let oe := Loc.chn s.cfg.ch .outEn
      let ch := Loc.chn s.cfg.ch .chEn
      let md := Loc.sh .moduleEn
      let other : Prop := ∃ c : Chan, c.val < s.cfg.nCh ∧ c ≠ s.cfg.ch ∧ s.value (.chn c .outEn) = .known 1#16
      let e1 := wroteEvent n .setenOff oe (.known o) 0#16
      let e2 := wroteEvent (n + 1) .setenOff ch (.known a) 0#16
      let e3 := wroteEvent (n + 2) .setenOff md (.known b) 0#16
      t.value oe = .known 0#16 ∧
      (b = 0#16 → EnableOutcome s t [oe, ch] 0#16 0#16 [e1, e2, e3] none) ∧
      (b = 1#16 → ¬ other → EnableOutcome s t [oe, ch, md] 0#16 0#16 [e1, e2, e3] none) ∧
      (b = 1#16 → other →
        EnableOutcome s t [oe, ch] 0#16 1#16 [e1, e2] (some (.outputGlitchHazard md (.known 1#16) 0#16)))

/-- 42_enable.md R164 (marked derived there): a second SETEN.ON or SETEN.OFF after one that raised no fault raises none, leaves
every field as it is, and logs its events with old equal to new. -/
def Obligations.EnableTwiceIsEnableOnce : Prop :=
  (∀ (s t : State), s.fault = none → exec .setenOn s = .next t → t.fault = none →
    ∃ u, exec .setenOn t = .next u ∧ u.fault = none ∧ (∀ l, u.value l = t.value l) ∧
      u.log = t.log ++
        [wroteEvent t.log.length .setenOn (.chn s.cfg.ch .chEn) (.known 1#16) 1#16,
         wroteEvent (t.log.length + 1) .setenOn (.sh .moduleEn) (.known 1#16) 1#16]) ∧
  (∀ (s t : State), s.fault = none → exec .setenOff s = .next t → t.fault = none →
    ∃ u, exec .setenOff t = .next u ∧ u.fault = none ∧ (∀ l, u.value l = t.value l) ∧
      u.log = t.log ++
        [wroteEvent t.log.length .setenOff (.chn s.cfg.ch .outEn) (.known 0#16) 0#16,
         wroteEvent (t.log.length + 1) .setenOff (.chn s.cfg.ch .chEn) (.known 0#16) 0#16,
         wroteEvent (t.log.length + 2) .setenOff (.sh .moduleEn) (.known 0#16) 0#16])

/-- R166, 10_state.md R37: a SETEN.OFF without a fault leaves no channel live, and a SETEN.ON without a fault makes live every
channel that is enabled, channel CH among them. -/
def Obligations.ModuleEnableIsShared : Prop :=
  (∀ (s t : State), s.fault = none → exec .setenOff s = .next t → t.fault = none → ∀ c, live t c = false) ∧
  (∀ (s t : State), s.fault = none → exec .setenOn s = .next t → t.fault = none →
    live t s.cfg.ch = true ∧ ∀ c, s.value (.chn c .chEn) = .known 1#16 → live t c = true)

/-! ## FWR and FRD (43_field_access.md) -/

/-- R190: FWR of any field completes where no check of `wr` fails, initialized or not: the field holds the value, the write is
logged, also one of the value already held, and no other field changes. -/
def Obligations.FwrCompletes : Prop :=
  ∀ (s : State) (l : Loc) (v : Word), WriteAllowed s l v →
    ∃ t, exec (.fwr l v) s = .next t ∧ t.value l = .known v ∧ FieldsSameBut s t [l] ∧
      t.log = s.log ++ [wroteEvent s.log.length .fwr l (s.value l) v] ∧
      t.initialized = s.initialized ∧ Completed s t ∧ ReadsSame s t

/-- 20_memory.md R63 (a), 60_exceptions.md R231: a write of shared configuration with the module on, or of the configuration of a
live channel, records FC7 and does not happen, also where the value would not change. -/
def Obligations.ConfigurationInUseIsNotRewritten : Prop :=
  ∀ (s : State) (l : Loc) (v : Word), InUse s l →
    FaultedOnly s (.liveReconfig l (s.value l) v) (exec (.fwr l v) s)

/-- 20_memory.md R63 (b), 60_exceptions.md R231: a write that changes a channel enable behind its connected output buffer, or the
module enable behind any connected output buffer, records FC5 and does not happen. -/
def Obligations.EnableBehindConnectedBufferFaults : Prop :=
  (∀ (s : State) (c : Chan) (v : Word), s.value (.chn c .chEn) ≠ .known v → s.value (.chn c .outEn) = .known 1#16 →
    FaultedOnly s (.outputGlitchHazard (.chn c .chEn) (s.value (.chn c .chEn)) v) (exec (.fwr (.chn c .chEn) v) s)) ∧
  (∀ (s : State) (v : Word) (d : Chan), s.value (.sh .moduleEn) ≠ .known v →
    (∀ c : Chan, c.val < s.cfg.nCh → s.Known (.chn c .outEn)) → d.val < s.cfg.nCh →
    s.value (.chn d .outEn) = .known 1#16 →
    FaultedOnly s (.outputGlitchHazard (.sh .moduleEn) (s.value (.sh .moduleEn)) v) (exec (.fwr (.sh .moduleEn) v) s))

/-- 20_memory.md R63 (c), 60_exceptions.md R231: connecting an output buffer while another channel's is connected records FC6 with
that other channel, and does not happen. -/
def Obligations.SecondPinDriverFaults : Prop :=
  ∀ (s : State) (c d : Chan), (∀ e : Chan, e.val < s.cfg.nCh → s.Known (.chn e .outEn)) →
    d.val < s.cfg.nCh → d ≠ c → s.value (.chn d .outEn) = .known 1#16 →
    ∃ other : Chan, other.val < s.cfg.nCh ∧ other ≠ c ∧ s.value (.chn other .outEn) = .known 1#16 ∧
      FaultedOnly s (.pinContention (.chn c .outEn) other) (exec (.fwr (.chn c .outEn) 1#16) s)

/-- 20_memory.md R64, 60_exceptions.md R232: a write that leaves the module on with the transition-mode window not shorter than
the steady-state window records FC8 after it has happened and been logged, so the state shows the offending value. -/
def Obligations.BrokenTimingFaultsAfterTheWrite : Prop :=
  ∀ (s : State) (l : Loc) (v tm ss : Word), ¬ InUse s l → EnableSafe s l v → PinFree s l v →
    (s.setValue l (.known v)).value (.sh .moduleEn) = .known 1#16 →
    (s.setValue l (.known v)).value (.sh .tmodTime) = .known tm →
    (s.setValue l (.known v)).value (.sh .ssTime) = .known ss → ss.toNat ≤ tm.toNat →
    ∃ t, exec (.fwr l v) s = .next t ∧ t.fault = some (.configInvariant .shared) ∧ t.value l = .known v ∧
      FieldsSameBut s t [l] ∧ t.log = s.log ++ [wroteEvent s.log.length .fwr l (s.value l) v] ∧ t.index = s.index

/-- 10_state.md R32, 20_memory.md R64: a write that leaves a live channel in hysteretic mode with slope on, or in triangle mode
with slope off, records FC8 with the lowest such channel, after the write has happened. -/
def Obligations.BrokenWaveformModeFaultsAfterTheWrite : Prop :=
  ∀ (s : State) (l : Loc) (v h t' p : Word) (c : Chan), ¬ InUse s l → EnableSafe s l v → PinFree s l v →
    let u := s.setValue l (.known v)
    SharedTimingOk u → c.val < u.cfg.nCh → live u c = true →
    u.value (.wg c .hystModeEn) = .known h → u.value (.wg c .triModeEn) = .known t' → u.value (.wg c .slopeEn) = .known p →
    ((h = 1#16 ∧ p = 1#16) ∨ (t' = 1#16 ∧ p = 0#16)) →
    (∀ d : Chan, d.val < c.val → live u d = true → WaveOk u d) →
    ∃ t, exec (.fwr l v) s = .next t ∧ t.fault = some (.configInvariant (.channel c)) ∧ t.value l = .known v ∧
      FieldsSameBut s t [l] ∧ t.log = s.log ++ [wroteEvent s.log.length .fwr l (s.value l) v] ∧ t.index = s.index

/-- R192: with the module on, FWR of a field meets FC7 exactly where the field is shared configuration or configuration of a live
channel; the enable, pin and reference fields and the configuration of other channels never meet it. -/
def Obligations.WhatMayBeWrittenWhileOn : Prop :=
  ∀ (s : State) (l : Loc) (v : Word), s.fault = none → moduleOn s = true →
    ((∃ t, exec (.fwr l v) s = .next t ∧ t.fault = some (.liveReconfig l (s.value l) v)) ↔
      (fieldClass l = .sharedConfig ∨
        (fieldClass l = .channelConfig ∧ ∀ c, l.channel? = some c → s.value (.chn c .chEn) = .known 1#16)))

/-- R191: FRD of a field that holds a known value completes: the value is logged and returned, and no field changes. -/
def Obligations.FrdReturnsTheField : Prop :=
  ∀ (s : State) (l : Loc) (x : Word), s.value l = .known x →
    ∃ t, exec (.frd (.field l)) s = .next t ∧ (∀ k, t.value k = s.value k) ∧
      t.log = s.log ++ [readBackEvent s.log.length (.field l) x] ∧ t.returned = s.returned ++ [x] ∧
      t.draws = s.draws ∧ t.initialized = s.initialized ∧ Completed s t

/-- R191, 10_state.md R34, 44_analog_behaviour.md R211: FRD of a comparator output completes in every state with a draw, 0 or 1
and otherwise free; the draw is logged and returned, no field changes, and the next read draws afresh. -/
def Obligations.FrdDrawsTheComparator : Prop :=
  ∀ (s : State) (c : Chan),
    ∃ (t : State) (x : Word), exec (.frd (.cmpOut c)) s = .next t ∧ x.toNat < 2 ∧ (∀ k, t.value k = s.value k) ∧
      t.log = s.log ++ [readBackEvent s.log.length (.cmpOut c) x] ∧ t.returned = s.returned ++ [x] ∧
      t.draws = s.draws + 1 ∧ t.initialized = s.initialized ∧ Completed s t

/-- 20_memory.md R62, 60_exceptions.md R231: FRD of a field that holds Unknown records FC4 with the field, and does nothing
else. -/
def Obligations.FrdOfUnknownFaults : Prop :=
  ∀ (s : State) (l : Loc), s.value l = .unknown → FaultedOnly s (.unknownRead l) (exec (.frd (.field l)) s)

/-- 20_memory.md R62, R64: turning the module on while a timing window holds Unknown records FC4 with that window from the live
check, after the write has happened and been logged: `tmod_time` where it is Unknown, whatever `ss_time` holds, and `ss_time`
where it alone is Unknown. -/
def Obligations.UnknownTimingFaultsOnEnable : Prop :=
  ∀ (s : State) (f : ShField),
    (s.value (.sh .moduleEn) = .known 1#16 ∨ ∀ c : Chan, c.val < s.cfg.nCh → Disconnected s c) →
    ((f = .tmodTime ∧ s.value (.sh .tmodTime) = .unknown) ∨
      (f = .ssTime ∧ s.Known (.sh .tmodTime) ∧ s.value (.sh .ssTime) = .unknown)) →
    ∃ t, exec (.fwr (.sh .moduleEn) 1#16) s = .next t ∧ t.fault = some (.unknownRead (.sh f)) ∧
      t.value (.sh .moduleEn) = .known 1#16 ∧ FieldsSameBut s t [.sh .moduleEn] ∧
      t.log.length = s.log.length + 1 ∧ t.index = s.index

/-! ## Whole-machine rules -/

/-- 10_state.md R42: the fields each command may change, whether it completes or stops: INIT those of the shared block and of
channel CH, SETREF the high limit of CH, SETEN its enable and pin fields, FWR the field it names, FRD none. None of the three
operations changes a field of another channel. -/
def Obligations.CommandsWriteOnlyTheirFields : Prop :=
  ∀ (i : Instr) (s t : State), exec i s = .next t →
    (∀ l, ¬ mayWrite s.cfg i l → t.value l = s.value l) ∧
    (i.agent = .ctl → ∀ l c, l.channel? = some c → c ≠ s.cfg.ch → t.value l = s.value l) ∧
    (∀ l, s.Known l → t.Known l)

/-- 70_reset_and_hazards.md, the write counts (R274, marked derived there): what each command that records no fault adds to the
log. -/
def Obligations.WriteCountsAreFixed : Prop :=
  ∀ (i : Instr) (s t : State), s.cfg.OrderValid → s.cfg.CountsValid → s.fault = none → exec i s = .next t → t.fault = none →
    t.log.length = s.log.length + (match i with
      | .init => 27 + s.cfg.nStop
      | .setref _ => 1
      | .setenOn => 2
      | .setenOff => 3
      | .fwr _ _ => 1
      | .frd _ => 1)

/-- 44_analog_behaviour.md, its opening paragraph: none of the three operations, nor a field access other than a read of a
comparator output, depends on the environment's draws. -/
def Obligations.DrawsAffectOnlyComparatorReads : Prop :=
  ∀ (i : Instr) (s t : State) (n : Nat), (∀ c, i ≠ .frd (.cmpOut c)) → exec i s = .next t →
    exec i { s with draws := n } = .next { t with draws := n }

/-! ## Invariants that every step keeps -/

/-- 20_memory.md R70: every field holds the value of the most recent write to it in the log, or its reset value. -/
def Obligations.StepKeepsFieldsAsLogged : Prop :=
  ∀ (s t : State), LogTellsFields s → step s = .next t → LogTellsFields t

/-- 70_reset_and_hazards.md R267: at most one channel drives the shared output pin. -/
def Obligations.StepKeepsOnePinDriver : Prop :=
  ∀ (s t : State), OnePinDriver s → step s = .next t → OnePinDriver t

/-- 20_memory.md R64, 70_reset_and_hazards.md R268, R269: while a run is going on, the timing windows are ordered whenever the
module is on, and every live channel's waveform modes are exclusive. -/
def Obligations.StepKeepsLiveConfiguration : Prop :=
  ∀ (s t : State), LiveWhileRunning s → step s = .next t → LiveWhileRunning t

/-- The invariants of a run together: the parameters stay valid, values fit, absent fields stay untouched, the enable and pin
fields stay known, INIT's fields stay known once initialized, one pin driver, the live invariants, the log as the history of the
fields and of the reads, at most one mark, and the index within the trace. -/
def Obligations.StepKeepsRunInvariant : Prop :=
  ∀ (s t : State), RunInvariant s → step s = .next t → RunInvariant t

/-- The invariants of a run hold after reset, for every valid instance and every trace, and for the machine's own reset. -/
def Obligations.ResetMeetsRunInvariant : Prop :=
  (∀ (cfg : Config) (tr : List TraceEntry), cfg.Valid → RunInvariant (State.boot cfg tr)) ∧ RunInvariant State.reset

/-- 41_reference.md R142, R144 (the exceptions marked derived there): in a run that is going on, under D00's constants, SETREF
records no fault once INIT has run, whatever the enable state. -/
def Obligations.SetrefNeverFaultsInARun : Prop :=
  ∀ (s : State) (imm : Word), RunInvariant s → s.Running → s.initialized = true → s.cfg.DefaultConversion →
    ∃ t, exec (.setref imm) s = .next t ∧ t.Running ∧ t.index = s.index + 1

/-- 42_enable.md R161 (the exceptions marked derived there): in a run that is going on, SETEN.OFF stops only at its third write,
and only behind another channel's connected output buffer; the pin and the channel are off either way. -/
def Obligations.DisableAlwaysDisconnectsThePin : Prop :=
  ∀ (s : State), RunInvariant s → s.Running → s.initialized = true →
    ∃ t, exec .setenOff s = .next t ∧ t.value (.chn s.cfg.ch .outEn) = .known 0#16 ∧
      t.value (.chn s.cfg.ch .chEn) = .known 0#16 ∧
      (t.fault = none ∨
        (∃ c : Chan, c.val < s.cfg.nCh ∧ c ≠ s.cfg.ch ∧ s.value (.chn c .outEn) = .known 1#16) ∧
        t.fault = some (.outputGlitchHazard (.sh .moduleEn) (s.value (.sh .moduleEn)) 0#16))
end

