-- ==== Sys2Proof/Laws/State.lean ====
section
/-!
SUPPORT. One lemma per field of the state and per update, and what a field holds after another is written.
-/

namespace Sys2Proof.Machine

/-! ## Taking a fault (60_exceptions.md R231) -/

@[simp] theorem State.raise_cfg (s : State) (m : FaultMark) : (s.raise m).cfg = s.cfg := rfl
@[simp] theorem State.raise_sh (s : State) (m : FaultMark) : (s.raise m).sh = s.sh := rfl
@[simp] theorem State.raise_chn (s : State) (m : FaultMark) : (s.raise m).chn = s.chn := rfl
@[simp] theorem State.raise_wg (s : State) (m : FaultMark) : (s.raise m).wg = s.wg := rfl
@[simp] theorem State.raise_initialized (s : State) (m : FaultMark) : (s.raise m).initialized = s.initialized := rfl
@[simp] theorem State.raise_log (s : State) (m : FaultMark) : (s.raise m).log = s.log := rfl
@[simp] theorem State.raise_fault (s : State) (m : FaultMark) : (s.raise m).fault = some m := rfl
@[simp] theorem State.raise_refused (s : State) (m : FaultMark) : (s.raise m).refused = s.refused := rfl
@[simp] theorem State.raise_trace (s : State) (m : FaultMark) : (s.raise m).trace = s.trace := rfl
@[simp] theorem State.raise_index (s : State) (m : FaultMark) : (s.raise m).index = s.index := rfl
@[simp] theorem State.raise_returned (s : State) (m : FaultMark) : (s.raise m).returned = s.returned := rfl
@[simp] theorem State.raise_draws (s : State) (m : FaultMark) : (s.raise m).draws = s.draws := rfl
@[simp] theorem State.raise_value (s : State) (m : FaultMark) (l : Loc) : (s.raise m).value l = s.value l := by cases l <;> rfl

/-! ## Taking a refusal (60_exceptions.md R233) -/

@[simp] theorem State.refuse_cfg (s : State) (r : RefusalReason) : (s.refuse r).cfg = s.cfg := rfl
@[simp] theorem State.refuse_sh (s : State) (r : RefusalReason) : (s.refuse r).sh = s.sh := rfl
@[simp] theorem State.refuse_chn (s : State) (r : RefusalReason) : (s.refuse r).chn = s.chn := rfl
@[simp] theorem State.refuse_wg (s : State) (r : RefusalReason) : (s.refuse r).wg = s.wg := rfl
@[simp] theorem State.refuse_initialized (s : State) (r : RefusalReason) : (s.refuse r).initialized = s.initialized := rfl
@[simp] theorem State.refuse_log (s : State) (r : RefusalReason) : (s.refuse r).log = s.log := rfl
@[simp] theorem State.refuse_fault (s : State) (r : RefusalReason) : (s.refuse r).fault = s.fault := rfl
@[simp] theorem State.refuse_refused (s : State) (r : RefusalReason) : (s.refuse r).refused = some r := rfl
@[simp] theorem State.refuse_trace (s : State) (r : RefusalReason) : (s.refuse r).trace = s.trace := rfl
@[simp] theorem State.refuse_index (s : State) (r : RefusalReason) : (s.refuse r).index = s.index := rfl
@[simp] theorem State.refuse_returned (s : State) (r : RefusalReason) : (s.refuse r).returned = s.returned := rfl
@[simp] theorem State.refuse_draws (s : State) (r : RefusalReason) : (s.refuse r).draws = s.draws := rfl
@[simp] theorem State.refuse_value (s : State) (r : RefusalReason) (l : Loc) : (s.refuse r).value l = s.value l := by cases l <;> rfl

/-! ## The end of a command that neither faults nor is refused (10_state.md R25) -/

@[simp] theorem State.advance_cfg (s : State) : (s.advance).cfg = s.cfg := rfl
@[simp] theorem State.advance_sh (s : State) : (s.advance).sh = s.sh := rfl
@[simp] theorem State.advance_chn (s : State) : (s.advance).chn = s.chn := rfl
@[simp] theorem State.advance_wg (s : State) : (s.advance).wg = s.wg := rfl
@[simp] theorem State.advance_initialized (s : State) : (s.advance).initialized = s.initialized := rfl
@[simp] theorem State.advance_log (s : State) : (s.advance).log = s.log := rfl
@[simp] theorem State.advance_fault (s : State) : (s.advance).fault = s.fault := rfl
@[simp] theorem State.advance_refused (s : State) : (s.advance).refused = s.refused := rfl
@[simp] theorem State.advance_trace (s : State) : (s.advance).trace = s.trace := rfl
@[simp] theorem State.advance_index (s : State) : (s.advance).index = s.index + 1 := rfl
@[simp] theorem State.advance_returned (s : State) : (s.advance).returned = s.returned := rfl
@[simp] theorem State.advance_draws (s : State) : (s.advance).draws = s.draws := rfl
@[simp] theorem State.advance_value (s : State) (l : Loc) : (s.advance).value l = s.value l := by cases l <;> rfl

/-! ## INIT's last step (10_state.md R39) -/

@[simp] theorem State.markInitialized_cfg (s : State) : (s.markInitialized).cfg = s.cfg := rfl
@[simp] theorem State.markInitialized_sh (s : State) : (s.markInitialized).sh = s.sh := rfl
@[simp] theorem State.markInitialized_chn (s : State) : (s.markInitialized).chn = s.chn := rfl
@[simp] theorem State.markInitialized_wg (s : State) : (s.markInitialized).wg = s.wg := rfl
@[simp] theorem State.markInitialized_initialized (s : State) : (s.markInitialized).initialized = true := rfl
@[simp] theorem State.markInitialized_log (s : State) : (s.markInitialized).log = s.log := rfl
@[simp] theorem State.markInitialized_fault (s : State) : (s.markInitialized).fault = s.fault := rfl
@[simp] theorem State.markInitialized_refused (s : State) : (s.markInitialized).refused = s.refused := rfl
@[simp] theorem State.markInitialized_trace (s : State) : (s.markInitialized).trace = s.trace := rfl
@[simp] theorem State.markInitialized_index (s : State) : (s.markInitialized).index = s.index := rfl
@[simp] theorem State.markInitialized_returned (s : State) : (s.markInitialized).returned = s.returned := rfl
@[simp] theorem State.markInitialized_draws (s : State) : (s.markInitialized).draws = s.draws := rfl
@[simp] theorem State.markInitialized_value (s : State) (l : Loc) : (s.markInitialized).value l = s.value l := by cases l <;> rfl

/-! ## Recording a read-back (43_field_access.md R191) -/

@[simp] theorem State.recordRead_cfg (s : State) (op : Op) (t : ReadTarget) (x : Word) : (s.recordRead op t x).cfg = s.cfg := rfl
@[simp] theorem State.recordRead_sh (s : State) (op : Op) (t : ReadTarget) (x : Word) : (s.recordRead op t x).sh = s.sh := rfl
@[simp] theorem State.recordRead_chn (s : State) (op : Op) (t : ReadTarget) (x : Word) : (s.recordRead op t x).chn = s.chn := rfl
@[simp] theorem State.recordRead_wg (s : State) (op : Op) (t : ReadTarget) (x : Word) : (s.recordRead op t x).wg = s.wg := rfl
@[simp] theorem State.recordRead_initialized (s : State) (op : Op) (t : ReadTarget) (x : Word) : (s.recordRead op t x).initialized = s.initialized := rfl
@[simp] theorem State.recordRead_log (s : State) (op : Op) (t : ReadTarget) (x : Word) : (s.recordRead op t x).log = s.log ++ [readEvent op t x s] := rfl
@[simp] theorem State.recordRead_fault (s : State) (op : Op) (t : ReadTarget) (x : Word) : (s.recordRead op t x).fault = s.fault := rfl
@[simp] theorem State.recordRead_refused (s : State) (op : Op) (t : ReadTarget) (x : Word) : (s.recordRead op t x).refused = s.refused := rfl
@[simp] theorem State.recordRead_trace (s : State) (op : Op) (t : ReadTarget) (x : Word) : (s.recordRead op t x).trace = s.trace := rfl
@[simp] theorem State.recordRead_index (s : State) (op : Op) (t : ReadTarget) (x : Word) : (s.recordRead op t x).index = s.index := rfl
@[simp] theorem State.recordRead_returned (s : State) (op : Op) (t : ReadTarget) (x : Word) : (s.recordRead op t x).returned = s.returned ++ [x] := rfl
@[simp] theorem State.recordRead_draws (s : State) (op : Op) (t : ReadTarget) (x : Word) : (s.recordRead op t x).draws = s.draws := rfl
@[simp] theorem State.recordRead_value (s : State) (op : Op) (t : ReadTarget) (x : Word) (l : Loc) : (s.recordRead op t x).value l = s.value l := by cases l <;> rfl

/-! ## Writing a field (20_memory.md R63 (d), R66) -/

@[simp] theorem State.setValue_cfg (s : State) (l : Loc) (x : FieldVal) : (s.setValue l x).cfg = s.cfg := by cases l <;> rfl
@[simp] theorem State.setValue_initialized (s : State) (l : Loc) (x : FieldVal) : (s.setValue l x).initialized = s.initialized := by cases l <;> rfl
@[simp] theorem State.setValue_log (s : State) (l : Loc) (x : FieldVal) : (s.setValue l x).log = s.log := by cases l <;> rfl
@[simp] theorem State.setValue_fault (s : State) (l : Loc) (x : FieldVal) : (s.setValue l x).fault = s.fault := by cases l <;> rfl
@[simp] theorem State.setValue_refused (s : State) (l : Loc) (x : FieldVal) : (s.setValue l x).refused = s.refused := by cases l <;> rfl
@[simp] theorem State.setValue_trace (s : State) (l : Loc) (x : FieldVal) : (s.setValue l x).trace = s.trace := by cases l <;> rfl
@[simp] theorem State.setValue_index (s : State) (l : Loc) (x : FieldVal) : (s.setValue l x).index = s.index := by cases l <;> rfl
@[simp] theorem State.setValue_returned (s : State) (l : Loc) (x : FieldVal) : (s.setValue l x).returned = s.returned := by cases l <;> rfl
@[simp] theorem State.setValue_draws (s : State) (l : Loc) (x : FieldVal) : (s.setValue l x).draws = s.draws := by cases l <;> rfl

theorem Shared.get_set (r : Shared) (v : FieldVal) (f g : ShField) :
    (r.set v f).get g = if g = f then v else r.get g := by
  cases f <;> cases g <;> rfl

theorem ChannelRegs.get_set (r : ChannelRegs) (v : FieldVal) (f g : ChnField) :
    (r.set v f).get g = if g = f then v else r.get g := by
  cases f <;> cases g <;> rfl

theorem WaveRegs.get_set (r : WaveRegs) (v : FieldVal) (f g : WgField) :
    (r.set v f).get g = if g = f then v else r.get g := by
  cases f with
  | stopSel j =>
    cases g with
    | stopSel k =>
      by_cases h : k = j
      · subst h; simp [WaveRegs.set, WaveRegs.get]
      · have h' : j.val ≠ k.val := fun e => h (Fin.ext e.symm)
        simp [WaveRegs.set, WaveRegs.get, h, Vector.getElem_set_ne, h']
    | _ => rfl
  | _ => cases g <;> rfl

/-- A write changes the field it names and no other (20_memory.md R66). -/
theorem State.value_setValue (s : State) (l k : Loc) (x : FieldVal) :
    (s.setValue l x).value k = if k = l then x else s.value k := by
  cases l with
  | sh f => cases k <;> simp [State.setValue, State.value, Shared.get_set]
  | chn c f =>
    cases k with
    | chn d g =>
      by_cases h : d = c
      · subst h; simp [State.setValue, State.value, ChannelRegs.get_set]
      · have h' : c.val ≠ d.val := fun e => h (Fin.ext e.symm)
        simp [State.setValue, State.value, h, Vector.getElem_set_ne, h']
    | _ => simp [State.setValue, State.value]
  | wg c f =>
    cases k with
    | wg d g =>
      by_cases h : d = c
      · subst h; simp [State.setValue, State.value, WaveRegs.get_set]
      · have h' : c.val ≠ d.val := fun e => h (Fin.ext e.symm)
        simp [State.setValue, State.value, h, Vector.getElem_set_ne, h']
    | _ => simp [State.setValue, State.value]

@[simp] theorem State.value_setValue_self (s : State) (l : Loc) (x : FieldVal) : (s.setValue l x).value l = x := by
  simp [State.value_setValue]

theorem State.value_setValue_ne (s : State) {l k : Loc} (h : k ≠ l) (x : FieldVal) :
    (s.setValue l x).value k = s.value k := by
  simp [State.value_setValue, h]

/-! ## A write with its event (20_memory.md R63 (d)) -/

@[simp] theorem performWrite_cfg (op : Op) (l : Loc) (v : Word) (s : State) : (performWrite op l v s).cfg = s.cfg := by
  cases l <;> rfl
@[simp] theorem performWrite_initialized (op : Op) (l : Loc) (v : Word) (s : State) : (performWrite op l v s).initialized = s.initialized := by
  cases l <;> rfl
@[simp] theorem performWrite_log (op : Op) (l : Loc) (v : Word) (s : State) : (performWrite op l v s).log = s.log ++ [writeEvent op l v s] := by
  cases l <;> rfl
@[simp] theorem performWrite_fault (op : Op) (l : Loc) (v : Word) (s : State) : (performWrite op l v s).fault = s.fault := by
  cases l <;> rfl
@[simp] theorem performWrite_refused (op : Op) (l : Loc) (v : Word) (s : State) : (performWrite op l v s).refused = s.refused := by
  cases l <;> rfl
@[simp] theorem performWrite_trace (op : Op) (l : Loc) (v : Word) (s : State) : (performWrite op l v s).trace = s.trace := by
  cases l <;> rfl
@[simp] theorem performWrite_index (op : Op) (l : Loc) (v : Word) (s : State) : (performWrite op l v s).index = s.index := by
  cases l <;> rfl
@[simp] theorem performWrite_returned (op : Op) (l : Loc) (v : Word) (s : State) : (performWrite op l v s).returned = s.returned := by
  cases l <;> rfl
@[simp] theorem performWrite_draws (op : Op) (l : Loc) (v : Word) (s : State) : (performWrite op l v s).draws = s.draws := by
  cases l <;> rfl

theorem performWrite_value (op : Op) (l k : Loc) (v : Word) (s : State) :
    (performWrite op l v s).value k = if k = l then .known v else s.value k := by
  have h : (performWrite op l v s).value k = (s.setValue l (.known v)).value k := by cases k <;> rfl
  rw [h, State.value_setValue]

@[simp] theorem performWrite_value_self (op : Op) (l : Loc) (v : Word) (s : State) :
    (performWrite op l v s).value l = .known v := by simp [performWrite_value]

theorem performWrite_value_ne (op : Op) {l k : Loc} (h : k ≠ l) (v : Word) (s : State) :
    (performWrite op l v s).value k = s.value k := by simp [performWrite_value, h]

/-! ## The state after reset (70_reset_and_hazards.md R260) -/

/-- What every field holds after reset: the enable and pin fields 0, every other field `Unknown`. -/
theorem State.boot_value (cfg : Config) (tr : List TraceEntry) (l : Loc) :
    (State.boot cfg tr).value l =
      if l = .sh .moduleEn ∨ (∃ c, l = .chn c .chEn) ∨ (∃ c, l = .chn c .outEn) then .known 0#16 else .unknown := by
  cases l with
  | sh f => cases f <;> simp [State.boot, State.value, Shared.reset, Shared.get]
  | chn c f => cases f <;> simp [State.boot, State.value, ChannelRegs.reset, ChannelRegs.get]
  | wg c f => cases f <;> simp [State.boot, State.value, WaveRegs.reset, WaveRegs.get]

end Sys2Proof.Machine
end

