-- ==== Sys2Proof/Laws/Ops.lean ====
section
/-!
SUPPORT. What the shared operations can do, said once: reads, the checks of a write as conditions on the fields, a write, and a
list of writes.
-/

namespace Sys2Proof.Machine

/-! ## Reading (20_memory.md R62) -/

theorem rd_ok {s : State} {l : Loc} {v : Word} : rd s l = .ok v ↔ s.value l = .known v := by
  unfold rd; cases h : s.value l <;> simp

theorem rd_error {s : State} {l : Loc} {m : FaultMark} :
    rd s l = .error m ↔ s.value l = .unknown ∧ m = .unknownRead l := by
  unfold rd; cases h : s.value l <;> simp [eq_comm]

theorem rdIs_true {s : State} {l : Loc} {v : Word} : rdIs s l v = .ok true ↔ s.value l = .known v := by
  unfold rdIs rd; cases h : s.value l <;> simp

theorem rdIs_false {s : State} {l : Loc} {v : Word} :
    rdIs s l v = .ok false ↔ s.value l ≠ .unknown ∧ s.value l ≠ .known v := by
  unfold rdIs rd; cases h : s.value l <;> simp

theorem rdIs_error {s : State} {l : Loc} {v : Word} {m : FaultMark} :
    rdIs s l v = .error m ↔ s.value l = .unknown ∧ m = .unknownRead l := by
  unfold rdIs rd; cases h : s.value l <;> simp [eq_comm]

/-- The search for a connected output buffer finds none exactly when every channel of the list is known to be disconnected. -/
theorem firstConnected_none {s : State} {cs : List Chan} :
    firstConnected s cs = .ok none ↔ ∀ c ∈ cs, Disconnected s c := by
  induction cs with
  | nil => simp [firstConnected]
  | cons c cs ih =>
    unfold firstConnected
    rcases hr : rdIs s (.chn c .outEn) 1#16 with m | b
    · obtain ⟨h, -⟩ := rdIs_error.mp hr
      simp [Disconnected, h]
    · cases b
      · have h := rdIs_false.mp hr
        simp only [ih, List.forall_mem_cons]
        exact ⟨fun g => ⟨h, g⟩, fun g => g.2⟩
      · have h := rdIs_true.mp hr
        simp [Disconnected, h]

/-- A channel the search finds is in the list and its output buffer is connected. -/
theorem firstConnected_some {s : State} {cs : List Chan} {d : Chan} (h : firstConnected s cs = .ok (some d)) :
    d ∈ cs ∧ s.value (.chn d .outEn) = .known 1#16 := by
  induction cs with
  | nil => simp [firstConnected] at h
  | cons c cs ih =>
    unfold firstConnected at h
    rcases hr : rdIs s (.chn c .outEn) 1#16 with m | b
    · rw [hr] at h
      cases h
    · cases b
      · rw [hr] at h
        have := ih h
        exact ⟨List.mem_cons_of_mem _ this.1, this.2⟩
      · rw [hr] at h
        cases h
        exact ⟨List.mem_cons_self, rdIs_true.mp hr⟩

/-- Where every channel of the list is known and one is connected, the search finds one. -/
theorem firstConnected_finds {s : State} {cs : List Chan}
    (hk : ∀ c ∈ cs, s.value (.chn c .outEn) ≠ .unknown) (hc : ∃ c ∈ cs, s.value (.chn c .outEn) = .known 1#16) :
    ∃ d, firstConnected s cs = .ok (some d) := by
  induction cs with
  | nil => simp at hc
  | cons c cs ih =>
    unfold firstConnected
    rcases hr : rdIs s (.chn c .outEn) 1#16 with m | b
    · exact absurd (rdIs_error.mp hr).1 (hk c List.mem_cons_self)
    · cases b
      · have h := rdIs_false.mp hr
        refine ih (fun d hd => hk d (List.mem_cons_of_mem _ hd)) ?_
        obtain ⟨d, hd, h1⟩ := hc
        rcases List.mem_cons.mp hd with rfl | hd
        · exact absurd h1 h.2
        · exact ⟨d, hd, h1⟩
      · exact ⟨c, rfl⟩

theorem mem_channels {cfg : Config} {c : Chan} : c ∈ cfg.channels ↔ c.val < cfg.nCh := by
  simp [Config.channels]

/-! ## The checks of a write (20_memory.md R63) -/

theorem checkReconfig_ok {s : State} {l : Loc} {v : Word} : checkReconfig s l v = .ok () ↔ ¬ InUse s l := by
  cases l with
  | sh f => cases f <;> simp [checkReconfig, InUse, fieldClass]
  | chn c f => cases f <;> simp [checkReconfig, InUse, fieldClass]
  | wg c f => simp [checkReconfig, InUse, fieldClass]

theorem checkReconfig_error {s : State} {l : Loc} {v : Word} {m : FaultMark} (h : checkReconfig s l v = .error m) :
    m = .liveReconfig l (s.value l) v ∧ InUse s l := by
  refine ⟨?_, ?_⟩
  · unfold checkReconfig at h
    split at h <;> (try split at h) <;> cases h <;> rfl
  · by_contra hn
    rw [checkReconfig_ok.mpr hn] at h
    cases h

theorem checkReconfig_inUse {s : State} {l : Loc} {v : Word} (h : InUse s l) :
    checkReconfig s l v = .error (.liveReconfig l (s.value l) v) := by
  rcases hc : checkReconfig s l v with m | u
  · rw [(checkReconfig_error hc).1]
  · exact absurd h (checkReconfig_ok.mp hc)

theorem checkEnable_ok {s : State} {l : Loc} {v : Word} : checkEnable s l v = .ok () ↔ EnableSafe s l v := by
  unfold checkEnable EnableSafe
  split
  · rename_i c
    by_cases hv : s.value (.chn c .chEn) = .known v
    · simp [hv]
    · rcases hr : rdIs s (.chn c .outEn) 1#16 with m | b
      · have := (rdIs_error.mp hr).1
        simp [hv, Disconnected, this]
      · cases b
        · have := rdIs_false.mp hr
          simp [hv, Disconnected, this.1, this.2]
        · have := rdIs_true.mp hr
          simp [hv, Disconnected, this]
  · by_cases hv : s.value (.sh .moduleEn) = .known v
    · simp [hv]
    · have hf := @firstConnected_none s s.cfg.channels
      simp only [mem_channels] at hf
      rcases hr : firstConnected s s.cfg.channels with m | o
      · rw [hr] at hf
        have hn : ¬ ∀ c : Chan, c.val < s.cfg.nCh → Disconnected s c := fun g => by simpa using hf.mpr g
        simp only [hv, if_false]
        constructor
        · intro h; cases h
        · intro h; exact absurd ((h (by simpa using hv)).2 trivial) hn
      · cases o with
        | none =>
          rw [hr] at hf
          have := hf.mp rfl
          simp [hv]
          exact this
        | some d =>
          rw [hr] at hf
          have hn : ¬ ∀ c : Chan, c.val < s.cfg.nCh → Disconnected s c := fun g => by simpa using hf.mpr g
          simp only [hv, if_false]
          constructor
          · intro h; cases h
          · intro h; exact absurd ((h (by simpa using hv)).2 trivial) hn
  · rename_i h1 h2
    refine ⟨fun _ _ => ⟨fun c hc => absurd hc (h1 c), fun hc => absurd hc h2⟩, fun _ => rfl⟩

theorem checkPin_ok {s : State} {l : Loc} {v : Word} : checkPin s l v = .ok () ↔ PinFree s l v := by
  unfold checkPin PinFree
  split
  · rename_i c
    by_cases hv : v = 1#16
    · have hf := @firstConnected_none s (s.cfg.channels.filter (fun c2 => c2 ≠ c))
      have hm : (∀ d ∈ s.cfg.channels.filter (fun c2 => c2 ≠ c), Disconnected s d) ↔
          ∀ d : Chan, d.val < s.cfg.nCh → d ≠ c → Disconnected s d := by
        simp [mem_channels]
      rw [hm] at hf
      rcases hr : firstConnected s (s.cfg.channels.filter (fun c2 => c2 ≠ c)) with m | o
      · rw [hr] at hf
        have hn : ¬ ∀ d : Chan, d.val < s.cfg.nCh → d ≠ c → Disconnected s d := fun g => by simpa using hf.mpr g
        simp only [hv, if_true]
        constructor
        · intro h; cases h
        · intro h; exact absurd (h trivial c rfl) hn
      · cases o with
        | none =>
          rw [hr] at hf
          have := hf.mp rfl
          simp only [hv, if_true]
          refine ⟨fun _ _ e he => ?_, fun _ => trivial⟩
          cases he; exact this
        | some d =>
          rw [hr] at hf
          have hn : ¬ ∀ d : Chan, d.val < s.cfg.nCh → d ≠ c → Disconnected s d := fun g => by simpa using hf.mpr g
          simp only [hv, if_true]
          constructor
          · intro h; cases h
          · intro h; exact absurd (h trivial c rfl) hn
    · simp [hv]
  · rename_i h1
    exact ⟨fun _ _ c hc => absurd hc (h1 c), fun _ => rfl⟩

/-- The checks before a write pass exactly when (a), (b) and (c) hold as conditions on the fields. -/
theorem checkWrite_ok {s : State} {l : Loc} {v : Word} :
    checkWrite s l v = .ok () ↔ ¬ InUse s l ∧ EnableSafe s l v ∧ PinFree s l v := by
  rw [← checkReconfig_ok (v := v), ← checkEnable_ok, ← checkPin_ok]
  unfold checkWrite
  rcases checkReconfig s l v with m | u
  · simp
  · rcases checkEnable s l v with m | u
    · simp
    · simp

/-! ## The live invariants (20_memory.md R64) -/

theorem shOk_true {s : State} : shOk s = .ok true ↔ SharedTimingOk s := by
  unfold shOk rd SharedTimingOk
  cases h1 : s.value (.sh .tmodTime) <;> cases h2 : s.value (.sh .ssTime) <;> simp

theorem shOk_false {s : State} :
    shOk s = .ok false ↔
      ∃ t u, s.value (.sh .tmodTime) = .known t ∧ s.value (.sh .ssTime) = .known u ∧ u.toNat ≤ t.toNat := by
  unfold shOk rd
  cases h1 : s.value (.sh .tmodTime) <;> cases h2 : s.value (.sh .ssTime) <;> simp

theorem andAlso_ok {a b : Except FaultMark Bool} {r : Bool} :
    andAlso a b = .ok r ↔ (a = .ok false ∧ r = false) ∨ (a = .ok true ∧ b = .ok r) := by
  unfold andAlso
  rcases a with m | x
  · simp
  · cases x <;> simp [eq_comm]

theorem wgOk_true {s : State} {c : Chan} : wgOk s c = .ok true ↔ WaveOk s c := by
  have h1 : wgOk s c = .ok true ↔
      andAlso (rdIs s (.wg c .hystModeEn) 1#16) (rdIs s (.wg c .slopeEn) 1#16) = .ok false ∧
      andAlso (rdIs s (.wg c .triModeEn) 1#16) (rdIs s (.wg c .slopeEn) 0#16) = .ok false := by
    unfold wgOk
    rcases andAlso (rdIs s (.wg c .hystModeEn) 1#16) (rdIs s (.wg c .slopeEn) 1#16) with m | b
    · simp
    · cases b
      · rcases andAlso (rdIs s (.wg c .triModeEn) 1#16) (rdIs s (.wg c .slopeEn) 0#16) with m | b
        · simp
        · cases b <;> simp
      · simp
  rw [h1, andAlso_ok, andAlso_ok, rdIs_false, rdIs_false, rdIs_true, rdIs_true, rdIs_false, rdIs_false]
  unfold WaveOk
  cases hh : s.value (.wg c .hystModeEn) with
  | unknown => simp
  | known h =>
    cases ht : s.value (.wg c .triModeEn) with
    | unknown => simp
    | known u => by_cases a : h = 1#16 <;> by_cases b : u = 1#16 <;> simp [a, b]

theorem checkChannels_ok {s : State} {cs : List Chan} :
    checkChannels s cs = .ok () ↔ ∀ c ∈ cs, s.value (.chn c .chEn) = .known 1#16 → WaveOk s c := by
  induction cs with
  | nil => simp [checkChannels]
  | cons c cs ih =>
    unfold checkChannels
    by_cases he : s.value (.chn c .chEn) = .known 1#16
    · have hw := @wgOk_true s c
      rcases hr : wgOk s c with m | b
      · rw [hr] at hw
        have : ¬ WaveOk s c := fun g => by simpa using hw.mpr g
        simp [he, this]
      · cases b
        · rw [hr] at hw
          have : ¬ WaveOk s c := fun g => by simpa using hw.mpr g
          simp [he, this]
        · rw [hr] at hw
          have := hw.mp rfl
          simp only [he, if_true, ih, List.forall_mem_cons, true_imp_iff]
          exact ⟨fun g => ⟨this, g⟩, fun g => g.2⟩
    · simp [he, ih]

theorem moduleOn_true {s : State} : moduleOn s = true ↔ s.value (.sh .moduleEn) = .known 1#16 := by simp [moduleOn]

theorem moduleOn_false {s : State} : moduleOn s = false ↔ s.value (.sh .moduleEn) ≠ .known 1#16 := by simp [moduleOn]

theorem live_true {s : State} {c : Chan} :
    live s c = true ↔ s.value (.sh .moduleEn) = .known 1#16 ∧ s.value (.chn c .chEn) = .known 1#16 := by simp [live, moduleOn]

/-- Each magnitude is read back from its code, because HYS_CODE is injective (10_state.md R29). -/
theorem hysOfField_hysCode {cfg : Config} (h : cfg.HysValid) (m : Hysteresis) :
    hysOfField cfg ((cfg.hysCode m).zeroExtend 16) = some m := by
  have key (a b : BitVec 2) : ((a.zeroExtend 16 : Word) == b.zeroExtend 16) = (a == b) := by revert a b; decide
  obtain ⟨⟨h1, h2, h3⟩, ⟨h4, h5⟩, h6⟩ : (cfg.hys.none ≠ cfg.hys.mv15 ∧ cfg.hys.none ≠ cfg.hys.mv30 ∧
      cfg.hys.none ≠ cfg.hys.mv45) ∧ (cfg.hys.mv15 ≠ cfg.hys.mv30 ∧ cfg.hys.mv15 ≠ cfg.hys.mv45) ∧
      cfg.hys.mv30 ≠ cfg.hys.mv45 := by simpa [Config.HysValid] using h
  cases m <;> simp [hysOfField, hysteresisAll, key, Config.hysCode, h1, h2, h3, h4, h5, h6]

/-- The magnitude of a channel depends on its `hys_sel` alone. -/
theorem hysteresis_known {s : State} {c : Chan} {v : Word} (h : s.value (.chn c .hysSel) = .known v) :
    hysteresis s c = hysOfField s.cfg v := by simp [hysteresis, h]

/-- The dead-band of a channel that is not live is inactive. -/
theorem liveDeadBand_off {s : State} {c : Chan} (h : live s c = false) : liveDeadBand s c = none := by
  simp [liveDeadBand, h]

/-- `check_live()` passes exactly when the live invariants hold. -/
theorem checkLive_ok {s : State} : checkLive s = .ok () ↔ LiveConfigOk s := by
  unfold checkLive LiveConfigOk
  by_cases hm : moduleOn s = true
  · have hs := @shOk_true s
    have hc := @checkChannels_ok s s.cfg.channels
    simp only [mem_channels] at hc
    have hl : ∀ c, live s c = true ↔ s.value (.chn c .chEn) = .known 1#16 := fun c => by
      rw [live_true]; simp [moduleOn_true.mp hm]
    simp only [hm, if_true, true_imp_iff, hl]
    rcases hr : shOk s with m | b
    · rw [hr] at hs
      have : ¬ SharedTimingOk s := fun g => by simpa using hs.mpr g
      simp [this]
    · cases b
      · rw [hr] at hs
        have : ¬ SharedTimingOk s := fun g => by simpa using hs.mpr g
        simp [this]
      · rw [hr] at hs
        have := hs.mp rfl
        simp only [this, true_and]
        exact hc
  · simp [hm]

/-- The live invariants of the written state are those of the state with the field replaced: the log event plays no part. -/
theorem liveConfigOk_performWrite {op : Op} {l : Loc} {v : Word} {s : State} :
    LiveConfigOk (performWrite op l v s) ↔ LiveConfigOk (s.setValue l (.known v)) := by
  have h : ∀ k, (performWrite op l v s).value k = (s.setValue l (.known v)).value k := fun k => by
    rw [performWrite_value, State.value_setValue]
  simp only [LiveConfigOk, SharedTimingOk, WaveOk, live, moduleOn, h, performWrite_cfg, State.setValue_cfg]

/-! ## Writing (20_memory.md R63) -/

/-- A write goes on exactly when it is allowed, and then to the state with the field replaced and the event logged. -/
theorem wr_going {op : Op} {l : Loc} {v : Word} {s t : State} :
    wr op l v s = .going t ↔ WriteAllowed s l v ∧ t = performWrite op l v s := by
  unfold wr WriteAllowed
  have h1 := @checkWrite_ok s l v
  have h2 := @checkLive_ok (performWrite op l v s)
  rw [liveConfigOk_performWrite] at h2
  rcases hw : checkWrite s l v with m | u
  · rw [hw] at h1
    have hn : ¬ (¬ InUse s l ∧ EnableSafe s l v ∧ PinFree s l v) := fun g => by simpa using h1.mpr g
    simp only [reduceCtorEq, false_iff]
    rintro ⟨⟨a, b, c, -⟩, -⟩
    exact hn ⟨a, b, c⟩
  · rw [hw] at h1
    obtain ⟨a, b, c⟩ := h1.mp rfl
    rcases hl : checkLive (performWrite op l v s) with m | u
    · rw [hl] at h2
      have hn : ¬ LiveConfigOk (s.setValue l (.known v)) := fun g => by simpa using h2.mpr g
      simp [hn]
    · rw [hl] at h2
      have := h2.mp rfl
      simp only [Progress.going.injEq]
      exact ⟨fun e => ⟨⟨a, b, c, this⟩, e.symm⟩, fun e => e.2.symm⟩

theorem wr_of_allowed {op : Op} {l : Loc} {v : Word} {s : State} (h : WriteAllowed s l v) :
    wr op l v s = .going (performWrite op l v s) := wr_going.mpr ⟨h, rfl⟩

/-- A write that stops has either failed a check and changed nothing, or failed `check_live()` after taking place. -/
theorem wr_stopped {op : Op} {l : Loc} {v : Word} {s t : State} (h : wr op l v s = .stopped t) :
    (∃ m, checkWrite s l v = .error m ∧ t = s.raise m) ∨
    (∃ m, checkWrite s l v = .ok () ∧ checkLive (performWrite op l v s) = .error m ∧
      t = (performWrite op l v s).raise m) := by
  unfold wr at h
  rcases hw : checkWrite s l v with m | u
  · rw [hw] at h
    cases h
    exact .inl ⟨m, rfl, rfl⟩
  · rw [hw] at h
    rcases hl : checkLive (performWrite op l v s) with m | u
    · rw [hl] at h
      cases h
      exact .inr ⟨m, rfl, rfl, rfl⟩
    · rw [hl] at h
      cases h

/-- Every state a write reaches: what a property needs to survive a write, taking place or not, with or without a fault. -/
theorem wr_preserves {op : Op} {l : Loc} {v : Word} {s : State} (P : State → Prop)
    (hw : checkWrite s l v = .ok () → P s → P (performWrite op l v s)) (hr : ∀ m u, P u → P (u.raise m)) (hs : P s) :
    P (wr op l v s).state := by
  rcases h : wr op l v s with t | t
  · obtain ⟨ha, rfl⟩ := wr_going.mp h
    exact hw (checkWrite_ok.mpr ⟨ha.1, ha.2.1, ha.2.2.1⟩) hs
  · rcases wr_stopped h with ⟨m, -, rfl⟩ | ⟨m, hc, -, rfl⟩
    · exact hr m _ hs
    · exact hr m _ (hw hc hs)

/-! ## A list of writes (00_scope.md R13) -/

@[simp] theorem wrAll_nil (op : Op) (s : State) : wrAll op [] s = .going s := rfl

theorem wrAll_cons (op : Op) (l : Loc) (v : Word) (ws : List (Loc × Word)) (s : State) :
    wrAll op ((l, v) :: ws) s = (wr op l v s).andThen (wrAll op ws) := rfl

@[simp] theorem Progress.andThen_going (s : State) (f : State → Progress) : (Progress.going s).andThen f = f s := rfl

@[simp] theorem Progress.andThen_stopped (s : State) (f : State → Progress) :
    (Progress.stopped s).andThen f = .stopped s := rfl

/-- A property that every write of the list and a fault keep holds of the state the list reaches, stopped or not. -/
theorem wrAll_preserves {op : Op} (P : State → Prop) {ws : List (Loc × Word)} {s : State}
    (hw : ∀ l v, (l, v) ∈ ws → ∀ u, checkWrite u l v = .ok () → P u → P (performWrite op l v u))
    (hr : ∀ m u, P u → P (u.raise m)) (hs : P s) : P (wrAll op ws s).state := by
  induction ws generalizing s with
  | nil => exact hs
  | cons w ws ih =>
    obtain ⟨l, v⟩ := w
    have h1 := wr_preserves (op := op) P (hw l v List.mem_cons_self s) hr hs
    rw [wrAll_cons]
    rcases h : wr op l v s with t | t
    · rw [h] at h1
      exact ih (fun l' v' hm => hw l' v' (List.mem_cons_of_mem _ hm)) h1
    · rw [h] at h1
      exact h1

/-- The states a list of writes passes through, each performed in turn. -/
def performAll (op : Op) : List (Loc × Word) → State → State
  | [], s => s
  | (l, v) :: ws, s => performAll op ws (performWrite op l v s)

/-- Each write of the list is allowed where its turn comes. -/
def AllAllowed (op : Op) : List (Loc × Word) → State → Prop
  | [], _ => True
  | (l, v) :: ws, s => WriteAllowed s l v ∧ AllAllowed op ws (performWrite op l v s)

/-- A list of writes goes on exactly when each write is allowed in its turn, and then to the state with all performed. -/
theorem wrAll_going {op : Op} {ws : List (Loc × Word)} {s t : State} :
    wrAll op ws s = .going t ↔ AllAllowed op ws s ∧ t = performAll op ws s := by
  induction ws generalizing s with
  | nil => simp [AllAllowed, performAll, eq_comm]
  | cons w ws ih =>
    obtain ⟨l, v⟩ := w
    rw [wrAll_cons]
    rcases h : wr op l v s with u | u
    · obtain ⟨ha, rfl⟩ := wr_going.mp h
      simp [AllAllowed, performAll, ih, ha]
    · have hn : ¬ WriteAllowed s l v := fun ha => by rw [wr_of_allowed ha] at h; cases h
      simp [AllAllowed, hn]

/-- What a list of performed writes leaves alone. -/
theorem performAll_frame (op : Op) (ws : List (Loc × Word)) (s : State) :
    (performAll op ws s).cfg = s.cfg ∧ (performAll op ws s).initialized = s.initialized ∧
    (performAll op ws s).fault = s.fault ∧ (performAll op ws s).refused = s.refused ∧
    (performAll op ws s).trace = s.trace ∧ (performAll op ws s).index = s.index ∧
    (performAll op ws s).returned = s.returned ∧ (performAll op ws s).draws = s.draws := by
  induction ws generalizing s with
  | nil => simp [performAll]
  | cons w ws ih => obtain ⟨l, v⟩ := w; simpa [performAll] using ih (performWrite op l v s)

/-- A field none of the writes names keeps its value. -/
theorem performAll_value_ne (op : Op) {ws : List (Loc × Word)} {k : Loc} (h : ∀ w ∈ ws, w.1 ≠ k) (s : State) :
    (performAll op ws s).value k = s.value k := by
  induction ws generalizing s with
  | nil => rfl
  | cons w ws ih =>
    obtain ⟨l, v⟩ := w
    have h1 : k ≠ l := fun e => h (l, v) List.mem_cons_self e.symm
    simp only [performAll]
    rw [ih (fun w hw => h w (List.mem_cons_of_mem _ hw)), performWrite_value_ne _ h1]

/-- The log grows by one event for each write, numbered from the log's length. -/
theorem performAll_log_length (op : Op) (ws : List (Loc × Word)) (s : State) :
    (performAll op ws s).log.length = s.log.length + ws.length := by
  induction ws generalizing s with
  | nil => rfl
  | cons w ws ih => obtain ⟨l, v⟩ := w; simp [performAll, ih]; omega

end Sys2Proof.Machine
end

