-- ==== Sys2Proof/Laws/Exec.lean ====
section
/-!
SUPPORT. What a command and a step can do, said once: every command answers a next state, the writes each command performs, and
the principle that what survives a write, a fault, a read-back and the end of a command survives the command.
-/

namespace Sys2Proof.Machine

/-- The writes a command performs where nothing stops it (10_state.md R42). -/
def commandWrites (cfg : Config) : Instr → List (Loc × Word)
  | .init => initWrites cfg
  | .setref imm => [(.chn cfg.ch .datHigh, BitVec.ofInt 16 (refCode cfg (appValue imm)))]
  | .setenOn => enableWrites cfg
  | .setenOff => disableWrites cfg
  | .fwr l v => [(l, v)]
  | .frd _ => []

@[simp] theorem Progress.finish_going (s : State) : (Progress.going s).finish = .next s.advance := rfl

@[simp] theorem Progress.finish_stopped (s : State) : (Progress.stopped s).finish = .next s := rfl

/-- Every command answers a next state: it completes, or it stops in the faulted state (60_exceptions.md R232). -/
theorem exec_next (i : Instr) (s : State) : ∃ t, exec i s = .next t := by
  have h : ∀ p : Progress, ∃ t, p.finish = .next t := fun p => by cases p <;> exact ⟨_, rfl⟩
  cases i with
  | init =>
    simp only [exec, execInit]
    split
    · exact h _
    · exact h _
  | setref imm => exact h _
  | setenOn => exact h _
  | setenOff => exact h _
  | fwr l v => exact h _
  | frd t =>
    simp only [exec, execFrd]
    split
    · exact h _
    · exact h _

/-- A list of one write is that write. -/
theorem wrAll_single (op : Op) (l : Loc) (v : Word) (s : State) : wrAll op [(l, v)] s = wr op l v s := by
  rw [wrAll_cons]
  cases wr op l v s <;> rfl

/-- A property that survives the end of a command survives `finish`. -/
theorem finish_preserves {p : Progress} {t : State} (P : State → Prop) (hf : p.finish = .next t) (hp : P p.state)
    (ha : ∀ u, P u → P u.advance) : P t := by
  cases p <;> cases hf
  · exact ha _ hp
  · exact hp

/-- What survives each of a command's writes, a fault, INIT's mark, a read-back and the end of the command survives the
command. -/
theorem exec_preserves {i : Instr} {s t : State} (P : State → Prop)
    (hw : ∀ l v, (l, v) ∈ commandWrites s.cfg i → ∀ u, checkWrite u l v = .ok () → P u → P (performWrite i.op l v u))
    (hr : ∀ m u, P u → P (u.raise m)) (ha : ∀ u, P u → P u.advance)
    (hm : i = .init → ∀ u, P u → P u.markInitialized)
    (hd : ∀ tgt x u, i = .frd tgt → rdTarget s tgt = .ok (x, u) → P s → P (u.recordRead .frd tgt x))
    (hs : P s) (he : exec i s = .next t) : P t := by
  have hall : P (wrAll i.op (commandWrites s.cfg i) s).state := wrAll_preserves P hw hr hs
  cases i with
  | init =>
    simp only [exec, execInit] at he
    split at he
    · exact finish_preserves P he (hr _ _ hs) ha
    · refine finish_preserves P he ?_ ha
      change P (wrAll .init (initWrites s.cfg) s).state at hall
      rcases h : wrAll .init (initWrites s.cfg) s with u | u
      · rw [h] at hall
        exact hm rfl _ hall
      · rw [h] at hall
        exact hall
  | setref imm =>
    refine finish_preserves P he ?_ ha
    unfold whenInitialized
    split
    · simp only
      split
      · exact hr _ _ hs
      · rw [← wrAll_single]
        exact hall
    · exact hr _ _ hs
  | setenOn =>
    refine finish_preserves P he ?_ ha
    unfold whenInitialized
    split
    · exact hall
    · exact hr _ _ hs
  | setenOff =>
    refine finish_preserves P he ?_ ha
    unfold whenInitialized
    split
    · exact hall
    · exact hr _ _ hs
  | fwr l v =>
    refine finish_preserves P he ?_ ha
    rw [← wrAll_single]
    exact hall
  | frd tgt =>
    simp only [exec, execFrd] at he
    split at he
    · exact finish_preserves P he (hr _ _ hs) ha
    · rename_i x u hx
      exact finish_preserves P he (hd _ _ _ rfl hx hs) ha

/-- A step runs only from a state with no mark, and either refuses the next word or runs the command it decodes to. -/
theorem step_cases {s t : State} (h : step s = .next t) :
    s.Running ∧ ∃ e, s.trace[s.index]? = some e ∧
      ((∃ r, decode s.cfg e.agent e.word = .error r ∧ t = s.refuse r) ∨
       (∃ i, decode s.cfg e.agent e.word = .ok i ∧ exec i s = .next t)) := by
  unfold step at h
  split at h
  · cases h
  · rename_i hf
    split at h
    · cases h
    · rename_i hr
      split at h
      · cases h
      · rename_i e he
        refine ⟨⟨hf, hr⟩, e, he, ?_⟩
        split at h
        · rename_i r hd
          cases h
          exact .inl ⟨r, hd, rfl⟩
        · rename_i i hd
          exact .inr ⟨i, hd, h⟩

/-- What a read-back's target and state can be: nothing but the draw counter changes (20_memory.md R66). -/
theorem rdTarget_ok {s u : State} {tgt : ReadTarget} {x : Word} (h : rdTarget s tgt = .ok (x, u)) :
    (∃ l, tgt = .field l ∧ s.value l = .known x ∧ u = s) ∨
    (∃ c, tgt = .cmpOut c ∧ x = (Config.cmpOutDraw s.draws c).zeroExtend 16 ∧ u = { s with draws := s.draws + 1 }) := by
  cases tgt with
  | field l =>
    simp only [rdTarget] at h
    split at h
    · cases h
    · rename_i v hv
      cases h
      exact .inl ⟨l, rfl, rd_ok.mp hv, rfl⟩
  | cmpOut c =>
    simp only [rdTarget] at h
    cases h
    exact .inr ⟨c, rfl, rfl, rfl⟩

end Sys2Proof.Machine
end

