-- ==== Sys2Proof/Laws/Commands.lean ====
section
/-!
SUPPORT. The commands over their writes: what each command is once its precondition holds, when the writes of the enable and
pin fields are allowed and where they stop, what a list of performed writes leaves in the fields and in the log, and how a
command may end.
-/

namespace Sys2Proof.Machine

/-! ## The commands, once initialized -/

theorem exec_fwr (l : Loc) (v : Word) (s : State) : exec (.fwr l v) s = (wr .fwr l v s).finish := rfl

theorem exec_setref_in {s : State} {imm : Word} (hi : s.initialized = true)
    (h : ¬ (refCode s.cfg imm.toInt < 0 ∨ refCode s.cfg imm.toInt > 4095)) :
    exec (.setref imm) s = (wr .setref (.chn s.cfg.ch .datHigh) (BitVec.ofInt 16 (refCode s.cfg imm.toInt)) s).finish := by
  change (whenInitialized _ s _).finish = _
  unfold whenInitialized
  rw [if_pos hi]
  exact congrArg Progress.finish (if_neg h)

theorem exec_setref_out {s : State} {imm : Word} (hi : s.initialized = true)
    (h : refCode s.cfg imm.toInt < 0 ∨ refCode s.cfg imm.toInt > 4095) :
    exec (.setref imm) s = .next (s.raise (.codeOutOfRange imm.toInt (refCode s.cfg imm.toInt))) := by
  change (whenInitialized _ s _).finish = _
  unfold whenInitialized
  rw [if_pos hi]
  exact congrArg Progress.finish (if_pos h)

theorem exec_setenOn {s : State} (h : s.initialized = true) :
    exec .setenOn s = (wrAll .setenOn (enableWrites s.cfg) s).finish := by
  simp [exec, execSetenOn, whenInitialized, h]

theorem exec_setenOff {s : State} (h : s.initialized = true) :
    exec .setenOff s = (wrAll .setenOff (disableWrites s.cfg) s).finish := by
  simp [exec, execSetenOff, whenInitialized, h]

/-! ## The fields after a read-back -/

theorem rdTarget_value {s u : State} {tgt : ReadTarget} {x : Word} (h : rdTarget s tgt = .ok (x, u)) (k : Loc) :
    u.value k = s.value k := by
  rcases rdTarget_ok h with ⟨l, -, -, rfl⟩ | ⟨c, -, -, rfl⟩
  · rfl
  · cases k <;> rfl

theorem rdTarget_frame {s u : State} {tgt : ReadTarget} {x : Word} (h : rdTarget s tgt = .ok (x, u)) :
    u.cfg = s.cfg ∧ u.log = s.log ∧ u.returned = s.returned ∧ u.trace = s.trace ∧ u.initialized = s.initialized ∧
      u.index = s.index ∧ u.fault = s.fault ∧ u.refused = s.refused := by
  rcases rdTarget_ok h with ⟨l, -, -, rfl⟩ | ⟨c, -, -, rfl⟩ <;> simp

/-! ## The live invariants and the fields they rest on -/

/-- The live invariants depend on the fields and the parameters alone. -/
theorem liveConfigOk_congr {s t : State} (hc : t.cfg = s.cfg) (h : ∀ k, t.value k = s.value k) :
    LiveConfigOk t ↔ LiveConfigOk s := by
  simp [LiveConfigOk, SharedTimingOk, WaveOk, live, moduleOn, h, hc]

/-- Turning enables off, and writing fields the live invariants do not read, keeps them. -/
theorem liveConfigOk_mono {s t : State} (hc : t.cfg = s.cfg) (hl : LiveConfigOk s)
    (hm : moduleOn t = true → moduleOn s = true)
    (he : ∀ f, f ≠ .moduleEn → t.value (.sh f) = s.value (.sh f)) (hw : ∀ c f, t.value (.wg c f) = s.value (.wg c f))
    (hch : ∀ c, t.value (.chn c .chEn) = .known 1#16 → s.value (.chn c .chEn) = .known 1#16) : LiveConfigOk t := by
  intro h
  obtain ⟨h1, h2⟩ := hl (hm h)
  refine ⟨by simpa [SharedTimingOk, he] using h1, fun c hcn hl => ?_⟩
  rw [hc] at hcn
  have : WaveOk s c := h2 c hcn (live_true.mpr ⟨moduleOn_true.mp (hm h), hch c (live_true.mp hl).2⟩)
  simpa [WaveOk, hw] using this

/-- With the module off no field is in use. -/
theorem not_inUse_of_off {s : State} {l : Loc} (h : moduleOn s = false) : ¬ InUse s l := by
  rintro (⟨_, h2⟩ | ⟨_, c, _, h2⟩)
  · rw [h] at h2; cases h2
  · simp [live, h] at h2

/-! ## Writes of the enable and pin fields (20_memory.md R63) -/

theorem writeAllowed_chEn {s : State} {c : Chan} {v : Word}
    (h : s.value (.chn c .chEn) = .known v ∨ Disconnected s c)
    (hl : LiveConfigOk (s.setValue (.chn c .chEn) (.known v))) : WriteAllowed s (.chn c .chEn) v := by
  refine ⟨?_, fun g => ⟨fun d hd => ?_, fun hd => by simp at hd⟩, fun _ d hd => by simp at hd, hl⟩
  · rintro (⟨h, _⟩ | ⟨h, _⟩) <;> simp [fieldClass] at h
  · cases hd; exact h.resolve_left g

theorem writeAllowed_moduleEn {s : State} {v : Word}
    (h : s.value (.sh .moduleEn) = .known v ∨ ∀ c : Chan, c.val < s.cfg.nCh → Disconnected s c)
    (hl : LiveConfigOk (s.setValue (.sh .moduleEn) (.known v))) : WriteAllowed s (.sh .moduleEn) v := by
  refine ⟨?_, fun g => ⟨fun d hd => by simp at hd, fun hd => h.resolve_left g⟩, fun _ d hd => by simp at hd, hl⟩
  · rintro (⟨h, _⟩ | ⟨h, _⟩) <;> simp [fieldClass] at h

theorem writeAllowed_outEn_off {s : State} {c : Chan} (hl : LiveConfigOk (s.setValue (.chn c .outEn) (.known 0#16))) :
    WriteAllowed s (.chn c .outEn) 0#16 := by
  refine ⟨?_, fun g => ⟨fun d hd => by simp at hd, fun hd => by simp at hd⟩, fun h => by simp at h, hl⟩
  · rintro (⟨h, _⟩ | ⟨h, _⟩) <;> simp [fieldClass] at h

/-- A change of a channel enable behind its connected output buffer stops with FC5. -/
theorem wr_chEn_stop {op : Op} {s : State} {c : Chan} {v : Word} (h1 : s.value (.chn c .chEn) ≠ .known v)
    (h2 : s.value (.chn c .outEn) = .known 1#16) :
    wr op (.chn c .chEn) v s =
      .stopped (s.raise (.outputGlitchHazard (.chn c .chEn) (s.value (.chn c .chEn)) v)) := by
  unfold wr checkWrite
  have : checkReconfig s (.chn c .chEn) v = .ok () := rfl
  simp only [this, checkEnable, h1, rdIs_true.mpr h2, if_false]

/-- A change of the module enable behind any connected output buffer stops with FC5. -/
theorem wr_moduleEn_stop {op : Op} {s : State} {v : Word} (h1 : s.value (.sh .moduleEn) ≠ .known v)
    (hk : ∀ c : Chan, c.val < s.cfg.nCh → s.Known (.chn c .outEn))
    (h2 : ∃ d : Chan, d.val < s.cfg.nCh ∧ s.value (.chn d .outEn) = .known 1#16) :
    wr op (.sh .moduleEn) v s =
      .stopped (s.raise (.outputGlitchHazard (.sh .moduleEn) (s.value (.sh .moduleEn)) v)) := by
  obtain ⟨d, hd, h2⟩ := h2
  obtain ⟨e, he⟩ := firstConnected_finds (s := s) (cs := s.cfg.channels) (fun c hc => hk c (mem_channels.mp hc))
    ⟨d, mem_channels.mpr hd, h2⟩
  unfold wr checkWrite
  have : checkReconfig s (.sh .moduleEn) v = .ok () := rfl
  simp only [this, checkEnable, h1, he, if_false]

/-- FWR of a write that passes the checks before it and fails the live check after it. -/
theorem exec_fwr_late {s : State} {l : Loc} {v : Word} {m : FaultMark} (h1 : ¬ InUse s l) (h2 : EnableSafe s l v)
    (h3 : PinFree s l v) (h4 : checkLive (performWrite .fwr l v s) = .error m) :
    exec (.fwr l v) s = .next ((performWrite .fwr l v s).raise m) := by
  rw [exec_fwr]
  unfold wr
  rw [checkWrite_ok.mpr ⟨h1, h2, h3⟩, h4]
  rfl

/-- The channels below a channel of the instance come before it in the live check. -/
theorem channels_split {cfg : Config} {c : Chan} (h : c.val < cfg.nCh) :
    ∃ lower upper, cfg.channels = lower ++ c :: upper ∧ ∀ d ∈ lower, d.val < c.val := by
  obtain ⟨lower, upper, e⟩ := List.append_of_mem (mem_channels.mpr h)
  refine ⟨lower, upper, e, fun d hd => ?_⟩
  have hs : cfg.channels.Pairwise (· < ·) := (List.pairwise_lt_finRange 16).filter _
  rw [e, List.pairwise_append] at hs
  exact hs.2.2 d hd c List.mem_cons_self

/-! ## A list of performed writes -/

theorem wrAll_append (op : Op) (a b : List (Loc × Word)) (s : State) :
    wrAll op (a ++ b) s = (wrAll op a s).andThen (wrAll op b) := by
  induction a generalizing s with
  | nil => rfl
  | cons w a ih =>
    obtain ⟨l, v⟩ := w
    rw [List.cons_append, wrAll_cons, wrAll_cons]
    cases wr op l v s with
    | going t => simp [ih]
    | stopped t => rfl

/-- The value the last write of a list gives the field `k`. -/
def lastWrite (k : Loc) (start : FieldVal) : List (Loc × Word) → FieldVal
  | [] => start
  | (l, v) :: ws => if l = k then lastWrite k (.known v) ws else lastWrite k start ws

theorem performAll_value (op : Op) (ws : List (Loc × Word)) (s : State) (k : Loc) :
    (performAll op ws s).value k = lastWrite k (s.value k) ws := by
  induction ws generalizing s with
  | nil => rfl
  | cons w ws ih =>
    obtain ⟨l, v⟩ := w
    simp only [performAll, lastWrite]
    rw [ih, performWrite_value]
    by_cases h : k = l
    · subst h; simp
    · have h' : ¬ l = k := fun e => h e.symm
      simp [h, h']

/-- Only the writes of the field count. -/
theorem lastWrite_filter (k : Loc) (start : FieldVal) (ws : List (Loc × Word)) :
    lastWrite k start ws = lastWrite k start (ws.filter (fun w => w.1 = k)) := by
  induction ws generalizing start with
  | nil => rfl
  | cons w ws ih =>
    obtain ⟨l, v⟩ := w
    by_cases h : l = k
    · simp [lastWrite, h, ih]
    · simp [lastWrite, h, ih]

/-- The events a list of performed writes logs. -/
def writeEvents (op : Op) : List (Loc × Word) → State → List Event
  | [], _ => []
  | (l, v) :: ws, s => writeEvent op l v s :: writeEvents op ws (performWrite op l v s)

theorem performAll_log (op : Op) (ws : List (Loc × Word)) (s : State) :
    (performAll op ws s).log = s.log ++ writeEvents op ws s := by
  induction ws generalizing s with
  | nil => simp [performAll, writeEvents]
  | cons w ws ih => obtain ⟨l, v⟩ := w; simp [performAll, writeEvents, ih]

theorem writeEvents_length (op : Op) (ws : List (Loc × Word)) (s : State) :
    (writeEvents op ws s).length = ws.length := by
  induction ws generalizing s with
  | nil => rfl
  | cons w ws ih => obtain ⟨l, v⟩ := w; simp [writeEvents, ih]

/-- Where a list of writes ends, its log holds the events of an initial part of the list. -/
theorem wrAll_log (op : Op) (ws : List (Loc × Word)) (s : State) :
    ∃ done rest, ws = done ++ rest ∧ (wrAll op ws s).state.log = s.log ++ writeEvents op done s := by
  induction ws generalizing s with
  | nil => exact ⟨[], [], rfl, by simp [Progress.state, writeEvents]⟩
  | cons w ws ih =>
    obtain ⟨l, v⟩ := w
    rw [wrAll_cons]
    rcases h : wr op l v s with t | t
    · obtain ⟨-, rfl⟩ := wr_going.mp h
      obtain ⟨done, rest, rfl, he⟩ := ih (performWrite op l v s)
      refine ⟨(l, v) :: done, rest, rfl, ?_⟩
      simp [he, writeEvents]
    · rcases wr_stopped h with ⟨m, -, rfl⟩ | ⟨m, -, -, rfl⟩
      · exact ⟨[], (l, v) :: ws, rfl, by simp [Progress.state, writeEvents]⟩
      · exact ⟨[(l, v)], ws, rfl, by simp [Progress.state, writeEvents]⟩

/-- A list of writes that stops has recorded a fault; the refusal mark and the index are as they were. -/
theorem wrAll_stopped {op : Op} {ws : List (Loc × Word)} {s u : State} (h : wrAll op ws s = .stopped u) :
    u.fault ≠ none ∧ u.refused = s.refused ∧ u.index = s.index := by
  induction ws generalizing s with
  | nil => cases h
  | cons w ws ih =>
    obtain ⟨l, v⟩ := w
    rw [wrAll_cons] at h
    rcases hw : wr op l v s with t | t
    · rw [hw] at h
      obtain ⟨-, rfl⟩ := wr_going.mp hw
      simpa using ih h
    · rw [hw] at h
      cases h
      rcases wr_stopped hw with ⟨m, -, rfl⟩ | ⟨m, -, -, rfl⟩ <;> simp

/-- A list of writes that goes on ends with the live invariants holding, if they held before it. -/
theorem wrAll_live {op : Op} {ws : List (Loc × Word)} {s u : State} (hs : LiveConfigOk s)
    (h : wrAll op ws s = .going u) : LiveConfigOk u := by
  induction ws generalizing s with
  | nil => cases h; exact hs
  | cons w ws ih =>
    obtain ⟨l, v⟩ := w
    rw [wrAll_cons] at h
    rcases hw : wr op l v s with x | x
    · rw [hw] at h
      obtain ⟨ha, rfl⟩ := wr_going.mp hw
      exact ih (liveConfigOk_performWrite.mpr ha.2.2.2) h
    · rw [hw] at h; cases h

/-! ## The state as its fields -/

/-- Two states with the same field values hold the same registers. -/
theorem registers_ext {s t : State} (h : ∀ l, s.value l = t.value l) : s.sh = t.sh ∧ s.chn = t.chn ∧ s.wg = t.wg := by
  refine ⟨?_, ?_, ?_⟩
  · have this := fun f => h (.sh f)
    simp only [State.value] at this
    have a1 := this .clkSel; have a2 := this .clkDiv; have a3 := this .fclkDiv; have a4 := this .idleCtl
    have a5 := this .moduleEn; have a6 := this .tmodTime; have a7 := this .ssTime
    cases hs : s.sh; cases ht : t.sh
    simp only [hs, ht, Shared.get] at *
    simp [*]
  · apply Vector.ext
    intro i hi
    have this := fun f => h (.chn ⟨i, hi⟩ f)
    simp only [State.value] at this
    have a1 := this .chEn; have a2 := this .irqMode; have a3 := this .blankEn; have a4 := this .outEn
    have a5 := this .filtEn; have a6 := this .polarity; have a7 := this .inSel; have a8 := this .hysPol
    have a9 := this .hysSel; have a10 := this .blankTime; have a11 := this .datLow; have a12 := this .datHigh
    simp only [Fin.getElem_fin] at *
    cases hs : s.chn[i]; cases ht : t.chn[i]
    simp only [hs, ht, ChannelRegs.get] at *
    simp [*]
  · apply Vector.ext
    intro i hi
    have this := fun f => h (.wg ⟨i, hi⟩ f)
    simp only [State.value] at this
    have a1 := this .hcFsel; have a2 := this .startSel; have a3 := fun j => this (.stopSel j)
    have a4 := this .slopeEn; have a5 := this .hystModeEn; have a6 := this .triModeEn; have a7 := this .slopePol
    have a8 := this .slopeRate
    simp only [Fin.getElem_fin] at *
    cases hs : s.wg[i]; cases ht : t.wg[i]
    simp only [hs, ht, WaveRegs.get] at *
    simp [a1, a2, a4, a5, a6, a7, a8]
    apply Vector.ext
    intro j hj
    simpa using a3 ⟨j, hj⟩

end Sys2Proof.Machine
end

