-- ==== Sys2Proof/Laws/Decode.lean ====
section
/-!
SUPPORT. The fields of an encoded word, and what the decoder's parts answer.
-/

namespace Sys2Proof

/-- A row's identifier names that row and no other. -/
theorem FieldName.find_fid (n : FieldName) : FieldName.rows.find? (fun m => m.fid == n.fid) = some n := by
  cases n with
  | sh f => cases f <;> decide
  | chn f => cases f <;> decide
  | cmpOut => decide
  | wg f =>
    cases f with
    | stopSel j => revert j; decide
    | _ => decide

theorem FieldName.ofFid_fid (cfg : Config) (n : FieldName) :
    FieldName.ofFid cfg n.fid = if n.inTable cfg then some n else none := by
  unfold FieldName.ofFid
  rw [FieldName.find_fid]
  simp [Option.filter]

/-- An identifier's row is in the instance's table and has that identifier. -/
theorem FieldName.ofFid_some {cfg : Config} {fid : BitVec 8} {n : FieldName} (h : FieldName.ofFid cfg fid = some n) :
    n.fid = fid ∧ n.inTable cfg = true := by
  unfold FieldName.ofFid at h
  rw [Option.filter_eq_some_iff] at h
  exact ⟨by simpa using List.find?_some h.1, h.2⟩

@[simp] theorem FieldName.name_at (c : Chan) (n : FieldName) : (n.at c).name = n := by cases n <;> rfl

theorem ReadTarget.at_name (t : ReadTarget) : t.name.at t.chan = t := by
  cases t with
  | field l => cases l <;> rfl
  | cmpOut c => rfl

theorem ReadTarget.inRange_iff (cfg : Config) (t : ReadTarget) :
    t.inRange cfg = true ↔ t.name.inTable cfg = true ∧ t.name.chanLegal cfg t.chan = true := by
  cases t with
  | field l =>
    cases l with
    | sh f => exact ⟨fun _ => ⟨rfl, rfl⟩, fun _ => rfl⟩
    | chn c f => exact ⟨fun h => ⟨rfl, h⟩, fun h => h.2⟩
    | wg c f =>
      change (decide (c.val < cfg.nCh) && f.inRange cfg) = true ↔ f.inRange cfg = true ∧ decide (c.val < cfg.nCh) = true
      rw [Bool.and_eq_true, and_comm]
  | cmpOut c => exact ⟨fun h => ⟨rfl, h⟩, fun h => h.2⟩

/-! ## The fields of an encoded word -/

/-- A channel index has no bit above its four. -/
theorem chan_testBit (c : Chan) {i : Nat} (hi : 4 ≤ i) : c.val.testBit i = false :=
  Nat.testBit_lt_two_pow (lt_of_lt_of_le c.isLt (Nat.pow_le_pow_right (n := 2) (by omega) hi))

@[simp] theorem opField_fieldWord (op : BitVec 4) (t : ReadTarget) (v : Word) : opField (fieldWord op t v) = op := by
  unfold opField fieldWord
  apply BitVec.eq_of_getLsbD_eq
  intro i hi
  have h1 : t.name.fid.getLsbD (28 + i - 20) = false := BitVec.getLsbD_of_ge _ _ (by omega)
  have h2 : t.chan.val.testBit (28 + i - 16) = false := chan_testBit _ (by omega)
  have h3 : v.getLsbD (28 + i) = false := BitVec.getLsbD_of_ge _ _ (by omega)
  have h5 : 28 + i < 32 := by omega
  simp [hi, h1, h2, h3, h5]

@[simp] theorem fidField_fieldWord (op : BitVec 4) (t : ReadTarget) (v : Word) :
    fidField (fieldWord op t v) = t.name.fid := by
  unfold fidField fieldWord
  apply BitVec.eq_of_getLsbD_eq
  intro i hi
  have h1 : 20 + i < 28 := by omega
  have h2 : t.chan.val.testBit (20 + i - 16) = false := chan_testBit _ (by omega)
  have h3 : v.getLsbD (20 + i) = false := BitVec.getLsbD_of_ge _ _ (by omega)
  have h5 : 20 + i < 32 := by omega
  simp [hi, h1, h2, h3, h5]

@[simp] theorem chanField_fieldWord (op : BitVec 4) (t : ReadTarget) (v : Word) :
    chanField (fieldWord op t v) = t.chan := by
  have h : (fieldWord op t v).extractLsb' 16 4 = BitVec.ofFin (w := 4) t.chan := by
    unfold fieldWord
    apply BitVec.eq_of_getLsbD_eq
    intro i hi
    have h1 : 16 + i < 28 := by omega
    have h2 : 16 + i < 20 := by omega
    have h5 : 16 + i < 32 := by omega
    simp [hi, h1, h2, h5]
  unfold chanField
  rw [h]

@[simp] theorem lowField_fieldWord (op : BitVec 4) (t : ReadTarget) (v : Word) : lowField (fieldWord op t v) = v := by
  unfold lowField fieldWord
  apply BitVec.eq_of_getLsbD_eq
  intro i hi
  have h1 : i < 28 := by omega
  have h2 : i < 20 := by omega
  have h5 : i < 32 := by omega
  simp [hi, h1, h2, h5]

/-- A word is made of its four fields. -/
theorem word_fields (w : Cmd) :
    w = (opField w).zeroExtend 32 <<< 28 ||| (fidField w).zeroExtend 32 <<< 20 |||
      (BitVec.ofFin (w := 4) (chanField w)).zeroExtend 32 <<< 16 ||| (lowField w).zeroExtend 32 := by
  have hc : (BitVec.ofFin (w := 4) (chanField w)) = w.extractLsb' 16 4 := rfl
  rw [hc]
  unfold opField fidField lowField
  apply BitVec.eq_of_getLsbD_eq
  intro i hi
  simp only [BitVec.getLsbD_or, BitVec.getLsbD_shiftLeft, BitVec.getLsbD_setWidth, BitVec.truncate_eq_setWidth,
    BitVec.getLsbD_extractLsb', hi, decide_true, Bool.true_and]
  by_cases h1 : i < 16
  · have h2 : i < 20 := by omega
    have h3 : i < 28 := by omega
    simp [h1, h2, h3]
  · by_cases h2 : i < 20
    · have h3 : i < 28 := by omega
      have h4 : i - 16 < 4 := by omega
      have h5 : 16 + (i - 16) = i := by omega
      have h6 : i - 16 < 32 := by omega
      simp [h1, h2, h3, h4, h5, h6]
    · by_cases h3 : i < 28
      · have h4 : ¬ i - 16 < 4 := by omega
        have h5 : 20 + (i - 20) = i := by omega
        have h6 : i - 20 < 32 := by omega
        have h7 : i - 20 < 8 := by omega
        simp [h1, h2, h3, h4, h5, h6, h7]
      · have h4 : ¬ i - 16 < 4 := by omega
        have h5 : 28 + (i - 28) = i := by omega
        have h6 : i - 28 < 32 := by omega
        have h7 : ¬ i - 20 < 8 := by omega
        have h8 : i - 28 < 4 := by omega
        simp [h1, h2, h3, h4, h5, h6, h7, h8]

/-! ## What the decoder can answer (30_encoding.md R94) -/

/-- The field and channel checks give what the word's identifier and channel name, in the instance's table. -/
theorem decodeTarget_ok {cfg : Config} {w : Cmd} {t : ReadTarget} (h : decodeTarget cfg w = .ok t) :
    t.name.fid = fidField w ∧ t.inRange cfg = true ∧ t = t.name.at (chanField w) ∧
      t.name.chanLegal cfg (chanField w) = true := by
  unfold decodeTarget at h
  split at h
  · cases h
  · rename_i n hn
    obtain ⟨hf, ht⟩ := FieldName.ofFid_some hn
    split at h
    · rename_i hc
      cases h
      rw [FieldName.name_at]
      refine ⟨hf, ?_, rfl, hc⟩
      rw [ReadTarget.inRange_iff, FieldName.name_at]
      refine ⟨ht, ?_⟩
      cases n with
      | sh f => rfl
      | _ => exact hc
    · cases h

/-- A decoded command, by the word's op: its agent, and what its branch of the decoder checked. -/
theorem decode_cases {cfg : Config} {a : Agent} {w : Cmd} {i : Instr} (h : decode cfg a w = .ok i) :
    (opField w = 1#4 ∧ a = .ctl ∧ w.extractLsb' 0 28 = 0#28 ∧ i = .init) ∨
    (opField w = 2#4 ∧ a = .ctl ∧ w.extractLsb' 16 12 = 0#12 ∧ i = .setref (lowField w)) ∨
    (opField w = 3#4 ∧ a = .ctl ∧ w.extractLsb' 1 27 = 0#27 ∧
      i = if w.extractLsb' 0 1 = 1#1 then .setenOn else .setenOff) ∨
    (opField w = 4#4 ∧ a = .col ∧ ∃ l, decodeTarget cfg w = .ok (.field l) ∧ Fits (cfg.width l) (lowField w) ∧
      i = .fwr l (lowField w)) ∨
    (opField w = 5#4 ∧ a = .col ∧ lowField w = 0#16 ∧ ∃ t, decodeTarget cfg w = .ok t ∧ i = .frd t) := by
  unfold decode at h
  split at h
  · cases h
  · rename_i owner ho
    unfold agentOfOp at ho
    split at h
    · rename_i ha
      subst ha
      unfold decodeBody at h
      by_cases h1 : opField w = 1#4
      · rw [if_pos h1] at h
        rw [if_pos (.inl h1)] at ho
        unfold decodeInit at h
        split at h
        · rename_i hz
          cases h; cases ho
          exact .inl ⟨h1, rfl, hz, rfl⟩
        · cases h
      · rw [if_neg h1] at h
        by_cases h2 : opField w = 2#4
        · rw [if_pos h2] at h
          rw [if_pos (.inr (.inl h2))] at ho
          unfold decodeSetref at h
          split at h
          · rename_i hz
            cases h; cases ho
            exact .inr (.inl ⟨h2, rfl, hz, rfl⟩)
          · cases h
        · rw [if_neg h2] at h
          by_cases h3 : opField w = 3#4
          · rw [if_pos h3] at h
            rw [if_pos (.inr (.inr h3))] at ho
            unfold decodeSeten at h
            split at h
            · rename_i hz
              cases h; cases ho
              exact .inr (.inr (.inl ⟨h3, rfl, hz, rfl⟩))
            · cases h
          · rw [if_neg h3] at h
            rw [if_neg (by simp [h1, h2, h3])] at ho
            by_cases h4 : opField w = 4#4
            · rw [if_pos h4] at h
              rw [if_pos (.inl h4)] at ho
              cases ho
              unfold decodeFwr at h
              split at h
              · cases h
              · cases h
              · rename_i l hl
                split at h
                · rename_i hv
                  cases h
                  exact .inr (.inr (.inr (.inl ⟨h4, rfl, l, hl, hv, rfl⟩)))
                · cases h
            · rw [if_neg h4] at h
              by_cases h5 : opField w = 5#4
              · rw [if_pos (.inr h5)] at ho
                cases ho
                unfold decodeFrd at h
                split at h
                · rename_i hz
                  split at h
                  · cases h
                  · rename_i t ht
                    cases h
                    exact .inr (.inr (.inr (.inr ⟨h5, rfl, hz, t, ht, rfl⟩)))
                · cases h
              · rw [if_neg (by simp [h4, h5])] at ho
                cases ho
    · cases h

/-- Where the agent is the op's own, the decoder goes on to the op's checks. -/
theorem decode_owner {cfg : Config} {a : Agent} {w : Cmd} (h : agentOfOp (opField w) = some a) :
    decode cfg a w = decodeBody cfg w := by
  unfold decode
  rw [h]
  simp

end Sys2Proof
end

