-- ==== Sys2Proof/Laws/PerInstr.lean ====
section
/-!
SUPPORT. The family AgentOwnsOpcode: the word of every command has an op that the command's own agent may issue
(00_scope.md R15, 30_encoding.md R85).
-/

namespace Sys2Proof.Laws.AgentOwnsOpcode

/-- The op of the command's word belongs to the command's agent. -/
def Statement (i : Instr) : Prop := agentOfOp (opField (encode i)) = some i.agent

theorem init : Statement .init := by unfold Statement; decide

theorem setref (imm : Word) : Statement (.setref imm) := by
  have h : opField (encode (.setref imm)) = 2#4 := by
    unfold opField encode
    apply BitVec.eq_of_getLsbD_eq
    intro k hk
    have : k = 0 ∨ k = 1 ∨ k = 2 ∨ k = 3 := by omega
    rcases this with rfl | rfl | rfl | rfl <;> simp
  unfold Statement
  rw [h]
  rfl

theorem setenOn : Statement .setenOn := by unfold Statement; decide

theorem setenOff : Statement .setenOff := by unfold Statement; decide

theorem fwr (l : Loc) (v : Word) : Statement (.fwr l v) := by
  unfold Statement encode
  rw [opField_fieldWord]
  rfl

theorem frd (t : ReadTarget) : Statement (.frd t) := by
  unfold Statement encode
  rw [opField_fieldWord]
  rfl

end Sys2Proof.Laws.AgentOwnsOpcode
end

