-- ==== Sys2Proof/Tests/Slice0.lean ====
section
/-!
SUPPORT. Tests. Expected results are taken from 95_test_vectors.md, which works them out from the spec's rules, and from the
encodings of 30_encoding.md. The second half holds, for each statement with hypotheses, states and operands that meet them.
-/

namespace Sys2Proof.Tests

open Sys2Proof.Machine

/-! ## Helpers -/

/-- The instance of 95_test_vectors.md section 0. -/
abbrev cfg : Config := Config.vectors

/-- The state after reset with one command loaded. -/
def loaded (a : Agent) (w : Cmd) : State := State.boot cfg [⟨a, w⟩]

/-- The state with the fields of the list at the values of the list. -/
def withFields : List (Loc × Word) → State → State
  | [], s => s
  | (l, v) :: ws, s => withFields ws (s.setValue l (.known v))

/-- Initialized, in the state Disabled, with the fields known that the checks read. -/
def ready : State :=
  { withFields
      [(.sh .tmodTime, 0x055#16), (.sh .ssTime, 0x08A#16), (.chn 0 .datLow, 0#16), (.chn 0 .datHigh, 2048#16),
       (.wg 0 .slopeEn, 0#16), (.wg 0 .hystModeEn, 0#16), (.wg 0 .triModeEn, 0#16)]
      (State.boot cfg []) with initialized := true }

/-- In the state Enabled. -/
def enabled : State := withFields [(.chn 0 .chEn, 1#16), (.sh .moduleEn, 1#16)] ready

/-- Enabled, with the output buffer of channel CH connected. -/
def driving : State := withFields [(.chn 0 .outEn, 1#16)] enabled

/-- The command ended in a next state with no mark. -/
def completes : Host.Outcome State Fault Refusal → Bool
  | .next t => decide (t.fault = none ∧ t.refused = none)
  | .fault _ => false
  | .refused _ => false

theorem completes_next {o : Host.Outcome State Fault Refusal} (h : completes o = true) :
    ∃ t, o = .next t ∧ t.fault = none ∧ t.refused = none := by
  cases o with
  | next t => exact ⟨t, rfl, by simpa [completes] using h⟩
  | fault f => simp [completes] at h
  | refused r => simp [completes] at h

/-- What a next state shows: the fields asked for, the length of the log, the fault and the index. -/
structure Shown where
  fields : List FieldVal
  logged : Nat
  fault : Option FaultMark
  index : Nat
deriving DecidableEq, Repr

def shown (ls : List Loc) : Host.Outcome State Fault Refusal → Option Shown
  | .next t => some ⟨ls.map t.value, t.log.length, t.fault, t.index⟩
  | .fault _ => none
  | .refused _ => none

/-- The last `k` events of the next state's log. -/
def lastEvents (k : Nat) : Host.Outcome State Fault Refusal → List Event
  | .next t => t.log.drop (t.log.length - k)
  | .fault _ => []
  | .refused _ => []

/-! ## WellFormed: an ill-formed term for each check -/

/-- A channel at N_CH (R90). -/
theorem test_illformed_channel : (Instr.fwr (.chn 3 .chEn) 0#16).wellFormed cfg = false := by decide
/-- A generator's channel at N_CH (R90). -/
theorem test_illformed_generator : (Instr.fwr (.wg 3 .slopeEn) 0#16).wellFormed cfg = false := by decide
/-- A stop source at N_STOP (R89). -/
theorem test_illformed_stop : (Instr.frd (.field (.wg 0 (.stopSel 2)))).wellFormed cfg = false := by decide
/-- A value one above the field's largest (R91). -/
theorem test_illformed_value : (Instr.fwr (.chn 0 .hysSel) 4#16).wellFormed cfg = false := by decide
/-- A comparator output of a channel at N_CH (R90). -/
theorem test_illformed_cmpOut : (Instr.frd (.cmpOut 3)).wellFormed cfg = false := by decide
/-- The largest operands that exist. -/
theorem test_wellformed : (Instr.fwr (.wg 2 (.stopSel 1)) 15#16).wellFormed cfg = true := by decide

/-! ## The parameters -/

/-- 95_test_vectors.md section 0 meets every constraint of the spec. -/
theorem test_vectors_valid : cfg.Valid := by decide

/-! ## Decoding (95_test_vectors.md section 6; words written out from R86 to R93) -/

theorem test_decode_init : decode cfg .ctl 0b00010000000000000000000000000000#32 = .ok .init := by decide
theorem test_decode_setref : decode cfg .ctl 0b00100000000000001000000000000001#32 = .ok (.setref 0x8001#16) := by decide
theorem test_decode_setenOn : decode cfg .ctl 0b00110000000000000000000000000001#32 = .ok .setenOn := by decide
theorem test_decode_setenOff : decode cfg .ctl 0b00110000000000000000000000000000#32 = .ok .setenOff := by decide
/-- op 4, fid 0x1B, chan 0, val 4095. -/
theorem test_decode_fwr :
    decode cfg .col 0b01000001101100000000111111111111#32 = .ok (.fwr (.chn 0 .datHigh) 4095#16) := by decide
/-- op 5, fid 0x23, chan 2, low half 0. -/
theorem test_decode_frd :
    decode cfg .col 0b01010010001100100000000000000000#32 = .ok (.frd (.field (.wg 2 (.stopSel 1)))) := by decide

theorem test_decode_reserved_op :
    ([0x00000000#32, 0x60000000#32, 0xF0000000#32].map (decode cfg .ctl)).all (· == .error .reservedOpcode) = true := by
  decide
theorem test_decode_agent :
    decode cfg .col 0x10000000#32 = .error .wrongAgent ∧ decode cfg .ctl 0x40000001#32 = .error .wrongAgent := by decide
theorem test_decode_nonzero :
    ([0x10000001#32, 0x1FFFFFFF#32, 0x20010000#32, 0x30000002#32, 0x30000003#32].map (decode cfg .ctl)).all
      (· == .error .nonZeroReserved) = true := by decide
/-- The value check of FRD comes before its channel check. -/
theorem test_decode_frd_order : decode cfg .col 0x51F30001#32 = .error .nonZeroReserved := by decide
theorem test_decode_fid :
    ([0x40700000#32, 0x41C00000#32, 0x42400000#32, 0x42F00000#32, 0x4F000000#32].map (decode cfg .col)).all
      (· == .error .badField) = true := by decide
theorem test_decode_channel :
    ([0x40010000#32, 0x41030000#32, 0x412F0000#32].map (decode cfg .col)).all (· == .error .badChannel) = true := by decide
theorem test_decode_readonly : decode cfg .col 0x41F00000#32 = .error .readOnlyField := by decide
theorem test_decode_wide :
    ([0x41800004#32, 0x41B01000#32, 0x40500400#32].map (decode cfg .col)).all (· == .error .valueTooWide) = true := by
  decide

/-- P1 and P2 of 95_test_vectors.md as text, with a comment, an empty line, a pseudo-command and both forms of immediate. -/
theorem test_assemble :
    assemble ["ctl: INIT ; start".toList, "".toList, "SETREF -1".toList, "SETREF 0xC000".toList, "SETEN 1".toList,
        "FWR WG.stop_sel1, 0, 0x3".toList, "PINON 1".toList, "col: FRD CHN.cmp_out,0".toList] =
      some [⟨.ctl, 0x10000000#32⟩, ⟨.ctl, 0x2000FFFF#32⟩, ⟨.ctl, 0x2000C000#32⟩, ⟨.ctl, 0x30000001#32⟩,
        ⟨.col, 0x42300003#32⟩, ⟨.col, 0x41310001#32⟩, ⟨.col, 0x51F00000#32⟩] := by decide
/-- Out of range, an unknown field, a missing operand. -/
theorem test_assemble_rejects :
    (["SETREF 32768".toList, "FRD SH.module, 0".toList, "FWR SH.module_en, 0".toList].map assembleLine).all
      (· == none) = true := by decide

/-! ## The host's entry points -/

theorem test_decodeTableWord : decodeTableWord 32 0x10000000 = some .init := by decide
theorem test_withFetchWord : completes (step (State.reset.withFetchWord 32 0x10000000)) = true := by decide

/-! ## One step of each command -/

/-- Vector I1: 29 events, and the read-back values of 95_test_vectors.md section 3. -/
theorem test_init :
    shown [.sh .moduleEn, .chn 0 .filtEn, .chn 0 .hysSel, .wg 0 .slopeRate, .sh .ssTime, .chn 1 .datLow]
      (step (loaded .ctl 0x10000000#32)) =
    some ⟨[.known 0#16, .known 1#16, .known 3#16, .known 0#16, .known 0x08A#16, .unknown], 29, none, 1⟩ := by decide

/-- A second INIT: FC2. -/
theorem test_init_again : shown [] (exec .init ready) = some ⟨[], 0, some (.reInit 0x10000000#32), 0⟩ := by decide

/-- `SETREF 8192` writes 2560 (41_reference.md R142). -/
theorem test_setref :
    shown [.chn 0 .datHigh, .chn 0 .datLow] (exec (.setref 8192#16) ready) =
    some ⟨[.known 2560#16, .known 0#16], 1, none, 1⟩ := by decide

/-- The tie v = -16384 rounds toward +infinity: 1025 (41_reference.md R141). -/
theorem test_setref_tie :
    shown [.chn 0 .datHigh] (exec (.setref 0xC000#16) driving) = some ⟨[.known 1025#16], 1, none, 1⟩ := by decide

/-- Vector E1. -/
theorem test_setenOn :
    lastEvents 2 (exec .setenOn ready) =
    [⟨0, .ctl, .setenOn, .wrote (.chn 0 .chEn) (.known 0#16) (.known 1#16)⟩,
     ⟨1, .ctl, .setenOn, .wrote (.sh .moduleEn) (.known 0#16) (.known 1#16)⟩] := by decide

/-- Vector E4: FC5 at E1. -/
theorem test_setenOn_glitch :
    shown [.chn 0 .chEn, .sh .moduleEn] (exec .setenOn (withFields [(.chn 0 .outEn, 1#16)] ready)) =
    some ⟨[.known 0#16, .known 0#16], 0, some (.outputGlitchHazard (.chn 0 .chEn) (.known 0#16) 1#16), 0⟩ := by decide

/-- Vector E5. -/
theorem test_setenOff :
    lastEvents 3 (exec .setenOff driving) =
    [⟨0, .ctl, .setenOff, .wrote (.chn 0 .outEn) (.known 1#16) (.known 0#16)⟩,
     ⟨1, .ctl, .setenOff, .wrote (.chn 0 .chEn) (.known 1#16) (.known 0#16)⟩,
     ⟨2, .ctl, .setenOff, .wrote (.sh .moduleEn) (.known 1#16) (.known 0#16)⟩] := by decide

/-- Vector E9: FC5 at D3. -/
theorem test_setenOff_other :
    shown [.chn 0 .chEn, .sh .moduleEn] (exec .setenOff (withFields [(.chn 1 .outEn, 1#16)] enabled)) =
    some ⟨[.known 0#16, .known 1#16], 2, some (.outputGlitchHazard (.sh .moduleEn) (.known 1#16) 0#16), 0⟩ := by decide

/-- `PINON 1` with the output buffer of channel 0 connected: FC6 (95_test_vectors.md section 5). -/
theorem test_fwr_contention :
    shown [.chn 1 .outEn] (exec (.fwr (.chn 1 .outEn) 1#16) driving) =
    some ⟨[.known 0#16], 0, some (.pinContention (.chn 1 .outEn) 0), 0⟩ := by decide

/-- `FWR CHN.filt_en, 1, 0`: channel 1 is not live (95_test_vectors.md section 5). -/
theorem test_fwr_other_channel :
    lastEvents 1 (exec (.fwr (.chn 1 .filtEn) 0#16) enabled) =
    [⟨0, .col, .fwr, .wrote (.chn 1 .filtEn) .unknown (.known 0#16)⟩] := by decide

/-- `FRD CHN.dat_high, 0` returns 2048 (95_test_vectors.md section 5). -/
theorem test_frd :
    lastEvents 1 (exec (.frd (.field (.chn 0 .datHigh))) enabled) =
    [⟨0, .col, .frd, .read (.field (.chn 0 .datHigh)) (.known 2048#16)⟩] := by decide

/-- `FRD CHN.dat_low, 1`: FC4 (95_test_vectors.md section 3). -/
theorem test_frd_unknown :
    shown [] (exec (.frd (.field (.chn 1 .datLow))) ready) = some ⟨[], 0, some (.unknownRead (.chn 1 .datLow)), 0⟩ := by
  decide

/-! ## Field meanings (00_scope.md R7, 44_analog_behaviour.md R214) -/

/-- The codes 0 to 3 under the codes of section 0, and no dead-band in force while the channel is not live. -/
theorem test_hysteresis :
    ([0#16, 1#16, 2#16, 3#16].map fun v => hysteresisMillivolts (withFields [(.chn 0 .hysSel, v)] ready) 0) =
        [some 0, some 15, some 30, some 45] ∧
      hysteresisMillivolts ready 0 = none ∧
      liveDeadBand (withFields [(.chn 0 .hysSel, 3#16)] ready) 0 = none ∧
      liveDeadBand (withFields [(.chn 0 .hysSel, 3#16)] enabled) 0 = some 45 := by decide

/-- Rows S1 to S3 of section 1; the pure shift misses the greatest (90_conflicts.md C1). -/
theorem test_boundary_codes :
    meetsBoundaryCodes cfg = true ∧ meetsBoundaryCodes { cfg with rounding := .floor } = false := by decide

/-! ## Witnesses: states and operands that meet a statement's hypotheses

One theorem for each statement that has hypotheses, clause by clause, at the boundaries of the clause's range. -/

/-- Right after reset, with no trace loaded. -/
abbrev fresh : State := State.boot cfg []

/-- After reset, with the module enable written 1 by hand. -/
abbrev freshOn : State := withFields [(.sh .moduleEn, 1#16)] fresh

/-- After reset, with the transition-mode window known and the steady-state window not. -/
abbrev freshHalfTimed : State := withFields [(.sh .tmodTime, 5#16)] fresh

/-- After reset, with channel CH enabled. -/
abbrev freshChannel : State := withFields [(.chn 0 .chEn, 1#16)] fresh

/-- After reset, with channel CH enabled behind its connected output buffer. -/
abbrev freshDriving : State := withFields [(.chn 0 .chEn, 1#16), (.chn 0 .outEn, 1#16)] fresh

/-- After reset, with the module enable made Unknown, which no run reaches. -/
abbrev freshUnknown : State := fresh.setValue (.sh .moduleEn) .unknown

/-- Initialized, in the state Other-owner. -/
abbrev otherOwner : State := withFields [(.sh .moduleEn, 1#16)] ready

/-- Initialized and Disabled, with another channel's output buffer connected. -/
abbrev otherDriving : State := withFields [(.chn 1 .outEn, 1#16)] ready

/-- Enabled, with the last channel's output buffer connected. -/
abbrev enabledOther : State := withFields [(.chn 2 .outEn, 1#16)] enabled

/-- Disabled, with the two timing windows equal. -/
abbrev equalWindows : State := withFields [(.sh .tmodTime, 0x08A#16)] ready

/-- Channel CH enabled with the module off, in hysteretic mode with slope on. -/
abbrev badHysteretic : State := withFields [(.chn 0 .chEn, 1#16), (.wg 0 .slopeEn, 1#16), (.wg 0 .hystModeEn, 1#16)] ready

/-- Channel CH enabled with the module off, in triangle mode with slope off. -/
abbrev badTriangle : State := withFields [(.chn 0 .chEn, 1#16), (.wg 0 .triModeEn, 1#16)] ready

/-- Disabled, with channel 1 enabled and configured. -/
abbrev twoChannels : State :=
  withFields [(.chn 1 .chEn, 1#16), (.wg 1 .slopeEn, 0#16), (.wg 1 .hystModeEn, 0#16), (.wg 1 .triModeEn, 0#16)] ready

/-- Initialized, under a gain and under an offset that leave the code's range. -/
abbrev largeGain : State := { ready with cfg := { cfg with k := 4095 } }
abbrev smallOffset : State := { ready with cfg := { cfg with offset := 2046 } }

theorem witness_EncodeThenDecode :
    (Instr.fwr (.wg 2 (.stopSel 1)) 15#16).wellFormed cfg = true ∧
      (Instr.fwr (.sh .ssTime) 1023#16).wellFormed cfg = true ∧
    (Instr.setref 0x8000#16).wellFormed cfg = true ∧ (Instr.frd (.cmpOut 2)).wellFormed cfg = true := by decide

theorem witness_DecodeThenEncode :
    decode cfg .col 0x42E0FFFF#32 = .ok (.fwr (.wg 0 .slopeRate) 0xFFFF#16) ∧
    decode cfg .ctl 0x2000FFFF#32 = .ok (.setref 0xFFFF#16) := by decide

theorem witness_ReservedOpcodesRefused :
    (opField 0x00000000#32).toNat ∉ [1, 2, 3, 4, 5] ∧ (opField 0x60000000#32).toNat ∉ [1, 2, 3, 4, 5] ∧
    (opField 0xFFFFFFFF#32).toNat ∉ [1, 2, 3, 4, 5] := by decide

theorem witness_WrongAgentRefused :
    ((opField 0x10000000#32).toNat ∈ [1, 2, 3] ∧ Agent.col ≠ .ctl) ∧ ((opField 0x3FFFFFFF#32).toNat ∈ [1, 2, 3] ∧
      Agent.env ≠ .ctl) ∧
    ((opField 0x40000001#32).toNat ∈ [4, 5] ∧ Agent.ctl ≠ .col) ∧ ((opField 0x50000000#32).toNat ∈ [4, 5] ∧
      Agent.env ≠ .col) := by
  decide

theorem witness_InitIsOneWord : opField 0x10000000#32 = 1#4 ∧ opField 0x18000000#32 = 1#4 := by decide

theorem witness_SetrefCarriesSignedImmediate :
    opField 0x20010000#32 = 2#4 ∧ (0x20010000#32).extractLsb' 16 12 ≠ 0#12 ∧
    opField 0x28000000#32 = 2#4 ∧ (0x28000000#32).extractLsb' 16 12 ≠ 0#12 := by decide

theorem witness_SetenTwoWords :
    opField 0x30000001#32 = 3#4 ∧ opField 0x30000000#32 = 3#4 ∧ opField 0x30000002#32 = 3#4 := by decide

theorem witness_FieldAccessWordLayout :
    decode cfg .col 0x41B00FFF#32 = .ok (.fwr (.chn 0 .datHigh) 4095#16) ∧
    (opField 0x51400001#32 = 5#4 ∧ lowField 0x51400001#32 ≠ 0#16) ∧ (opField 0x51408000#32 = 5#4 ∧
      lowField 0x51408000#32 ≠ 0#16) := by
  decide

/-- Each reserved range of R89 at both its ends, for FWR and for FRD; the comparator output for FWR. -/
theorem witness_FieldIdentifierTable :
    cfg.nStop ≤ 8 ∧
    ([0x40700000#32, 0x40F00000#32, 0x41C00000#32, 0x41E00000#32, 0x42400000#32, 0x42900000#32, 0x42F00000#32,
      0x4FF00000#32].all (fun w => decide (opField w = 4#4 ∧
        ((0x07 ≤ (fidField w).toNat ∧ (fidField w).toNat ≤ 0x0F) ∨ (0x1C ≤ (fidField w).toNat ∧
          (fidField w).toNat ≤ 0x1E) ∨
          (0x22 + cfg.nStop ≤ (fidField w).toNat ∧ (fidField w).toNat ≤ 0x29) ∨ 0x2F ≤ (fidField w).toNat)))) = true ∧
    ([0x50700000#32, 0x5FF00000#32].all (fun w => decide (opField w = 5#4 ∧ lowField w = 0#16 ∧
        ((0x07 ≤ (fidField w).toNat ∧ (fidField w).toNat ≤ 0x0F) ∨ 0x2F ≤ (fidField w).toNat)))) = true ∧
    (opField 0x41F20000#32 = 4#4 ∧ fidField 0x41F20000#32 = 0x1F#8 ∧ (chanField 0x41F20000#32).val < cfg.nCh) := by decide

theorem witness_ChannelOperandChecked :
    (FieldName.ofFid cfg (fidField 0x40410000#32) = some (.sh .moduleEn) ∧ opField 0x40410000#32 = 4#4 ∧
      chanField 0x40410000#32 ≠ 0) ∧
    (FieldName.ofFid cfg (fidField 0x50010000#32) = some (.sh .clkSel) ∧ opField 0x50010000#32 = 5#4 ∧
      lowField 0x50010000#32 = 0#16 ∧ chanField 0x50010000#32 ≠ 0) ∧
    (FieldName.ofFid cfg (fidField 0x41030000#32) = some (.chn .chEn) ∧ opField 0x41030000#32 = 4#4 ∧
      cfg.nCh ≤ (chanField 0x41030000#32).val) ∧
    (FieldName.ofFid cfg (fidField 0x52AF0000#32) = some (.wg .slopeEn) ∧ opField 0x52AF0000#32 = 5#4 ∧
      lowField 0x52AF0000#32 = 0#16 ∧ cfg.nCh ≤ (chanField 0x52AF0000#32).val) := by decide

/-- The largest value that fits the high limit, and the next. -/
theorem witness_ValueOperandChecked :
    (opField 0x41B00FFF#32 = 4#4 ∧ decodeTarget cfg 0x41B00FFF#32 = .ok (.field (.chn 0 .datHigh)) ∧
      (lowField 0x41B00FFF#32).toNat < 2 ^ cfg.width (.chn 0 .datHigh)) ∧
    (opField 0x41B01000#32 = 4#4 ∧ decodeTarget cfg 0x41B01000#32 = .ok (.field (.chn 0 .datHigh)) ∧
      2 ^ cfg.width (.chn 0 .datHigh) ≤ (lowField 0x41B01000#32).toNat) := by decide

theorem witness_StepRunsDecodedCommand :
    (loaded .ctl 0x10000000#32).Running ∧ (loaded .ctl 0x10000000#32).trace[(loaded .ctl 0x10000000#32).index]? =
      some ⟨.ctl, 0x10000000#32⟩ ∧ decode (loaded .ctl 0x10000000#32).cfg .ctl 0x10000000#32 = .ok .init := by decide

theorem witness_RefusedWordWritesNothing :
    (loaded .col 0x41800004#32).Running ∧ (loaded .col 0x41800004#32).trace[(loaded .col 0x41800004#32).index]? =
      some ⟨.col, 0x41800004#32⟩ ∧
        decode (loaded .col 0x41800004#32).cfg .col 0x41800004#32 = .error .valueTooWide := by decide

theorem witness_MarkedStateTakesNoStep :
    (ready.raise (.reInit 0x10000000#32)).fault = some (.reInit 0x10000000#32) ∧
    ((ready.refuse .badField).fault = none ∧ (ready.refuse .badField).refused = some .badField) := by decide

theorem witness_RunEndsWithItsTrace :
    (State.reset.Running ∧ State.reset.trace[State.reset.index]? = none) ∧
    ((loaded .ctl 0x00000000#32).Running ∧
      (loaded .ctl 0x00000000#32).trace[(loaded .ctl 0x00000000#32).index]? = some ⟨.ctl, 0x00000000#32⟩) := by decide

/-- A step that completes, one that faults (FC1), and one that is refused (RF1). -/
theorem witness_TraceIndexCountsCommands :
    (∃ t, step (loaded .ctl 0x10000000#32) = .next t ∧ t.Running) ∧
    (∃ t, step (loaded .ctl 0x20000000#32) = .next t ∧ ¬ t.Running) ∧
    (∃ t, step (loaded .ctl 0x00000000#32) = .next t ∧ ¬ t.Running) := by
  refine ⟨?_, ⟨_, rfl, by decide⟩, ⟨_, rfl, by decide⟩⟩
  obtain ⟨t, h, h1, h2⟩ := completes_next (o := step (loaded .ctl 0x10000000#32)) (by decide)
  exact ⟨t, h, h1, h2⟩

theorem witness_StepOnlyAppendsToLog : ∃ t, step (loaded .ctl 0x10000000#32) = .next t := by
  obtain ⟨t, h, -⟩ := completes_next (o := step (loaded .ctl 0x10000000#32)) (by decide)
  exact ⟨t, h⟩

/-- The existing channels' ends, and a field that holds Unknown. -/
theorem witness_ResetLeavesBootQuiet :
    (2 : Chan).val < cfg.nCh ∧ (State.boot cfg []).value (.wg 2 .slopeEn) = .unknown ∧ ShField.ssTime ≠ .moduleEn ∧
    (ChnField.datHigh ≠ .chEn ∧ ChnField.datHigh ≠ .outEn) := by decide

/-- From reset, and from a state with channel CH enabled and its output buffer disconnected. -/
theorem witness_InitCompletes :
    (fresh.cfg.Valid ∧ fresh.initialized = false ∧ fresh.value (.sh .moduleEn) = .known 0#16 ∧
      fresh.value (.chn fresh.cfg.ch .chEn) = .known 0#16) ∧
    (freshChannel.cfg.Valid ∧ freshChannel.initialized = false ∧ freshChannel.value (.sh .moduleEn) = .known 0#16 ∧
      Disconnected freshChannel freshChannel.cfg.ch) :=
  ⟨⟨test_vectors_valid, rfl, by decide, by decide⟩, ⟨test_vectors_valid, rfl, by decide, by decide⟩⟩

theorem witness_InitWritesGroupsInOrder : (State.boot cfg []).cfg.OrderValid ∧
  ∃ t, exec .init (State.boot cfg []) = .next t :=
  ⟨by decide, exec_next _ _⟩

theorem witness_InitWritesHysteresisNoneThenMax :
    (State.boot cfg []).cfg.Valid ∧ (State.boot cfg []).fault = none ∧
      ∃ t, exec .init (State.boot cfg []) = .next t ∧ t.fault = none := by
  refine ⟨by decide, rfl, ?_⟩
  obtain ⟨t, h, h1, -⟩ := completes_next (o := exec .init (State.boot cfg [])) (by decide)
  exact ⟨t, h, h1⟩

theorem witness_InitPreconditionFaults :
    ready.initialized = true ∧
    (freshOn.initialized = false ∧ freshOn.value (.sh .moduleEn) = .known 1#16 ∧ (1#16 : Word) ≠ 0#16) ∧
    (freshUnknown.initialized = false ∧ freshUnknown.value (.sh .moduleEn) = .unknown) := by decide

theorem witness_InitStopsAtConnectedChannel :
    freshDriving.cfg.initOrder = InitStep.canonical freshDriving.cfg.nStop ∧ freshDriving.initialized = false ∧
      freshDriving.value (.sh .moduleEn) = .known 0#16 ∧
      freshDriving.value (.chn freshDriving.cfg.ch .chEn) = .known 1#16 ∧
        freshDriving.value (.chn freshDriving.cfg.ch .outEn) = .known 1#16 := by decide

/-- Another order R114 allows: group S backwards. -/
def otherOrder : List InitStep := [.s7, .s6, .s5, .s4, .s3, .s2, .s1] ++ (InitStep.canonical 2).drop 7

theorem witness_InitOrderLeavesSameFields :
    (fresh.withOrder (InitStep.canonical 2)).cfg.Valid ∧ (fresh.withOrder otherOrder).cfg.Valid ∧
      otherOrder ≠ InitStep.canonical 2 ∧ fresh.initialized = false ∧ fresh.value (.sh .moduleEn) = .known 0#16 ∧
      fresh.value (.chn fresh.cfg.ch .chEn) = .known 0#16 :=
  ⟨test_vectors_valid, ⟨by decide, by decide, by decide, by decide, by decide, by decide⟩, by decide, rfl, by decide,
   by decide⟩

theorem witness_RefCodeRoundsTheQuotient :
    1 ≤ cfg.q ∧ cfg.rounding = .halfUp ∧ ({ cfg with rounding := .floor } : Config).rounding = .floor ∧
    ({ cfg with rounding := .halfAway, q := 1 } : Config).rounding = .halfAway ∧
    1 ≤ ({ cfg with rounding := .halfAway, q := 1 } : Config).q := by decide

theorem witness_RefCodeRangeAndOrder : cfg.DefaultConversion ∧ (-32768 : Int) ≤ -32768 ∧ (1 : Int) ≤ 4095 := by decide

theorem witness_RefCodeSymmetryFailsAtTies : cfg.DefaultConversion ∧ (-32767 : Int) ≤ 16384 ∧ (16384 : Int) ≤ 32767 := by
  decide

/-- At the least and the greatest application value, off and live. -/
theorem witness_SetrefCompletes :
    (ready.initialized = true ∧ LiveConfigOk ready ∧ 0 ≤ refCode ready.cfg (0x8000#16 : Word).toInt ∧
      refCode ready.cfg (0x8000#16 : Word).toInt ≤ 4095) ∧
    (driving.initialized = true ∧ LiveConfigOk driving ∧ 0 ≤ refCode driving.cfg (0x7FFF#16 : Word).toInt ∧
      refCode driving.cfg (0x7FFF#16 : Word).toInt ≤ 4095) :=
  ⟨⟨rfl, checkLive_ok.mp (by decide), by decide, by decide⟩, ⟨rfl, checkLive_ok.mp (by decide), by decide, by decide⟩⟩

/-- D00's constants; and constants that leave the range above (the vector of section 2) and below. -/
theorem witness_SetrefFaultsOutsideCodeRange :
    (cfg.k = 2047 ∧ cfg.offset = 2048 ∧ cfg.q = 15) ∧
    (largeGain.initialized = true ∧ 4095 < refCode largeGain.cfg (0x7FFF#16 : Word).toInt) ∧
    (smallOffset.initialized = true ∧ refCode smallOffset.cfg (0x8000#16 : Word).toInt < 0) := by decide

theorem witness_ThresholdFollowsSetref :
    enabled.initialized = true ∧ LiveConfigOk enabled ∧ live enabled enabled.cfg.ch = true ∧
      waveformOff enabled enabled.cfg.ch = true ∧ enabled.cfg.DefaultConversion :=
  ⟨rfl, checkLive_ok.mp (by decide), by decide, by decide, by decide⟩

theorem witness_InitializedGatesTheOperations :
    (∃ t, (State.boot cfg []).fault = none ∧ exec .init (State.boot cfg []) = .next t ∧ t.fault = none) ∧
    (∃ t, Instr.setenOn ≠ .init ∧ exec .setenOn ready = .next t) ∧ (State.boot cfg []).initialized = false ∧
    ready.initialized = true := by
  obtain ⟨t, h, h1, -⟩ := completes_next (o := exec .init (State.boot cfg [])) (by decide)
  obtain ⟨u, hu⟩ := exec_next .setenOn ready
  exact ⟨⟨t, rfl, h, h1⟩, ⟨u, by decide, hu⟩, rfl, rfl⟩

/-- From the helper states the configuration is in order: for channel CH and every enabled channel. -/
theorem readyToEnable_of {s : State} (h : shOk s = .ok true)
    (hc : ∀ c : Chan, c.val < s.cfg.nCh → (c = s.cfg.ch ∨ s.value (.chn c .chEn) = .known 1#16) → wgOk s c = .ok true) :
    ReadyToEnable s := ⟨shOk_true.mp h, fun c hn ho => wgOk_true.mp (hc c hn ho)⟩

/-- From Disabled, from Other-owner with the output buffer disconnected, and from Enabled with it connected. -/
theorem witness_SetenOnCompletes :
    (ready.initialized = true ∧ ReadyToEnable ready ∧ Disconnected ready ready.cfg.ch ∧
      ∀ c : Chan, c.val < ready.cfg.nCh → Disconnected ready c) ∧
    (otherOwner.initialized = true ∧ ReadyToEnable otherOwner ∧ Disconnected otherOwner otherOwner.cfg.ch ∧
      otherOwner.value (.sh .moduleEn) = .known 1#16) ∧
    (driving.initialized = true ∧ ReadyToEnable driving ∧ driving.value (.chn driving.cfg.ch .chEn) = .known 1#16 ∧
      driving.value (.sh .moduleEn) = .known 1#16) :=
  ⟨⟨rfl, readyToEnable_of (by decide) (by decide), by decide, by decide⟩,
   ⟨rfl, readyToEnable_of (by decide) (by decide), by decide, by decide⟩,
   ⟨rfl, readyToEnable_of (by decide) (by decide), by decide, by decide⟩⟩

/-- From Enabled with the output buffer connected, and from Disabled behind another channel's connected buffer. -/
theorem witness_SetenOffCompletes :
    (driving.initialized = true ∧ LiveConfigOk driving ∧
      ∀ c : Chan, c.val < driving.cfg.nCh → c ≠ driving.cfg.ch → Disconnected driving c) ∧
    (otherDriving.initialized = true ∧ LiveConfigOk otherDriving ∧ otherDriving.value (.sh .moduleEn) = .known 0#16) :=
  ⟨⟨rfl, checkLive_ok.mp (by decide), by decide⟩, ⟨rfl, checkLive_ok.mp (by decide), by decide⟩⟩

/-- The four Enable Controller states, with the output buffers `o` of channel CH and `other` of channel 1. -/
def row (a b o other : Word) : State :=
  withFields [(.chn 0 .chEn, a), (.sh .moduleEn, b), (.chn 0 .outEn, o), (.chn 1 .outEn, other)] ready

/-- The bits the rows of the tables start from. -/
def bits : List Word := [0#16, 1#16]

/-- The premises that the two outcome tables share. -/
def rowPremises (a b o other : Word) : Bool :=
  decide ((row a b o other).initialized = true ∧ (row a b o other).fault = none ∧ (row a b o other).cfg.CountsValid ∧
    (row a b o other).value (.chn (row a b o other).cfg.ch .chEn) = .known a ∧
    (row a b o other).value (.sh .moduleEn) = .known b ∧
      (row a b o other).value (.chn (row a b o other).cfg.ch .outEn) = .known o ∧
    (∀ c : Chan, c.val < (row a b o other).cfg.nCh →
      (row a b o other).value (.chn c .outEn) = .known 0#16 ∨ (row a b o other).value (.chn c .outEn) = .known 1#16) ∧
    ((∃ c : Chan, c.val < (row a b o other).cfg.nCh ∧ c ≠ (row a b o other).cfg.ch ∧
      (row a b o other).value (.chn c .outEn) = .known 1#16) ↔ other = 1#16)) &&
  decide (checkLive (row a b o other) = .ok ()) && decide (shOk (row a b o other) = .ok true) &&
  decide (∀ c : Chan, c.val < (row a b o other).cfg.nCh →
    (c = (row a b o other).cfg.ch ∨ (row a b o other).value (.chn c .chEn) = .known 1#16) → wgOk (row a b o other) c = .ok true)

/-- The premises that speak of the configuration follow from the checks `rowPremises` makes. -/
theorem rowPremises_config {a b o other : Word} (h : rowPremises a b o other = true) :
    ReadyToEnable (row a b o other) ∧ LiveConfigOk (row a b o other) := by
  simp only [rowPremises, Bool.and_eq_true, decide_eq_true_eq] at h
  exact ⟨readyToEnable_of h.1.2 h.2, checkLive_ok.mp h.1.1.2⟩

/-- The start of every row of both tables, with the row's `o` and O', meets the premises. -/
theorem witness_EnableOutcomeTable :
    (bits.all fun a => bits.all fun b => bits.all fun o => bits.all fun other => rowPremises a b o other) = true := by decide

theorem witness_DisableOutcomeTable : rowPremises 1#16 1#16 1#16 1#16 = true ∧
  rowPremises 0#16 1#16 0#16 0#16 = true := by
  decide

theorem witness_EnableTwiceIsEnableOnce :
    (ready.fault = none ∧ ∃ t, exec .setenOn ready = .next t ∧ t.fault = none) ∧
    (driving.fault = none ∧ ∃ t, exec .setenOff driving = .next t ∧ t.fault = none) := by
  obtain ⟨t, h, h1, -⟩ := completes_next (o := exec .setenOn ready) (by decide)
  obtain ⟨u, k, k1, -⟩ := completes_next (o := exec .setenOff driving) (by decide)
  exact ⟨⟨rfl, t, h, h1⟩, ⟨rfl, u, k, k1⟩⟩

/-- With channel 1 enabled beside channel CH. -/
theorem witness_ModuleEnableIsShared :
    twoChannels.fault = none ∧ twoChannels.value (.chn 1 .chEn) = .known 1#16 ∧
      (∃ t, exec .setenOn twoChannels = .next t ∧ t.fault = none) ∧
      (∃ t, exec .setenOff twoChannels = .next t ∧ t.fault = none) := by
  obtain ⟨t, h, h1, -⟩ := completes_next (o := exec .setenOn twoChannels) (by decide)
  obtain ⟨u, k, k1, -⟩ := completes_next (o := exec .setenOff twoChannels) (by decide)
  exact ⟨rfl, by decide, ⟨t, h, h1⟩, ⟨u, k, k1⟩⟩

theorem writeAllowed_of {s : State} {l : Loc} {v : Word} (h1 : checkWrite s l v = .ok ())
    (h2 : checkLive (performWrite .fwr l v s) = .ok ()) : WriteAllowed s l v := by
  obtain ⟨a, b, c⟩ := checkWrite_ok.mp h1
  exact ⟨a, b, c, liveConfigOk_performWrite.mp (checkLive_ok.mp h2)⟩

/-- A write of each class: the pin of a live channel, configuration of a channel that is not live, the enable with its buffer
disconnected, a reference while live, shared configuration with the module off. -/
theorem witness_FwrCompletes :
    WriteAllowed enabled (.chn 0 .outEn) 1#16 ∧ WriteAllowed enabled (.wg 1 .triModeEn) 1#16 ∧
    WriteAllowed enabled (.chn 0 .chEn) 0#16 ∧ WriteAllowed driving (.chn 0 .datLow) 4095#16 ∧
    WriteAllowed ready (.sh .tmodTime) 1023#16 :=
  ⟨writeAllowed_of (by decide) (by decide), writeAllowed_of (by decide) (by decide),
   writeAllowed_of (by decide) (by decide), writeAllowed_of (by decide) (by decide),
   writeAllowed_of (by decide) (by decide)⟩

/-- Shared configuration with the module on; channel and generator configuration of a live channel. -/
theorem witness_ConfigurationInUseIsNotRewritten :
    InUse enabled (.sh .tmodTime) ∧ InUse enabled (.chn 0 .filtEn) ∧ InUse enabled (.wg 0 .slopeRate) :=
  ⟨.inl ⟨rfl, by decide⟩, .inr ⟨rfl, 0, .inl ⟨_, rfl⟩, by decide⟩, .inr ⟨rfl, 0, .inr ⟨_, rfl⟩, by decide⟩⟩

theorem witness_EnableBehindConnectedBufferFaults :
    (driving.value (.chn 0 .chEn) ≠ .known 0#16 ∧ driving.value (.chn 0 .outEn) = .known 1#16) ∧
    (enabledOther.value (.sh .moduleEn) ≠ .known 0#16 ∧
      (∀ c : Chan, c.val < enabledOther.cfg.nCh → enabledOther.Known (.chn c .outEn)) ∧
        (2 : Chan).val < enabledOther.cfg.nCh ∧ enabledOther.value (.chn 2 .outEn) = .known 1#16) := by decide

theorem witness_SecondPinDriverFaults :
    (∀ e : Chan, e.val < driving.cfg.nCh → driving.Known (.chn e .outEn)) ∧ (0 : Chan).val < driving.cfg.nCh ∧
      (0 : Chan) ≠ 2 ∧ driving.value (.chn 0 .outEn) = .known 1#16 := by decide

/-- Turning the module on with the two windows equal. -/
theorem witness_BrokenTimingFaultsAfterTheWrite :
    ¬ InUse equalWindows (.sh .moduleEn) ∧ EnableSafe equalWindows (.sh .moduleEn) 1#16 ∧
      PinFree equalWindows (.sh .moduleEn) 1#16 ∧
      (equalWindows.setValue (.sh .moduleEn) (.known 1#16)).value (.sh .moduleEn) = .known 1#16 ∧
      (equalWindows.setValue (.sh .moduleEn) (.known 1#16)).value (.sh .tmodTime) = .known 0x08A#16 ∧
      (equalWindows.setValue (.sh .moduleEn) (.known 1#16)).value (.sh .ssTime) = .known 0x08A#16 ∧
      (0x08A#16 : Word).toNat ≤ (0x08A#16 : Word).toNat := by
  obtain ⟨a, b, c⟩ := (checkWrite_ok (s := equalWindows) (l := .sh .moduleEn) (v := 1#16)).mp (by decide)
  exact ⟨a, b, c, by decide, by decide, by decide, by decide⟩

/-- Turning the module on with channel CH enabled in hysteretic mode with slope on, and in triangle mode with slope off. -/
theorem witness_BrokenWaveformModeFaultsAfterTheWrite :
    ((¬ InUse badHysteretic (.sh .moduleEn) ∧ EnableSafe badHysteretic (.sh .moduleEn) 1#16 ∧
        PinFree badHysteretic (.sh .moduleEn) 1#16) ∧
      SharedTimingOk (badHysteretic.setValue (.sh .moduleEn) (.known 1#16)) ∧ (0 : Chan).val < badHysteretic.cfg.nCh ∧
      live (badHysteretic.setValue (.sh .moduleEn) (.known 1#16)) 0 = true ∧
      (badHysteretic.setValue (.sh .moduleEn) (.known 1#16)).value (.wg 0 .hystModeEn) = .known 1#16 ∧
      (badHysteretic.setValue (.sh .moduleEn) (.known 1#16)).value (.wg 0 .triModeEn) = .known 0#16 ∧
      (badHysteretic.setValue (.sh .moduleEn) (.known 1#16)).value (.wg 0 .slopeEn) = .known 1#16) ∧
    ((¬ InUse badTriangle (.sh .moduleEn) ∧ EnableSafe badTriangle (.sh .moduleEn) 1#16 ∧
        PinFree badTriangle (.sh .moduleEn) 1#16) ∧
      SharedTimingOk (badTriangle.setValue (.sh .moduleEn) (.known 1#16)) ∧ (0 : Chan).val < badTriangle.cfg.nCh ∧
      live (badTriangle.setValue (.sh .moduleEn) (.known 1#16)) 0 = true ∧
      (badTriangle.setValue (.sh .moduleEn) (.known 1#16)).value (.wg 0 .hystModeEn) = .known 0#16 ∧
      (badTriangle.setValue (.sh .moduleEn) (.known 1#16)).value (.wg 0 .triModeEn) = .known 1#16 ∧
      (badTriangle.setValue (.sh .moduleEn) (.known 1#16)).value (.wg 0 .slopeEn) = .known 0#16) :=
  ⟨⟨checkWrite_ok.mp (by decide), shOk_true.mp (by decide), by decide, by decide, by decide, by decide, by decide⟩,
   ⟨checkWrite_ok.mp (by decide), shOk_true.mp (by decide), by decide, by decide, by decide, by decide, by decide⟩⟩

theorem witness_WhatMayBeWrittenWhileOn : enabled.fault = none ∧ moduleOn enabled = true := by decide

theorem witness_FrdReturnsTheField : ready.value (.chn 0 .datHigh) = .known 2048#16 := by decide

theorem witness_FrdOfUnknownFaults : ready.value (.chn 1 .datLow) = .unknown := by decide

/-- From reset, and from a state whose module is already on. -/
theorem witness_UnknownTimingFaultsOnEnable :
    ((∀ c : Chan, c.val < fresh.cfg.nCh → Disconnected fresh c) ∧ fresh.value (.sh .tmodTime) = .unknown) ∧
    (freshOn.value (.sh .moduleEn) = .known 1#16 ∧ freshOn.value (.sh .tmodTime) = .unknown) ∧
    ((∀ c : Chan, c.val < freshHalfTimed.cfg.nCh → Disconnected freshHalfTimed c) ∧
      freshHalfTimed.Known (.sh .tmodTime) ∧ freshHalfTimed.value (.sh .ssTime) = .unknown) := by decide

/-- A command of ctl and one of col that end in a next state, with a field outside what each may write. -/
theorem witness_CommandsWriteOnlyTheirFields :
    (∃ t, exec .setenOff driving = .next t) ∧ ¬ mayWrite driving.cfg .setenOff (.chn 1 .chEn) ∧
      Instr.setenOff.agent = .ctl ∧
    (Loc.chn 1 .chEn).channel? = some 1 ∧ (1 : Chan) ≠ driving.cfg.ch ∧ driving.Known (.chn 1 .chEn) ∧
    (∃ t, exec (.frd (.cmpOut 0)) driving = .next t) ∧ ¬ mayWrite driving.cfg (.frd (.cmpOut 0)) (.chn 0 .chEn) := by
  refine ⟨exec_next _ _, ?_, rfl, rfl, by decide, by decide, exec_next _ _, ?_⟩
  · simp [mayWrite, driving, enabled, ready, withFields, State.setValue, State.boot, Config.vectors]
  · simp [mayWrite]

/-- Each of the six commands, from a state in which it records no fault. -/
theorem witness_WriteCountsAreFixed :
    (State.boot cfg []).cfg.OrderValid ∧ (State.boot cfg []).cfg.CountsValid ∧ ready.cfg.OrderValid ∧
      ready.cfg.CountsValid ∧
    ([exec .init (State.boot cfg []), exec (.setref 0#16) ready, exec .setenOn ready, exec .setenOff ready,
      exec (.fwr (.chn 0 .outEn) 1#16) ready, exec (.frd (.field (.chn 0 .datHigh))) ready].all completes) = true := by decide

theorem witness_DrawsAffectOnlyComparatorReads :
    (∀ c, Instr.frd (.field (.chn 0 .datHigh)) ≠ .frd (.cmpOut c)) ∧
      ∃ t, exec (.frd (.field (.chn 0 .datHigh))) ready = .next t := ⟨by decide, exec_next _ _⟩

/-! ### The invariants of a run -/

/-- Every field there is, of the instance or not. -/
def everyField : List Loc :=
  [ShField.clkSel, .clkDiv, .fclkDiv, .idleCtl, .moduleEn, .tmodTime, .ssTime].map Loc.sh ++
  (List.finRange 16).flatMap (fun c =>
    [ChnField.chEn, .irqMode, .blankEn, .outEn, .filtEn, .polarity, .inSel, .hysPol, .hysSel, .blankTime, .datLow,
      .datHigh].map (Loc.chn c) ++
    ([WgField.hcFsel, .startSel, .slopeEn, .hystModeEn, .triModeEn, .slopePol, .slopeRate].map (Loc.wg c) ++
      (List.finRange 8).map (fun j => Loc.wg c (.stopSel j))))

theorem mem_everyField (l : Loc) : l ∈ everyField := by
  cases l with
  | sh f => cases f <;> simp [everyField]
  | chn c f => cases f <;> simp [everyField]
  | wg c f => cases f <;> simp [everyField]

/-- The parts of `RunInvariant` that speak of each field, as one test of a field. -/
def fieldFits (s : State) (l : Loc) : Bool :=
  (match s.value l with
    | .known v => decide (Fits (s.cfg.width l) v)
    | .unknown => true) &&
  (l.inRange s.cfg || decide (s.value l = (State.boot s.cfg s.trace).value l)) &&
  (!s.initialized || (afterInit s.cfg l).isNone || decide (s.Known l)) &&
  decide (s.value l = lastWritten l ((State.boot s.cfg s.trace).value l) s.log)

/-- The other parts of `RunInvariant`, as one test. -/
def runFits (s : State) : Bool :=
  decide s.cfg.Valid && decide (EnablesKnown s) && decide (OnePinDriver s) &&
  (s.fault.isSome || decide (checkLive s = .ok ())) && decide (LogNumbered s) && decide (LogAgents s) &&
  decide (LogTellsReturned s) && decide (OneMark s) && decide (IndexInTrace s)

theorem runInvariant_of {s : State} (h : runFits s = true) (hf : everyField.all (fieldFits s) = true) : RunInvariant s := by
  have hl : ∀ l, fieldFits s l = true := fun l => List.all_eq_true.mp hf l (mem_everyField l)
  simp only [runFits, Bool.and_eq_true, decide_eq_true_eq] at h
  obtain ⟨⟨⟨⟨⟨⟨⟨⟨h1, h2⟩, h3⟩, h4⟩, h5⟩, h6⟩, h7⟩, h8⟩, h9⟩ := h
  simp only [fieldFits, Bool.and_eq_true, decide_eq_true_eq] at hl
  refine ⟨h1, ?_, ?_, h2, ?_, h3, ?_, fun l => (hl l).2, h5, h6, h7, h8, h9⟩
  · intro l v hv
    have := (hl l).1.1.1
    rw [hv] at this
    simpa using this
  · intro l hr
    have := (hl l).1.1.2
    rw [hr] at this
    simpa using this
  · intro hi l ha
    have := (hl l).1.2
    rw [hi] at this
    cases he : afterInit s.cfg l with
    | none => rw [he] at ha; simp at ha
    | some v => rw [he] at this; simpa using this
  · intro hn
    rw [hn] at h4
    exact checkLive_ok.mp (by simpa using h4)

/-- The state a command leaves, or the state before it. -/
def afterCommand (i : Instr) (s : State) : State :=
  match exec i s with
  | .next t => t
  | .fault _ => s
  | .refused _ => s

/-- Reset, with three commands loaded. -/
def start : State := State.boot cfg [⟨.ctl, 0x10000000#32⟩, ⟨.col, 0x41310001#32⟩, ⟨.ctl, 0x30000000#32⟩]

/-- After INIT: the next command connects channel 1's output buffer. -/
def initDone : State := afterCommand .init start

/-- After INIT and `PINON 1`: the next command is SETEN.OFF. -/
def pinnedDone : State := afterCommand (.fwr (.chn 1 .outEn) 1#16) initDone

/-- From reset the next step is INIT, which completes. -/
theorem witness_StepKeepsRunInvariant : RunInvariant start ∧ ∃ t, step start = .next t := by
  obtain ⟨t, h, -⟩ := completes_next (o := step start) (by decide)
  exact ⟨runInvariant_of (by decide +kernel) (by decide +kernel), t, h⟩

theorem witness_StepKeepsFieldsAsLogged : LogTellsFields start ∧ ∃ t, step start = .next t :=
  ⟨witness_StepKeepsRunInvariant.1.logTells, witness_StepKeepsRunInvariant.2⟩

theorem witness_StepKeepsOnePinDriver : OnePinDriver start ∧ ∃ t, step start = .next t :=
  ⟨witness_StepKeepsRunInvariant.1.onePin, witness_StepKeepsRunInvariant.2⟩

theorem witness_StepKeepsLiveConfiguration : LiveWhileRunning start ∧ ∃ t, step start = .next t :=
  ⟨witness_StepKeepsRunInvariant.1.liveOk, witness_StepKeepsRunInvariant.2⟩

theorem witness_ResetMeetsRunInvariant : cfg.Valid := test_vectors_valid

theorem witness_SetrefNeverFaultsInARun :
    RunInvariant initDone ∧ initDone.Running ∧ initDone.initialized = true ∧ initDone.cfg.DefaultConversion :=
  ⟨runInvariant_of (by decide +kernel) (by decide +kernel), by decide +kernel, by decide +kernel, by decide +kernel⟩

/-- With another channel's output buffer connected. -/
theorem witness_DisableAlwaysDisconnectsThePin :
    RunInvariant pinnedDone ∧ pinnedDone.Running ∧ pinnedDone.initialized = true ∧
      pinnedDone.value (.chn 1 .outEn) = .known 1#16 :=
  ⟨runInvariant_of (by decide +kernel) (by decide +kernel), by decide +kernel, by decide +kernel, by decide +kernel⟩

end Sys2Proof.Tests
end

section
/-!
PROOFS. The scope family (00_scope.md): what a step does with the next pair of the trace, what it adds to the log, and the
invariants of a run.
-/

namespace Sys2Proof.Machine

/-! ## Who may issue a word (00_scope.md R15) -/

theorem agentOfOp_ctl : ∀ op : BitVec 4, op.toNat ∈ [1, 2, 3] → agentOfOp op = some .ctl := by decide

theorem agentOfOp_col : ∀ op : BitVec 4, op.toNat ∈ [4, 5] → agentOfOp op = some .col := by decide

/-- The agent check comes before every check of the word's operands (30_encoding.md R94). -/
theorem decode_wrongAgent {cfg : Config} {a owner : Agent} {w : Cmd} (h : agentOfOp (opField w) = some owner)
    (ha : a ≠ owner) : decode cfg a w = .error .wrongAgent := by
  unfold decode
  rw [h]
  exact if_neg ha

/-- Settles O5: the op fixes the owner, and every other agent stops at the agent check. -/
theorem wrongAgentRefused : Obligations.WrongAgentRefused := fun _ _ w =>
  ⟨fun hop ha => decode_wrongAgent (agentOfOp_ctl (opField w) hop) ha,
   fun hop ha => decode_wrongAgent (agentOfOp_col (opField w) hop) ha⟩

/-! ## A step from a state with no mark (10_state.md R25, R41) -/

/-- Settles O14: with no mark, the next pair's command is what `step` answers with. -/
theorem stepRunsDecodedCommand : Obligations.StepRunsDecodedCommand := by
  rintro s e i ⟨hf, hr⟩ he hd
  simp only [step, hf, hr, State.nextEntry, he, hd]

/-- Settles O15: a refused pair answers the same state with the refusal mark. -/
theorem refusedWordWritesNothing : Obligations.RefusedWordWritesNothing := by
  rintro s e r ⟨hf, hr⟩ he hd
  simp only [step, hf, hr, State.nextEntry, he, hd, State.refuse]

/-- Settles O17: with no pair left the step is `traceExhausted`; a pair is either refused (O15) or run (O14), and every
command answers a next state. -/
theorem runEndsWithItsTrace : Obligations.RunEndsWithItsTrace := by
  rintro s ⟨hf, hr⟩
  refine ⟨fun hn => by simp only [step, hf, hr, State.nextEntry, hn], fun e he => ?_⟩
  rcases hd : decode s.cfg e.agent e.word with r | i
  · exact ⟨_, refusedWordWritesNothing s e r ⟨hf, hr⟩ he hd⟩
  · rw [stepRunsDecodedCommand s e i ⟨hf, hr⟩ he hd]
    exact exec_next i s

/-! ## The writes of a decoded command fit their fields (30_encoding.md R90, R91, 40_initializer.md R111) -/

/-- The field exists under `cfg`, and the value fits it. -/
def WriteFits (cfg : Config) (l : Loc) (v : Word) : Prop := l.inRange cfg = true ∧ Fits (cfg.width l) v

/-- SETREF's code lies outside 0..4095 (41_reference.md R144). -/
def CodeOutOfRange (cfg : Config) (imm : Word) : Prop := refCode cfg imm.toInt < 0 ∨ refCode cfg imm.toInt > 4095

theorem valid_ch {cfg : Config} (h : cfg.Valid) : cfg.ch.val < cfg.nCh := h.1.2.2.1

theorem valid_order {cfg : Config} (h : cfg.Valid) : cfg.OrderValid := h.2.2.2.2.1

theorem fits_zero (width : Nat) : Fits width 0#16 := Nat.two_pow_pos width

theorem fits_one : Fits 1 1#16 := by decide

/-- The canonical order holds every step, of the stop sources those that exist (40_initializer.md R110). -/
theorem mem_canonical {n : Nat} {a : InitStep} : a ∈ InitStep.canonical n ↔ ∀ j, a = .w6 j → j.val < n := by
  cases a <;>
    simp [InitStep.canonical, InitStep.groupS, InitStep.groupC, InitStep.groupR, InitStep.groupW, stopIndices]

theorem initWrite_inRange {cfg : Config} (hch : cfg.ch.val < cfg.nCh) {a : InitStep}
    (ha : a ∈ InitStep.canonical cfg.nStop) : (initWrite cfg a).1.inRange cfg = true := by
  have hstop := mem_canonical.mp ha
  cases a
  case w6 j => simp [initWrite, Loc.inRange, WgField.inRange, hch, hstop j rfl]
  all_goals simp [initWrite, Loc.inRange, WgField.inRange, hch]

/-- Each step's value is a parameter that fits by assumption, a hysteresis code of 2 bits, 1, or 0. -/
theorem initWrite_fits {cfg : Config} (hinit : cfg.InitValuesValid) (a : InitStep) :
    Fits (cfg.width (initWrite cfg a).1) (initWrite cfg a).2 := by
  obtain ⟨_, _, _, _, _, _, _, _, _, _, _, _, _, _, -⟩ := hinit
  have hcode : ∀ c : BitVec 2, Fits 2 (c.zeroExtend 16) := by decide
  cases a
  case c9 | c11 => exact hcode _
  case c5 => exact fits_one
  case s5 | c1 | c4 | w1 | w2 | w3 | w4 | w5 | w6 | w7 | w8 => exact fits_zero _
  all_goals assumption

theorem initWrites_fit {cfg : Config} (hv : cfg.Valid) {l : Loc} {v : Word} (h : (l, v) ∈ initWrites cfg) :
    WriteFits cfg l v := by
  have hch := valid_ch hv
  obtain ⟨-, -, hinit, -, ⟨hperm, -⟩, -⟩ := hv
  obtain ⟨a, ha, hw⟩ := List.mem_map.mp h
  have hfits : WriteFits cfg (initWrite cfg a).1 (initWrite cfg a).2 :=
    ⟨initWrite_inRange hch (hperm.mem_iff.mp ha), initWrite_fits hinit a⟩
  rwa [hw] at hfits

theorem enableWrites_fit {cfg : Config} (hch : cfg.ch.val < cfg.nCh) {l : Loc} {v : Word}
    (h : (l, v) ∈ enableWrites cfg) : WriteFits cfg l v := by
  rcases List.mem_pair.mp h with h | h <;> cases h
  · exact ⟨decide_eq_true hch, fits_one⟩
  · exact ⟨rfl, fits_one⟩

theorem disableWrites_fit {cfg : Config} (hch : cfg.ch.val < cfg.nCh) {l : Loc} {v : Word}
    (h : (l, v) ∈ disableWrites cfg) : WriteFits cfg l v := by
  rcases List.mem_cons.mp h with h | h
  · cases h
    exact ⟨decide_eq_true hch, fits_zero 1⟩
  · rcases List.mem_pair.mp h with h | h <;> cases h
    · exact ⟨decide_eq_true hch, fits_zero 1⟩
    · exact ⟨rfl, fits_zero 1⟩

/-- A code inside 0..4095 fits the 12 bits of the high limit. -/
theorem fits_of_code {code : Int} (h : ¬ (code < 0 ∨ code > 4095)) : Fits 12 (BitVec.ofInt 16 code) := by
  rw [Fits, BitVec.toNat_ofInt]
  omega

/-- The writes of a decoded command fit the fields of a valid block, unless it is a SETREF that stops at its code. -/
theorem decode_writesFit {cfg : Config} {a : Agent} {w : Cmd} {i : Instr} (h : decode cfg a w = .ok i) :
    (∃ imm, i = .setref imm ∧ CodeOutOfRange cfg imm) ∨
    ∀ l v, (l, v) ∈ commandWrites cfg i → cfg.Valid → WriteFits cfg l v := by
  rcases decode_cases h with ⟨-, -, -, rfl⟩ | ⟨-, -, -, rfl⟩ | ⟨-, -, -, rfl⟩ | ⟨-, -, l, hl, hv, rfl⟩ |
    ⟨-, -, -, t, -, rfl⟩
  · exact .inr fun l v hm hvalid => initWrites_fit hvalid hm
  · by_cases hcode : CodeOutOfRange cfg (lowField w)
    · exact .inl ⟨_, rfl, hcode⟩
    · refine .inr fun l v hm hvalid => ?_
      cases List.mem_singleton.mp hm
      exact ⟨decide_eq_true (valid_ch hvalid), fits_of_code hcode⟩
  · refine .inr fun l v hm hvalid => ?_
    split at hm
    · exact enableWrites_fit (valid_ch hvalid) hm
    · exact disableWrites_fit (valid_ch hvalid) hm
  · refine .inr fun l' v hm _ => ?_
    cases List.mem_singleton.mp hm
    exact ⟨(decodeTarget_ok hl).2.1, hv⟩
  · exact .inr fun l v hm _ => absurd hm List.not_mem_nil

/-! ## What every step keeps -/

/-- The two states agree on the parameters, the trace, the fields, the log and the values returned. -/
structure SameRecord (u x : State) : Prop where
  cfg : x.cfg = u.cfg
  trace : x.trace = u.trace
  value : ∀ l, x.value l = u.value l
  log : x.log = u.log
  returned : x.returned = u.returned

theorem sameRecord_rdTarget {s u : State} {tgt : ReadTarget} {x : Word} (h : rdTarget s tgt = .ok (x, u)) :
    SameRecord s u := by
  obtain ⟨hcfg, hlog, hret, htrace, -⟩ := rdTarget_frame h
  exact ⟨hcfg, htrace, rdTarget_value h, hlog, hret⟩

/-- SETREF and SETEN before INIT record FC1 and nothing else (41_reference.md R142, 42_enable.md R160, R161). -/
theorem exec_notInitialized {i : Instr} {s : State} (hi : s.initialized = false)
    (hgate : (∃ imm, i = .setref imm) ∨ i = .setenOn ∨ i = .setenOff) :
    exec i s = .next (s.raise (.notInitialized (encode i))) := by
  rcases hgate with ⟨imm, rfl⟩ | rfl | rfl
  · simp [exec, execSetref, whenInitialized, hi]
  · simp [exec, execSetenOn, whenInitialized, hi]
  · simp [exec, execSetenOff, whenInitialized, hi]

/-- A SETREF with a code outside 0..4095 records a fault, FC1 or FC9, and nothing else. -/
theorem exec_setref_codeOut {s : State} {imm : Word} (h : CodeOutOfRange s.cfg imm) :
    ∃ m, exec (.setref imm) s = .next (s.raise m) := by
  cases hi : s.initialized with
  | true => exact ⟨_, exec_setref_out hi h⟩
  | false => exact ⟨_, exec_notInitialized hi (.inl ⟨imm, rfl⟩)⟩

/-- A property of the record that a checked write and a read-back keep is kept by every step. Under valid parameters a step
writes only values that fit fields that exist. -/
theorem step_keeps {s t : State} (P : State → Prop) (hc : ∀ u x, SameRecord u x → P u → P x)
    (hw : ∀ op l v u, u.cfg = s.cfg → (s.cfg.Valid → WriteFits s.cfg l v) → checkWrite u l v = .ok () → P u →
      P (performWrite op l v u))
    (hd : ∀ tgt x u, P u → P (u.recordRead .frd tgt x)) (hs : P s) (h : step s = .next t) : P t := by
  have hraise : ∀ m u, P u → P (u.raise m) := fun m u => hc u _ ⟨rfl, rfl, State.raise_value u m, rfl, rfl⟩
  obtain ⟨-, e, -, ⟨r, -, rfl⟩ | ⟨i, hdec, hex⟩⟩ := step_cases h
  · exact hc s _ ⟨rfl, rfl, State.refuse_value s r, rfl, rfl⟩ hs
  · rcases decode_writesFit hdec with ⟨imm, rfl, hcode⟩ | hfit
    · obtain ⟨m, hm⟩ := exec_setref_codeOut hcode
      cases hm.symm.trans hex
      exact hraise m s hs
    · refine (exec_preserves (fun u => u.cfg = s.cfg ∧ P u) ?_ ?_ ?_ ?_ ?_ ⟨rfl, hs⟩ hex).2
      · rintro l v hm u hck ⟨hcfg, hu⟩
        exact ⟨by simpa using hcfg, hw i.op l v u hcfg (hfit l v hm) hck hu⟩
      · exact fun m u ⟨hcfg, hu⟩ => ⟨hcfg, hraise m u hu⟩
      · exact fun u ⟨hcfg, hu⟩ => ⟨hcfg, hc u _ ⟨rfl, rfl, State.advance_value u, rfl, rfl⟩ hu⟩
      · exact fun _ u ⟨hcfg, hu⟩ => ⟨hcfg, hc u _ ⟨rfl, rfl, State.markInitialized_value u, rfl, rfl⟩ hu⟩
      · rintro tgt x u - hrd ⟨-, hu⟩
        have hsame := sameRecord_rdTarget hrd
        exact ⟨hsame.cfg, hd tgt x u (hc s u hsame hu)⟩

/-! ## The log only grows (10_state.md R40) -/

/-- From `s` to `u` the log has only grown, by events numbered from its length and issued by their commands' agents. -/
def LogGrown (s u : State) : Prop :=
  ∃ evs, u.log = s.log ++ evs ∧ ∀ k e, evs[k]? = some e → e.seq = s.log.length + k ∧ e.agent = e.op.agent

theorem LogGrown.append {s u x : State} {e : Event} (h : LogGrown s u) (hlog : x.log = u.log ++ [e])
    (hseq : e.seq = u.log.length) (hagent : e.agent = e.op.agent) : LogGrown s x := by
  obtain ⟨evs, hu, hevs⟩ := h
  refine ⟨evs ++ [e], by simp [hlog, hu], fun k e' hk => ?_⟩
  rcases lt_trichotomy k evs.length with hlt | rfl | hgt
  · rw [List.getElem?_append_left hlt] at hk
    exact hevs k e' hk
  · rw [List.getElem?_concat_length] at hk
    cases hk
    exact ⟨by simp [hseq, hu], hagent⟩
  · rw [List.getElem?_eq_none (by simp; omega)] at hk
    cases hk

/-- Settles O19: a write and a read-back each add one numbered event, and nothing else touches the log. -/
theorem stepOnlyAppendsToLog : Obligations.StepOnlyAppendsToLog := by
  intro s t h
  refine step_keeps (fun u => InstanceSame s u ∧ LogGrown s u) ?_ ?_ ?_ ⟨⟨rfl, rfl⟩, [], by simp⟩ h
  · rintro u x hsame ⟨⟨hcfg, htrace⟩, evs, hlog, hevs⟩
    exact ⟨⟨hsame.cfg.trans hcfg, hsame.trace.trans htrace⟩, evs, hsame.log.trans hlog, hevs⟩
  · rintro op l v u - - - ⟨⟨hcfg, htrace⟩, hgrown⟩
    exact ⟨⟨by simpa using hcfg, by simpa using htrace⟩, hgrown.append (performWrite_log op l v u) rfl rfl⟩
  · rintro tgt x u ⟨hinst, hgrown⟩
    exact ⟨hinst, hgrown.append (State.recordRead_log u .frd tgt x) rfl rfl⟩

theorem logNumbered_of_grown {s t : State} (h : LogGrown s t) (hs : LogNumbered s) : LogNumbered t := by
  obtain ⟨evs, hlog, hevs⟩ := h
  have hnew : evs.map Event.seq = (List.range evs.length).map (s.log.length + ·) := by
    apply List.ext_getElem
    · simp
    · intro k hk _
      rw [List.length_map] at hk
      simpa using (hevs k _ (List.getElem?_eq_getElem hk)).1
  rw [LogNumbered, hlog, List.map_append, hs, hnew, List.length_append, List.range_add]

theorem logAgents_of_grown {s t : State} (h : LogGrown s t) (hs : LogAgents s) : LogAgents t := by
  obtain ⟨evs, hlog, hevs⟩ := h
  intro e he
  rw [hlog, List.mem_append] at he
  rcases he with he | he
  · exact hs e he
  · obtain ⟨k, hk⟩ := List.mem_iff_getElem?.mp he
    exact (hevs k e hk).2

/-! ## The invariants of the record, one write or one read-back at a time -/

theorem valuesFit_performWrite {op : Op} {l : Loc} {v : Word} {u : State} (hfit : WriteFits u.cfg l v)
    (hu : ValuesFit u) : ValuesFit (performWrite op l v u) := by
  intro k x hk
  rw [performWrite_value] at hk
  rw [performWrite_cfg]
  split at hk
  · cases hk
    subst k
    exact hfit.2
  · exact hu k x hk

theorem absentUntouched_performWrite {op : Op} {l : Loc} {v : Word} {u : State} (hfit : WriteFits u.cfg l v)
    (hu : AbsentUntouched u) : AbsentUntouched (performWrite op l v u) := by
  intro k hk
  rw [performWrite_cfg] at hk
  have hne : k ≠ l := by
    rintro rfl
    rw [hfit.1] at hk
    cases hk
  rw [performWrite_value_ne op hne, performWrite_cfg, performWrite_trace]
  exact hu k hk

theorem known_performWrite {op : Op} {l k : Loc} {v : Word} {u : State} (hu : u.Known k) :
    (performWrite op l v u).Known k := by
  rw [State.Known, performWrite_value]
  split
  · simp
  · exact hu

/-- Check (c) leaves no second driver: a write that connects a buffer finds every other one disconnected. -/
theorem onePinDriver_performWrite {op : Op} {l : Loc} {v : Word} {u : State} (hck : checkWrite u l v = .ok ())
    (hu : OnePinDriver u) : OnePinDriver (performWrite op l v u) := by
  obtain ⟨-, -, hpin⟩ := checkWrite_ok.mp hck
  have hold : ∀ {d c : Chan}, d ≠ c → l = .chn c .outEn →
      (performWrite op l v u).value (.chn d .outEn) = .known 1#16 → u.value (.chn d .outEn) = .known 1#16 := by
    rintro d c hne rfl hd
    rwa [performWrite_value_ne op (by simpa using hne)] at hd
  have hone : ∀ {c : Chan}, l = .chn c .outEn →
      (performWrite op l v u).value (.chn c .outEn) = .known 1#16 → v = 1#16 := by
    rintro c rfl hc
    simpa using hc
  intro c d hc hd hvc hvd
  rw [performWrite_cfg] at hc hd
  by_contra hne
  by_cases hlc : l = .chn c .outEn
  · exact (hpin (hone hlc hvc) c hlc d hd (Ne.symm hne)).2 (hold (Ne.symm hne) hlc hvd)
  · by_cases hld : l = .chn d .outEn
    · exact (hpin (hone hld hvd) d hld c hc hne).2 (hold hne hld hvc)
    · rw [performWrite_value_ne op (Ne.symm hlc)] at hvc
      rw [performWrite_value_ne op (Ne.symm hld)] at hvd
      exact hne (hu c d hc hd hvc hvd)

theorem lastWritten_append (l : Loc) (start : FieldVal) (es new : List Event) :
    lastWritten l start (es ++ new) = lastWritten l (lastWritten l start es) new := by
  induction es generalizing start with
  | nil => rfl
  | cons e es ih =>
    simp only [List.cons_append, lastWritten]
    split
    · split <;> exact ih _
    · exact ih _

theorem logTellsFields_performWrite {op : Op} {l : Loc} {v : Word} {u : State} (hu : LogTellsFields u) :
    LogTellsFields (performWrite op l v u) := by
  intro k
  rw [performWrite_value, performWrite_log, performWrite_cfg, performWrite_trace, lastWritten_append, ← hu k]
  simp [lastWritten, writeEvent, eq_comm]

theorem logTellsFields_recordRead {op : Op} {tgt : ReadTarget} {x : Word} {u : State} (hu : LogTellsFields u) :
    LogTellsFields (u.recordRead op tgt x) := by
  intro k
  rw [State.recordRead_value, State.recordRead_log, State.recordRead_cfg, State.recordRead_trace,
    lastWritten_append, ← hu k]
  rfl

theorem logTellsReturned_performWrite {op : Op} {l : Loc} {v : Word} {u : State} (hu : LogTellsReturned u) :
    LogTellsReturned (performWrite op l v u) := by
  rw [LogTellsReturned, performWrite_returned, performWrite_log, List.filterMap_append, ← hu]
  simp [Event.readValue?, writeEvent]

theorem logTellsReturned_recordRead {op : Op} {tgt : ReadTarget} {x : Word} {u : State} (hu : LogTellsReturned u) :
    LogTellsReturned (u.recordRead op tgt x) := by
  rw [LogTellsReturned, State.recordRead_returned, State.recordRead_log, List.filterMap_append, ← hu]
  simp [Event.readValue?, readEvent]

/-! ## The invariants of the record, one step at a time -/

section Steps

variable {s t : State} (h : step s = .next t)
include h

theorem step_keeps_valuesFit (hv : s.cfg.Valid) (hs : ValuesFit s) : ValuesFit t :=
  step_keeps ValuesFit (fun u x hsame hu l v hl => by rw [hsame.value] at hl; rw [hsame.cfg]; exact hu l v hl)
    (fun _ _ _ _ hcfg hfit _ => valuesFit_performWrite (by rw [hcfg]; exact hfit hv))
    (fun tgt x u hu l v hl => hu l v (State.recordRead_value u .frd tgt x l ▸ hl)) hs h

theorem step_keeps_absentUntouched (hv : s.cfg.Valid) (hs : AbsentUntouched s) : AbsentUntouched t :=
  step_keeps AbsentUntouched
    (fun u x hsame hu l hl => by rw [hsame.cfg] at hl; rw [hsame.value, hsame.cfg, hsame.trace]; exact hu l hl)
    (fun _ _ _ _ hcfg hfit _ => absentUntouched_performWrite (by rw [hcfg]; exact hfit hv))
    (fun tgt x u hu l hl => (State.recordRead_value u .frd tgt x l).trans (hu l hl)) hs h

theorem step_keeps_known {l : Loc} (hs : s.Known l) : t.Known l :=
  step_keeps (fun u => u.Known l) (fun u x hsame hu => by rwa [State.Known, hsame.value])
    (fun _ _ _ _ _ _ _ => known_performWrite) (fun tgt x u hu => by rwa [State.Known, State.recordRead_value]) hs h

theorem step_keeps_onePinDriver (hs : OnePinDriver s) : OnePinDriver t :=
  step_keeps OnePinDriver (fun u x hsame hu => by simpa only [OnePinDriver, hsame.value, hsame.cfg] using hu)
    (fun _ _ _ _ _ _ hck => onePinDriver_performWrite hck)
    (fun tgt x u hu => by simpa only [OnePinDriver, State.recordRead_value, State.recordRead_cfg] using hu) hs h

theorem step_keeps_logTellsFields (hs : LogTellsFields s) : LogTellsFields t :=
  step_keeps LogTellsFields
    (fun u x hsame hu => by simpa only [LogTellsFields, hsame.value, hsame.cfg, hsame.trace, hsame.log] using hu)
    (fun _ _ _ _ _ _ _ => logTellsFields_performWrite) (fun _ _ _ => logTellsFields_recordRead) hs h

theorem step_keeps_logTellsReturned (hs : LogTellsReturned s) : LogTellsReturned t :=
  step_keeps LogTellsReturned (fun u x hsame hu => by rwa [LogTellsReturned, hsame.returned, hsame.log])
    (fun _ _ _ _ _ _ _ => logTellsReturned_performWrite) (fun _ _ _ => logTellsReturned_recordRead) hs h

end Steps

/-! ## How a command ends: at a fault, or with all its writes performed -/

theorem wrAll_initialized (op : Op) (ws : List (Loc × Word)) (s : State) :
    (wrAll op ws s).state.initialized = s.initialized :=
  wrAll_preserves (fun u => u.initialized = s.initialized)
    (fun l v _ u _ hu => (performWrite_initialized op l v u).trans hu) (fun _ _ hu => hu) rfl

/-- The command has recorded a fault; `initialized`, the refusal mark and the index are as they were. -/
structure EndedAtFault (s t : State) : Prop where
  fault : t.fault ≠ none
  initialized : t.initialized = s.initialized
  refused : t.refused = s.refused
  index : t.index = s.index

/-- The command `i` has performed all its writes, and the index went up; only INIT sets `initialized`. -/
structure EndedAfterWrites (i : Instr) (s t : State) : Prop where
  allowed : AllAllowed i.op (commandWrites s.cfg i) s
  value : ∀ l, t.value l = (performAll i.op (commandWrites s.cfg i) s).value l
  cfg : t.cfg = s.cfg
  initialized : i ≠ .init → t.initialized = s.initialized
  fault : t.fault = s.fault
  refused : t.refused = s.refused
  index : t.index = s.index + 1

theorem endedAtFault_raise (s : State) (m : FaultMark) : EndedAtFault s (s.raise m) := ⟨by simp, rfl, rfl, rfl⟩

theorem endedAtFault_wrAll {op : Op} {ws : List (Loc × Word)} {s t : State} (h : wrAll op ws s = .stopped t) :
    EndedAtFault s t := by
  obtain ⟨hfault, hrefused, hindex⟩ := wrAll_stopped h
  have hinit := wrAll_initialized op ws s
  rw [h] at hinit
  exact ⟨hfault, hinit, hrefused, hindex⟩

/-- Where a command that is its writes ends. -/
theorem wrAll_ends {i : Instr} {s t : State} (h : (wrAll i.op (commandWrites s.cfg i) s).finish = .next t) :
    EndedAtFault s t ∨ EndedAfterWrites i s t := by
  rcases hw : wrAll i.op (commandWrites s.cfg i) s with u | u <;> rw [hw] at h <;> cases h
  · obtain ⟨hall, rfl⟩ := wrAll_going.mp hw
    obtain ⟨hcfg, hinit, hfault, hrefused, -, hindex, -, -⟩ := performAll_frame i.op (commandWrites s.cfg i) s
    exact .inr ⟨hall, State.advance_value _, hcfg, fun _ => hinit, hfault, hrefused, congrArg (· + 1) hindex⟩
  · exact .inl (endedAtFault_wrAll hw)

/-- Every command ends at a fault, or after all its writes. -/
theorem exec_ends {i : Instr} {s t : State} (h : exec i s = .next t) : EndedAtFault s t ∨ EndedAfterWrites i s t := by
  have hraise : ∀ m, (Progress.stopped (s.raise m)).finish = .next t → EndedAtFault s t := by
    intro m hm
    cases hm
    exact endedAtFault_raise s m
  cases i with
  | init =>
    simp only [exec, execInit] at h
    split at h
    · exact .inl (hraise _ h)
    · rcases hw : wrAll .init (initWrites s.cfg) s with u | u <;> rw [hw] at h <;> cases h
      · obtain ⟨hall, rfl⟩ := wrAll_going.mp hw
        obtain ⟨hcfg, -, hfault, hrefused, -, hindex, -, -⟩ := performAll_frame .init (initWrites s.cfg) s
        refine .inr ⟨hall, fun l => ?_, hcfg, fun hne => absurd rfl hne, hfault, hrefused, congrArg (· + 1) hindex⟩
        rw [State.advance_value, State.markInitialized_value]
        rfl
      · exact .inl (endedAtFault_wrAll hw)
  | setref imm =>
    cases hi : s.initialized with
    | true =>
      by_cases hcode : CodeOutOfRange s.cfg imm
      · exact .inl (hraise _ ((exec_setref_out hi hcode).symm.trans h))
      · rw [exec_setref_in hi hcode, ← wrAll_single] at h
        exact wrAll_ends h
    | false => exact .inl (hraise _ ((exec_notInitialized hi (.inl ⟨imm, rfl⟩)).symm.trans h))
  | setenOn =>
    cases hi : s.initialized with
    | true => exact wrAll_ends ((exec_setenOn hi).symm.trans h)
    | false => exact .inl (hraise _ ((exec_notInitialized hi (.inr (.inl rfl))).symm.trans h))
  | setenOff =>
    cases hi : s.initialized with
    | true => exact wrAll_ends ((exec_setenOff hi).symm.trans h)
    | false => exact .inl (hraise _ ((exec_notInitialized hi (.inr (.inr rfl))).symm.trans h))
  | fwr l v =>
    rw [exec_fwr, ← wrAll_single] at h
    exact wrAll_ends h
  | frd tgt =>
    simp only [exec, execFrd] at h
    split at h
    · exact .inl (hraise _ h)
    · rename_i x u hrd
      cases h
      obtain ⟨hcfg, -, -, -, hinit, hindex, hfault, hrefused⟩ := rdTarget_frame hrd
      refine .inr ⟨trivial, fun l => ?_, hcfg, fun _ => hinit, hfault, hrefused, congrArg (· + 1) hindex⟩
      rw [State.advance_value, State.recordRead_value, rdTarget_value hrd]
      rfl

/-! ## The invariants that rest on how a command ends -/

theorem performAll_keeps_known (op : Op) (ws : List (Loc × Word)) {s : State} {l : Loc} (h : s.Known l) :
    (performAll op ws s).Known l := by
  induction ws generalizing s with
  | nil => exact h
  | cons w ws ih => exact ih (known_performWrite h)

theorem performAll_known (op : Op) {ws : List (Loc × Word)} {l : Loc} {v : Word} (h : (l, v) ∈ ws) (s : State) :
    (performAll op ws s).Known l := by
  induction ws generalizing s with
  | nil => cases h
  | cons w ws ih =>
    rcases List.mem_cons.mp h with rfl | h
    · exact performAll_keeps_known op ws (by simp [State.Known])
    · exact ih h _

/-- The last step of INIT that writes the field, where the field is channel CH's or shared (40_initializer.md R110). -/
def initStepOf : Loc → InitStep
  | .sh .clkSel => .s1
  | .sh .clkDiv => .s2
  | .sh .fclkDiv => .s3
  | .sh .idleCtl => .s4
  | .sh .moduleEn => .s5
  | .sh .tmodTime => .s6
  | .sh .ssTime => .s7
  | .chn _ .chEn => .c1
  | .chn _ .irqMode => .c2
  | .chn _ .blankEn => .c3
  | .chn _ .outEn => .c4
  | .chn _ .filtEn => .c5
  | .chn _ .polarity => .c6
  | .chn _ .inSel => .c7
  | .chn _ .hysPol => .c8
  | .chn _ .hysSel => .c11
  | .chn _ .blankTime => .c10
  | .chn _ .datLow => .r1
  | .chn _ .datHigh => .r2
  | .wg _ .slopeEn => .w1
  | .wg _ .hystModeEn => .w2
  | .wg _ .triModeEn => .w3
  | .wg _ .slopePol => .w4
  | .wg _ .hcFsel => .w5
  | .wg _ (.stopSel j) => .w6 j
  | .wg _ .startSel => .w7
  | .wg _ .slopeRate => .w8

/-- INIT's step for a field that R113 lists is in the canonical order and writes that field. -/
theorem initStepOf_writes {cfg : Config} {l : Loc} (h : (afterInit cfg l).isSome = true) :
    initStepOf l ∈ InitStep.canonical cfg.nStop ∧ (initWrite cfg (initStepOf l)).1 = l := by
  rw [mem_canonical]
  have hch : ∀ c, l.channel? = some c → c = cfg.ch := by
    intro c hc
    by_contra hne
    cases l with
    | sh f => cases hc
    | chn d f =>
      cases hc
      simp [afterInit, hne] at h
    | wg d f =>
      cases hc
      cases f <;> simp [afterInit, hne] at h
  cases l with
  | sh f => cases f <;> simp [initStepOf, initWrite]
  | chn c f => cases f <;> simp [initStepOf, initWrite, hch c rfl]
  | wg c f =>
    cases f with
    | stopSel j =>
      have hj : j.val < cfg.nStop := by
        by_contra hne
        simp [afterInit, hne] at h
      simp [initStepOf, initWrite, hch c rfl, hj]
    | _ => simp [initStepOf, initWrite, hch c rfl]

/-- INIT writes every field that R113 lists, in every order R114 allows. -/
theorem initWrites_cover {cfg : Config} (hv : cfg.OrderValid) {l : Loc} (h : (afterInit cfg l).isSome = true) :
    ∃ v, (l, v) ∈ initWrites cfg := by
  obtain ⟨hmem, hloc⟩ := initStepOf_writes h
  exact ⟨(initWrite cfg (initStepOf l)).2, List.mem_map.mpr ⟨_, hv.1.mem_iff.mpr hmem, Prod.ext hloc rfl⟩⟩

section Ends

variable {s t : State} (h : step s = .next t)
include h

theorem step_keeps_initializedKnown (hv : s.cfg.OrderValid) (hs : InitializedKnown s) : InitializedKnown t := by
  intro hi l hl
  obtain ⟨⟨hcfg, -⟩, -⟩ := stepOnlyAppendsToLog s t h
  rw [hcfg] at hl
  have hold : t.initialized = s.initialized → t.Known l := fun he => step_keeps_known h (hs (he ▸ hi) l hl)
  obtain ⟨-, e, -, ⟨r, -, rfl⟩ | ⟨i, -, hex⟩⟩ := step_cases h
  · exact hold rfl
  · rcases exec_ends hex with hend | hend
    · exact hold hend.initialized
    · by_cases hinit : i = .init
      · subst hinit
        obtain ⟨v, hmem⟩ := initWrites_cover hv hl
        rw [State.Known, hend.value]
        exact performAll_known _ hmem s
      · exact hold (hend.initialized hinit)

theorem step_keeps_liveWhileRunning (hs : LiveWhileRunning s) : LiveWhileRunning t := by
  obtain ⟨⟨hf, -⟩, e, -, ⟨r, -, rfl⟩ | ⟨i, -, hex⟩⟩ := step_cases h
  · exact fun _ => (liveConfigOk_congr (State.refuse_cfg s r) (State.refuse_value s r)).mpr (hs hf)
  · rcases exec_ends hex with hend | hend
    · exact fun hn => absurd hn hend.fault
    · have hcfg := (performAll_frame i.op (commandWrites s.cfg i) s).1
      exact fun _ => (liveConfigOk_congr (hend.cfg.trans hcfg.symm) hend.value).mpr
        (wrAll_live (hs hf) (wrAll_going.mpr ⟨hend.allowed, rfl⟩))

/-- A refusal leaves the fault mark as it was, and a command leaves the refusal mark as it was. -/
theorem step_oneMark : OneMark t := by
  obtain ⟨⟨hf, hr⟩, e, -, ⟨r, -, rfl⟩ | ⟨i, -, hex⟩⟩ := step_cases h
  · exact .inl hf
  · exact .inr ((exec_ends hex).elim (·.refused.trans hr) (·.refused.trans hr))

/-- A step runs only from an index inside the trace, and moves it by at most one. -/
theorem step_indexInTrace : IndexInTrace t := by
  obtain ⟨⟨-, htrace⟩, -⟩ := stepOnlyAppendsToLog s t h
  obtain ⟨-, e, he, hcase⟩ := step_cases h
  have hlt : s.index < s.trace.length := (List.getElem?_eq_some_iff.mp he).1
  rw [IndexInTrace, htrace]
  rcases hcase with ⟨r, -, rfl⟩ | ⟨i, -, hex⟩
  · exact hlt.le
  · rcases exec_ends hex with hend | hend
    · exact hend.index.trans_le hlt.le
    · exact hend.index.trans_le hlt

end Ends

/-- Settles O57: each part of the invariant by its own step lemma, the numbering and the agents of the log by O19. -/
theorem stepKeepsRunInvariant : Obligations.StepKeepsRunInvariant := by
  intro s t hs h
  obtain ⟨⟨hcfg, -⟩, hgrown⟩ := stepOnlyAppendsToLog s t h
  exact
    { valid := hcfg.symm ▸ hs.valid
      fit := step_keeps_valuesFit h hs.valid hs.fit
      absent := step_keeps_absentUntouched h hs.valid hs.absent
      known := ⟨step_keeps_known h hs.known.1, fun c hc =>
        (hs.known.2 c (hcfg ▸ hc)).imp (step_keeps_known h) (step_keeps_known h)⟩
      initKnown := step_keeps_initializedKnown h (valid_order hs.valid) hs.initKnown
      onePin := step_keeps_onePinDriver h hs.onePin
      liveOk := step_keeps_liveWhileRunning h hs.liveOk
      logTells := step_keeps_logTellsFields h hs.logTells
      numbered := logNumbered_of_grown hgrown hs.numbered
      agents := logAgents_of_grown hgrown hs.agents
      returnedTold := step_keeps_logTellsReturned h hs.returnedTold
      oneMark := step_oneMark h
      indexIn := step_indexInTrace h }

end Sys2Proof.Machine
end

section
/-!
PROOFS. The state family (10_state.md): what reset leaves, the marks, the trace index, `initialized`, the fields each command
writes, and the live check of the waveform modes.
-/

namespace Sys2Proof.Machine

/-! ## The marks (10_state.md R41) -/

theorem step_of_fault {s : State} {m : FaultMark} (h : s.fault = some m) : step s = .fault (.runFaulted m) := by
  simp only [step, h]

theorem step_of_refused {s : State} {r : RefusalReason} (hf : s.fault = none) (hr : s.refused = some r) :
    step s = .refused (.runRefused r) := by
  simp only [step, hf, hr]

/-- Settles O16: a step runs only from a state with no mark, and either mark is answered by name. -/
theorem markedStateTakesNoStep : Obligations.MarkedStateTakesNoStep := by
  refine ⟨fun _ _ => ⟨rfl, rfl⟩, fun s t hmark h => ?_, fun _ _ => step_of_fault, fun _ _ => step_of_refused⟩
  obtain ⟨⟨hf, hr⟩, -⟩ := step_cases h
  exact hmark.elim (absurd hf) (absurd hr)

/-! ## The state after reset (10_state.md R24) -/

/-- A read-back of a field that holds `Unknown` records FC4 and nothing else (20_memory.md R62). -/
theorem exec_frd_unknown {s : State} {l : Loc} (h : s.value l = .unknown) :
    FaultedOnly s (.unknownRead l) (exec (.frd (.field l)) s) := by
  simp only [FaultedOnly, exec, execFrd, rdTarget, rd_error.mpr ⟨h, rfl⟩, Progress.finish_stopped, State.raise]

/-- Settles O20: the fields by `State.boot_value`, and FC4 on a read of an `Unknown` one. -/
theorem resetLeavesBootQuiet : Obligations.ResetLeavesBootQuiet := by
  intro cfg tr
  refine ⟨by simp [State.boot_value], fun f hf => by simp [State.boot_value, hf], fun c _ => ⟨?_, ?_, ?_, ?_⟩,
    rfl, rfl, rfl, rfl, rfl, List.head?_eq_getElem?.symm, fun l hl => exec_frd_unknown hl⟩
  · simp [State.boot_value]
  · simp [State.boot_value]
  · intro f hch hout
    simp [State.boot_value, hch, hout]
  · simp [State.boot_value]

/-! ## The trace index (10_state.md R25) -/

/-- Settles O18: a refusal and a fault leave a mark and the index; every other end of a command leaves neither mark and adds
one. -/
theorem traceIndexCountsCommands : Obligations.TraceIndexCountsCommands := by
  refine ⟨fun _ _ => rfl, fun s t h => ?_⟩
  obtain ⟨⟨hf, hr⟩, e, -, ⟨r, -, rfl⟩ | ⟨i, -, hex⟩⟩ := step_cases h
  · exact ⟨fun ⟨_, hn⟩ => (Option.some_ne_none r hn).elim, fun _ => rfl⟩
  · rcases exec_ends hex with hend | hend
    · exact ⟨fun ⟨hn, _⟩ => (hend.fault hn).elim, fun _ => hend.index⟩
    · exact ⟨fun _ => hend.index, fun hn => (hn ⟨hend.fault.trans hf, hend.refused.trans hr⟩).elim⟩

/-! ## `initialized` (10_state.md R39) -/

/-- INIT stops at a fault, or ends by setting `initialized`. -/
theorem exec_init_initialized {s t : State} (h : exec .init s = .next t) : t.fault ≠ none ∨ t.initialized = true := by
  simp only [exec, execInit] at h
  split at h
  · cases h
    exact .inl (by simp)
  · rcases hw : wrAll .init (initWrites s.cfg) s with u | u <;> rw [hw] at h <;> cases h
    · exact .inr rfl
    · exact .inl (endedAtFault_wrAll hw).fault

/-- No command but INIT changes `initialized`. -/
theorem exec_keeps_initialized {i : Instr} {s t : State} (hi : i ≠ .init) (h : exec i s = .next t) :
    t.initialized = s.initialized :=
  (exec_ends h).elim (·.initialized) (·.initialized hi)

theorem exec_init_again {s : State} (h : s.initialized = true) : exec .init s = .next (s.raise (.reInit (encode .init))) := by
  simp only [exec, execInit, initPrecheck, h, if_true, Progress.finish_stopped]

/-- Settles O33: INIT ends by setting `initialized`, the other commands end with what they found, and the two gates record
the encoded command. -/
theorem initializedGatesTheOperations : Obligations.InitializedGatesTheOperations := by
  refine ⟨fun _ _ => rfl, fun s t _ h hn => (exec_init_initialized h).resolve_left (absurd hn),
    fun i s t => exec_keeps_initialized, fun s hi => ⟨fun imm => ?_, ?_, ?_⟩, fun s hi => exec_init_again hi⟩
  · exact exec_notInitialized hi (.inl ⟨imm, rfl⟩)
  · exact exec_notInitialized hi (.inr (.inl rfl))
  · exact exec_notInitialized hi (.inr (.inr rfl))

/-! ## The fields a command writes (10_state.md R42) -/

theorem initWrite_mayWrite (cfg : Config) (a : InitStep) : mayWrite cfg .init (initWrite cfg a).1 := by
  cases a <;> simp [mayWrite, initWrite, Loc.channel?]

/-- A command's writes are of the fields that the table of R42 gives it. -/
theorem commandWrites_mayWrite {cfg : Config} {i : Instr} {l : Loc} {v : Word} (h : (l, v) ∈ commandWrites cfg i) :
    mayWrite cfg i l := by
  cases i with
  | init =>
    obtain ⟨a, -, hw⟩ := List.mem_map.mp h
    have hmay := initWrite_mayWrite cfg a
    rwa [hw] at hmay
  | setref imm => exact (Prod.mk.inj (List.mem_singleton.mp h)).1
  | setenOn => rcases List.mem_pair.mp h with h | h <;> cases h <;> simp [mayWrite]
  | setenOff =>
    rcases List.mem_cons.mp h with h | h
    · cases h
      simp [mayWrite]
    · rcases List.mem_pair.mp h with h | h <;> cases h <;> simp [mayWrite]
  | fwr k x => exact (Prod.mk.inj (List.mem_singleton.mp h)).1
  | frd tgt => cases h

/-- The table gives the commands of ctl no field of a channel other than CH. -/
theorem mayWrite_channel {cfg : Config} {i : Instr} {l : Loc} {c : Chan} (hi : i.agent = .ctl) (hc : l.channel? = some c)
    (h : mayWrite cfg i l) : c = cfg.ch := by
  cases i with
  | init =>
    rcases h with h | h <;> rw [h] at hc <;> cases hc
    rfl
  | setref imm => cases h; cases hc; rfl
  | setenOn => rcases h with rfl | rfl <;> cases hc; rfl
  | setenOff => rcases h with rfl | rfl | rfl <;> cases hc <;> rfl
  | fwr k x => cases hi
  | frd tgt => cases hi

/-- A field outside the table keeps its value, where the command stops too. -/
theorem exec_value_of_not_mayWrite {i : Instr} {s t : State} {l : Loc} (he : exec i s = .next t)
    (hl : ¬ mayWrite s.cfg i l) : t.value l = s.value l := by
  refine exec_preserves (fun u => u.value l = s.value l) ?_ ?_ ?_ ?_ ?_ rfl he
  · intro k v hm u _ hu
    have hne : l ≠ k := fun heq => hl (heq ▸ commandWrites_mayWrite hm)
    exact (performWrite_value_ne i.op hne v u).trans hu
  · exact fun m u hu => (State.raise_value u m l).trans hu
  · exact fun u hu => (State.advance_value u l).trans hu
  · exact fun _ u hu => (State.markInitialized_value u l).trans hu
  · exact fun tgt x u _ hrd _ => (State.recordRead_value u .frd tgt x l).trans (rdTarget_value hrd l)

/-- No command makes a known field `Unknown`: what a write leaves is known. -/
theorem exec_keeps_known {i : Instr} {s t : State} {l : Loc} (he : exec i s = .next t) (hl : s.Known l) : t.Known l := by
  refine exec_preserves (fun u => u.Known l) ?_ ?_ ?_ ?_ ?_ hl he
  · exact fun _ _ _ _ _ => known_performWrite
  · exact fun m u hu => by rwa [State.Known, State.raise_value]
  · exact fun u hu => by rwa [State.Known, State.advance_value]
  · exact fun _ u hu => by rwa [State.Known, State.markInitialized_value]
  · exact fun tgt x u _ hrd hu => by rwa [State.Known, State.recordRead_value, rdTarget_value hrd]

/-- Settles O51: a command's writes are of its own fields, for ctl those of no other channel, and of known values. -/
theorem commandsWriteOnlyTheirFields : Obligations.CommandsWriteOnlyTheirFields := by
  intro i s t he
  refine ⟨fun l hl => exec_value_of_not_mayWrite he hl, fun hi l c hc hne => ?_, fun l hl => exec_keeps_known he hl⟩
  exact exec_value_of_not_mayWrite he fun hm => hne (mayWrite_channel hi hc hm)

/-! ## The live check of the waveform modes (10_state.md R32, 20_memory.md R64) -/

/-- The waveform modes clash: hysteretic mode with slope on, or triangle mode with slope off. -/
def WaveClash (hyst tri slope : Word) : Prop := (hyst = 1#16 ∧ slope = 1#16) ∨ (tri = 1#16 ∧ slope = 0#16)

theorem rdIs_known {s : State} {l : Loc} {x v : Word} (h : s.value l = .known x) : rdIs s l v = .ok (x == v) := by
  simp only [rdIs, rd, h]

theorem wgOk_clash {s : State} {c : Chan} {hyst tri slope : Word} (hh : s.value (.wg c .hystModeEn) = .known hyst)
    (ht : s.value (.wg c .triModeEn) = .known tri) (hp : s.value (.wg c .slopeEn) = .known slope)
    (hclash : WaveClash hyst tri slope) : wgOk s c = .ok false := by
  rcases hclash with ⟨rfl, rfl⟩ | ⟨rfl, rfl⟩
  · simp [wgOk, andAlso, rdIs_known hh, rdIs_known hp]
  · cases hb : hyst == 1#16 <;> simp [wgOk, andAlso, rdIs_known hh, rdIs_known ht, rdIs_known hp, hb]

/-- The live check goes past channels whose modes are exclusive. -/
theorem checkChannels_append {s : State} {lower rest : List Chan}
    (h : ∀ d ∈ lower, s.value (.chn d .chEn) = .known 1#16 → WaveOk s d) :
    checkChannels s (lower ++ rest) = checkChannels s rest := by
  induction lower with
  | nil => rfl
  | cons d lower ih =>
    obtain ⟨hd, hlower⟩ := List.forall_mem_cons.mp h
    rw [List.cons_append, checkChannels, ih hlower]
    by_cases hen : s.value (.chn d .chEn) = .known 1#16
    · simp only [hen, if_true, wgOk_true.mpr (hd hen)]
    · simp only [hen, if_false]

/-- With the timing windows in order the live check stops with FC8 at the lowest live channel whose modes clash. -/
theorem checkLive_clash {s : State} {c : Chan} {hyst tri slope : Word} (hsh : SharedTimingOk s) (hc : c.val < s.cfg.nCh)
    (hlive : live s c = true) (hh : s.value (.wg c .hystModeEn) = .known hyst)
    (ht : s.value (.wg c .triModeEn) = .known tri) (hp : s.value (.wg c .slopeEn) = .known slope)
    (hclash : WaveClash hyst tri slope) (hlow : ∀ d : Chan, d.val < c.val → live s d = true → WaveOk s d) :
    checkLive s = .error (.configInvariant (.channel c)) := by
  obtain ⟨hon, hen⟩ := live_true.mp hlive
  obtain ⟨lower, upper, hsplit, hlower⟩ := channels_split hc
  have hpass : ∀ d ∈ lower, s.value (.chn d .chEn) = .known 1#16 → WaveOk s d :=
    fun d hd hdEn => hlow d (hlower d hd) (live_true.mpr ⟨hon, hdEn⟩)
  simp only [checkLive, moduleOn_true.mpr hon, if_true, shOk_true.mpr hsh, hsplit, checkChannels_append hpass,
    checkChannels, hen, wgOk_clash hh ht hp hclash]

theorem checkChannels_performWrite (op : Op) (l : Loc) (v : Word) (s : State) (cs : List Chan) :
    checkChannels (performWrite op l v s) cs = checkChannels (s.setValue l (.known v)) cs := by
  induction cs with
  | nil => rfl
  | cons c cs ih =>
    rw [checkChannels, ih]
    rfl

/-- The live check of the written state is that of the state with the field replaced: the log event plays no part. -/
theorem checkLive_performWrite (op : Op) (l : Loc) (v : Word) (s : State) :
    checkLive (performWrite op l v s) = checkLive (s.setValue l (.known v)) := by
  rw [checkLive, checkChannels_performWrite]
  rfl

/-- FWR of a write that fails the live check leaves the written field, its one event and the index unmoved
(60_exceptions.md R232). -/
theorem exec_fwr_failsLive {s : State} {l : Loc} {v : Word} {m : FaultMark} (hck : checkWrite s l v = .ok ())
    (hlive : checkLive (s.setValue l (.known v)) = .error m) :
    ∃ t, exec (.fwr l v) s = .next t ∧ t.fault = some m ∧ t.value l = .known v ∧ FieldsSameBut s t [l] ∧
      t.log = s.log ++ [wroteEvent s.log.length .fwr l (s.value l) v] ∧ t.index = s.index := by
  obtain ⟨huse, hen, hpin⟩ := checkWrite_ok.mp hck
  refine ⟨_, exec_fwr_late huse hen hpin ((checkLive_performWrite .fwr l v s).trans hlive), rfl, by simp, fun k hk => ?_,
    by simp [writeEvent, wroteEvent], by simp⟩
  rw [State.raise_value, performWrite_value_ne .fwr (by simpa using hk)]

/-- Settles O45: the write passes its checks, and the live check then stops at the lowest channel that clashes. -/
theorem brokenWaveformModeFaultsAfterTheWrite : Obligations.BrokenWaveformModeFaultsAfterTheWrite := by
  intro s l v hyst tri slope c huse hen hpin u hsh hc hlive hh ht hp hclash hlow
  exact exec_fwr_failsLive (checkWrite_ok.mpr ⟨huse, hen, hpin⟩) (checkLive_clash hsh hc hlive hh ht hp hclash hlow)

end Sys2Proof.Machine
end

section
/-!
PROOFS. The memory family (20_memory.md): the checks before a write and the live check after it, a read of an `Unknown` field,
and what a step keeps of the log's account of the fields and of the live invariants.
-/

namespace Sys2Proof.Machine

/-! ## What a step keeps (20_memory.md R64, R70) -/

/-- Settles O54: of all that a step does, only a write changes fields, and it logs the value it leaves. -/
theorem stepKeepsFieldsAsLogged : Obligations.StepKeepsFieldsAsLogged := fun _ _ hs h => step_keeps_logTellsFields h hs

/-- Settles O56: a command that ends with no fault has passed the live check after each of its writes, and a refusal changes no
field. -/
theorem stepKeepsLiveConfiguration : Obligations.StepKeepsLiveConfiguration :=
  fun _ _ hs h => step_keeps_liveWhileRunning h hs

/-! ## Writes that fail a check before the write (20_memory.md R63) -/

/-- FWR of a write that stops in the state before it has done nothing but record the fault. -/
theorem exec_fwr_stoppedBefore {s : State} {l : Loc} {v : Word} {m : FaultMark} (h : wr .fwr l v s = .stopped (s.raise m)) :
    FaultedOnly s m (exec (.fwr l v) s) := by
  rw [FaultedOnly, exec_fwr, h, Progress.finish_stopped, State.raise]

theorem wr_failsCheck {op : Op} {s : State} {l : Loc} {v : Word} {m : FaultMark} (h : checkWrite s l v = .error m) :
    wr op l v s = .stopped (s.raise m) := by
  simp only [wr, h]

/-- Check (a) comes first: a write of configuration in use fails with FC7. -/
theorem checkWrite_inUse {s : State} {l : Loc} {v : Word} (h : InUse s l) :
    checkWrite s l v = .error (.liveReconfig l (s.value l) v) := by
  simp only [checkWrite, checkReconfig_inUse h]

/-- Checks (a) and (b) pass a write of an output-buffer enable, which is left to check (c). -/
theorem checkWrite_outEn (s : State) (c : Chan) (v : Word) : checkWrite s (.chn c .outEn) v = checkPin s (.chn c .outEn) v :=
  rfl

/-- Check (c) fails with FC6 where another channel of the instance drives the pin, and names such a channel. -/
theorem checkPin_contended {s : State} {c d : Chan} (hknown : ∀ e : Chan, e.val < s.cfg.nCh → s.Known (.chn e .outEn))
    (hd : d.val < s.cfg.nCh) (hne : d ≠ c) (hdrives : s.value (.chn d .outEn) = .known 1#16) :
    ∃ other : Chan, other.val < s.cfg.nCh ∧ other ≠ c ∧ s.value (.chn other .outEn) = .known 1#16 ∧
      checkPin s (.chn c .outEn) 1#16 = .error (.pinContention (.chn c .outEn) other) := by
  have hmem : ∀ e : Chan, e ∈ s.cfg.channels.filter (fun c2 => c2 ≠ c) ↔ e.val < s.cfg.nCh ∧ e ≠ c := fun e => by
    simp [mem_channels]
  obtain ⟨other, hfirst⟩ := firstConnected_finds (fun e he => hknown e ((hmem e).mp he).1)
    ⟨d, (hmem d).mpr ⟨hd, hne⟩, hdrives⟩
  obtain ⟨hin, hother⟩ := firstConnected_some hfirst
  obtain ⟨hlt, hnec⟩ := (hmem other).mp hin
  exact ⟨other, hlt, hnec, hother, by simp only [checkPin, if_true, hfirst]⟩

/-- Settles O41: check (a) fails on every field in use, and it is the first check. -/
theorem configurationInUseIsNotRewritten : Obligations.ConfigurationInUseIsNotRewritten :=
  fun _ _ _ huse => exec_fwr_stoppedBefore (wr_failsCheck (checkWrite_inUse huse))

/-- Settles O42: check (b) fails for each of the two enable fields. -/
theorem enableBehindConnectedBufferFaults : Obligations.EnableBehindConnectedBufferFaults :=
  ⟨fun _ _ _ hchange hdrives => exec_fwr_stoppedBefore (wr_chEn_stop hchange hdrives),
   fun _ _ d hchange hknown hd hdrives => exec_fwr_stoppedBefore (wr_moduleEn_stop hchange hknown ⟨d, hd, hdrives⟩)⟩

/-- Settles O43: checks (a) and (b) pass the write, and check (c) finds another driver. -/
theorem secondPinDriverFaults : Obligations.SecondPinDriverFaults := by
  intro s c d hknown hd hne hdrives
  obtain ⟨other, hlt, hnec, hother, hpin⟩ := checkPin_contended hknown hd hne hdrives
  exact ⟨other, hlt, hnec, hother, exec_fwr_stoppedBefore (wr_failsCheck ((checkWrite_outEn s c _).trans hpin))⟩

/-! ## Writes that fail the live check of the timing windows (20_memory.md R64) -/

/-- With the module on, windows out of order stop the live check with FC8 before any channel is looked at. -/
theorem checkLive_timingBroken {s : State} {tm ss : Word} (hon : s.value (.sh .moduleEn) = .known 1#16)
    (htm : s.value (.sh .tmodTime) = .known tm) (hss : s.value (.sh .ssTime) = .known ss) (hle : ss.toNat ≤ tm.toNat) :
    checkLive s = .error (.configInvariant .shared) := by
  simp only [checkLive, moduleOn_true.mpr hon, if_true, shOk_false.mpr ⟨tm, ss, htm, hss, hle⟩]

/-- The window `f` is the first of the two, in the order the live check reads them, that holds `Unknown`. -/
def FirstUnknownWindow (s : State) (f : ShField) : Prop :=
  (f = .tmodTime ∧ s.value (.sh .tmodTime) = .unknown) ∨
    (f = .ssTime ∧ s.Known (.sh .tmodTime) ∧ s.value (.sh .ssTime) = .unknown)

/-- The timing check reads `tmod_time` before `ss_time`, and the first that holds `Unknown` is FC4. -/
theorem shOk_unknown {s : State} {f : ShField} (h : FirstUnknownWindow s f) : shOk s = .error (.unknownRead (.sh f)) := by
  rcases h with ⟨rfl, htm⟩ | ⟨rfl, htm, hss⟩
  · simp only [shOk, rd_error.mpr ⟨htm, rfl⟩]
  · cases hv : s.value (.sh .tmodTime) with
    | unknown => exact absurd hv htm
    | known tm => simp only [shOk, rd_ok.mpr hv, rd_error.mpr ⟨hss, rfl⟩]

theorem checkLive_timingUnknown {s : State} {f : ShField} (hon : s.value (.sh .moduleEn) = .known 1#16)
    (h : FirstUnknownWindow s f) : checkLive s = .error (.unknownRead (.sh f)) := by
  simp only [checkLive, moduleOn_true.mpr hon, if_true, shOk_unknown h]

/-- A write of the module enable does not touch the timing windows. -/
theorem firstUnknownWindow_setModuleEn {s : State} {f : ShField} (x : FieldVal) (h : FirstUnknownWindow s f) :
    FirstUnknownWindow (s.setValue (.sh .moduleEn) x) f := by
  simpa [FirstUnknownWindow, State.Known, State.value_setValue] using h

/-- Only check (b) concerns a write of the module enable: it must change nothing, or find no buffer connected. -/
theorem checkWrite_moduleEn {s : State} {v : Word}
    (h : s.value (.sh .moduleEn) = .known v ∨ ∀ c : Chan, c.val < s.cfg.nCh → Disconnected s c) :
    checkWrite s (.sh .moduleEn) v = .ok () := by
  have hsafe : EnableSafe s (.sh .moduleEn) v := fun hchange =>
    ⟨fun c hc => Loc.noConfusion hc, fun _ => h.resolve_left hchange⟩
  exact checkWrite_ok.mpr ⟨checkReconfig_ok (v := v).mp rfl, hsafe, checkPin_ok.mp rfl⟩

/-- Settles O44: the write passes its checks, and the live check then stops at the timing windows. -/
theorem brokenTimingFaultsAfterTheWrite : Obligations.BrokenTimingFaultsAfterTheWrite := by
  intro s l v tm ss huse hen hpin hon htm hss hle
  exact exec_fwr_failsLive (checkWrite_ok.mpr ⟨huse, hen, hpin⟩) (checkLive_timingBroken hon htm hss hle)

/-- Settles O50: the write passes check (b), and the live check then reads the first `Unknown` window. -/
theorem unknownTimingFaultsOnEnable : Obligations.UnknownTimingFaultsOnEnable := by
  intro s f hsafe hunknown
  have hlive := checkLive_timingUnknown (State.value_setValue_self s _ (.known 1#16))
    (firstUnknownWindow_setModuleEn (.known 1#16) hunknown)
  obtain ⟨t, hex, hfault, hval, hsame, hlog, hindex⟩ := exec_fwr_failsLive (checkWrite_moduleEn hsafe) hlive
  exact ⟨t, hex, hfault, hval, hsame, by rw [hlog, List.length_append, List.length_singleton], hindex⟩

/-! ## A read of an `Unknown` field (20_memory.md R62) -/

/-- Settles O49: the read itself is the fault, before the event and the value returned. -/
theorem frdOfUnknownFaults : Obligations.FrdOfUnknownFaults := fun _ _ => exec_frd_unknown

end Sys2Proof.Machine
end

section
/-!
PROOFS. The encoding family (30_encoding.md): the words the decoder accepts and the commands they give, the reasons of a
refusal op by op, and the pseudo-commands of the assembler.
-/

namespace Sys2Proof.Machine

/-! ## The decoder, op by op (30_encoding.md R85, R94) -/

section Dispatch

variable {cfg : Config} {w : Cmd}

theorem decode_opInit (h : opField w = 1#4) : decode cfg .ctl w = decodeInit w := by
  rw [decode_owner (by rw [h]; rfl)]
  simp [decodeBody, h]

theorem decode_opSetref (h : opField w = 2#4) : decode cfg .ctl w = decodeSetref w := by
  rw [decode_owner (by rw [h]; rfl)]
  simp [decodeBody, h]

theorem decode_opSeten (h : opField w = 3#4) : decode cfg .ctl w = decodeSeten w := by
  rw [decode_owner (by rw [h]; rfl)]
  simp [decodeBody, h]

theorem decode_opFwr (h : opField w = 4#4) : decode cfg .col w = decodeFwr cfg w := by
  rw [decode_owner (by rw [h]; rfl)]
  simp [decodeBody, h]

theorem decode_opFrd (h : opField w = 5#4) : decode cfg .col w = decodeFrd cfg w := by
  rw [decode_owner (by rw [h]; rfl)]
  simp [decodeBody, h]

/-- A fid or channel that FWR and FRD refuse gives the word's refusal, once FRD's low half is 0. -/
theorem decode_of_target_error {r : RefusalReason} (hop : opField w = 4#4 ∨ (opField w = 5#4 ∧ lowField w = 0#16))
    (ht : decodeTarget cfg w = .error r) : decode cfg .col w = .error r := by
  rcases hop with h | ⟨h, hlow⟩
  · rw [decode_opFwr h, decodeFwr, ht]
  · rw [decode_opFrd h, decodeFrd, if_pos hlow, ht]

end Dispatch

theorem agentOfOp_reserved : ∀ op : BitVec 4, op.toNat ∉ [1, 2, 3, 4, 5] → agentOfOp op = none := by decide

/-- Settles O4: a reserved op has no owner. -/
theorem reservedOpcodesRefused : Obligations.ReservedOpcodesRefused := by
  intro cfg a w hop
  rw [decode, agentOfOp_reserved (opField w) hop]

/-! ## A word is its op and the slices below it -/

/-- Two words with the same op are equal when they agree below bit `k` and from there to the op. -/
theorem eq_of_slices {w u : Cmd} (k : Nat) (hop : opField w = opField u)
    (hmid : w.extractLsb' k (28 - k) = u.extractLsb' k (28 - k)) (hlow : w.extractLsb' 0 k = u.extractLsb' 0 k) :
    w = u := by
  apply BitVec.eq_of_getLsbD_eq
  intro i hi
  by_cases h1 : i < k
  · simpa [h1] using congrArg (fun x => x.getLsbD i) hlow
  · by_cases h2 : i < 28
    · have h3 : i - k < 28 - k := by omega
      have h4 : k + (i - k) = i := by omega
      simpa [h3, h4] using congrArg (fun x => x.getLsbD (i - k)) hmid
    · have h3 : i - 28 < 4 := by omega
      have h4 : 28 + (i - 28) = i := by omega
      simpa [opField, h3, h4] using congrArg (fun x => x.getLsbD (i - 28)) hop

/-- SETREF's word is op 2 and its zeros above the immediate. -/
theorem encode_setref (imm : Word) : encode (.setref imm) = 0x2000#16 ++ imm := rfl

theorem opField_setref (imm : Word) : opField (encode (.setref imm)) = 2#4 := by
  rw [encode_setref, opField, BitVec.extractLsb'_append_eq_of_le (by decide)]
  rfl

theorem mid_setref (imm : Word) : (encode (.setref imm)).extractLsb' 16 12 = 0#12 := by
  rw [encode_setref, BitVec.extractLsb'_append_eq_of_le (by decide)]
  rfl

theorem lowField_setref (imm : Word) : lowField (encode (.setref imm)) = imm := by
  rw [encode_setref, lowField, BitVec.extractLsb'_append_eq_right]

theorem extract_eq_zero_iff_init {w : Cmd} (hop : opField w = 1#4) : w.extractLsb' 0 28 = 0#28 ↔ w = encode .init :=
  ⟨fun h => eq_of_slices 0 hop h (Subsingleton.elim _ _), fun h => h ▸ rfl⟩

theorem encode_setref_lowField {w : Cmd} (hop : opField w = 2#4) (hmid : w.extractLsb' 16 12 = 0#12) :
    encode (.setref (lowField w)) = w :=
  eq_of_slices 16 (by rw [opField_setref, hop]) (by rw [mid_setref, hmid]) (lowField_setref _)

/-- Bit 0 chooses between the two words with op 3 whose bits 27 to 1 are 0. -/
theorem encode_seten_bit {w : Cmd} (hop : opField w = 3#4) (hmid : w.extractLsb' 1 27 = 0#27) :
    encode (if w.extractLsb' 0 1 = 1#1 then .setenOn else .setenOff) = w := by
  rcases BitVec.eq_zero_or_eq_one (w.extractLsb' 0 1) with h | h <;> rw [h] <;>
    exact eq_of_slices 1 hop.symm hmid.symm h.symm

/-- A word whose identifier and channel passed the checks of FWR and FRD is the field word of what they name. -/
theorem fieldWord_decodeTarget {cfg : Config} {w : Cmd} {op : BitVec 4} {t : ReadTarget} (hop : opField w = op)
    (ht : decodeTarget cfg w = .ok t) : fieldWord op t (lowField w) = w := by
  obtain ⟨hfid, -, hat, hlegal⟩ := decodeTarget_ok ht
  have hchan : t.chan = chanField w := by
    rw [hat]
    cases hn : t.name with
    | sh f => rw [hn] at hlegal; exact (beq_iff_eq.mp hlegal).symm
    | _ => rfl
  rw [fieldWord, hfid, hchan, ← hop]
  exact (word_fields w).symm

/-! ## The round trip of commands and words -/

theorem wellFormed_fwr {cfg : Config} {l : Loc} {v : Word} :
    (Instr.fwr l v).wellFormed cfg = true ↔ l.inRange cfg = true ∧ Fits (cfg.width l) v := by
  simp [Instr.wellFormed]

/-- The identifier and channel of the word of an existing target pass the checks of FWR and FRD. -/
theorem decodeTarget_fieldWord {cfg : Config} {t : ReadTarget} (op : BitVec 4) (low : Word) (h : t.inRange cfg = true) :
    decodeTarget cfg (fieldWord op t low) = .ok t := by
  obtain ⟨htable, hlegal⟩ := (ReadTarget.inRange_iff cfg t).mp h
  simp [decodeTarget, FieldName.ofFid_fid, htable, hlegal, ReadTarget.at_name]

/-- Settles O1, command by command: each field of the command's word reads back what the encoder put there. -/
theorem encodeThenDecode : Obligations.EncodeThenDecode := by
  intro cfg i hwf
  cases i with
  | init => exact (decode_opInit rfl).trans rfl
  | setref imm =>
    rw [show Instr.agent (.setref imm) = .ctl from rfl, decode_opSetref (opField_setref imm), decodeSetref,
      if_pos (mid_setref imm), lowField_setref]
  | setenOn => exact (decode_opSeten rfl).trans rfl
  | setenOff => exact (decode_opSeten rfl).trans rfl
  | fwr l v =>
    obtain ⟨hl, hv⟩ := wellFormed_fwr.mp hwf
    have ht := decodeTarget_fieldWord (t := .field l) 4#4 v hl
    exact (decode_opFwr (opField_fieldWord ..)).trans (by simp [decodeFwr, ht, hv])
  | frd t =>
    have ht := decodeTarget_fieldWord 5#4 0#16 (t := t) hwf
    exact (decode_opFrd (opField_fieldWord ..)).trans (by simp [decodeFrd, ht])

/-- Settles O2, op by op: what the decoder checked leaves one word for the command. -/
theorem decodeThenEncode : Obligations.DecodeThenEncode := by
  intro cfg a w i h
  rcases decode_cases h with ⟨hop, rfl, hz, rfl⟩ | ⟨hop, rfl, hz, rfl⟩ | ⟨hop, rfl, hz, rfl⟩ |
    ⟨hop, rfl, l, ht, hfit, rfl⟩ | ⟨hop, rfl, hlow, t, ht, rfl⟩
  · exact ⟨((extract_eq_zero_iff_init hop).mp hz).symm, rfl, rfl⟩
  · exact ⟨encode_setref_lowField hop hz, rfl, rfl⟩
  · exact ⟨encode_seten_bit hop hz, by split <;> rfl, by split <;> rfl⟩
  · obtain ⟨-, hrange, -, -⟩ := decodeTarget_ok ht
    exact ⟨fieldWord_decodeTarget hop ht, rfl, wellFormed_fwr.mpr ⟨hrange, hfit⟩⟩
  · obtain ⟨-, hrange, -, -⟩ := decodeTarget_ok ht
    have hword := fieldWord_decodeTarget hop ht
    rw [hlow] at hword
    exact ⟨hword, rfl, hrange⟩

/-- Settles O3: each word is the word of a well-formed command (O1). -/
theorem sampleWordsDecode : Obligations.SampleWordsDecode := by
  have h := encodeThenDecode Config.vectors
  exact ⟨h .init rfl, h (.setref 0xFFFF#16) rfl, h .setenOn rfl, h .setenOff rfl,
    h (.fwr (.wg 0 .slopeRate) 0xFFFF#16) (by decide), h (.frd (.field (.wg 0 (.stopSel 1)))) (by decide),
    h (.frd (.cmpOut 0)) (by decide)⟩

/-! ## The words of each command -/

/-- Settles O6: below the op there is one word with all bits 0. -/
theorem initIsOneWord : Obligations.InitIsOneWord := by
  refine ⟨rfl, fun cfg w hop => ?_⟩
  rw [decode_opInit hop, decodeInit]
  exact if_congr (extract_eq_zero_iff_init hop) rfl rfl

/-- Settles O7: the layout is the encoder's, the operand the immediate's two's complement value, and the decoder's one check
is that of `w[27:16]`. -/
theorem setrefCarriesSignedImmediate : Obligations.SetrefCarriesSignedImmediate := by
  refine ⟨fun _ => rfl, fun imm => ?_, fun cfg imm => encodeThenDecode cfg (.setref imm) rfl, fun cfg w hop hmid => ?_⟩
  · rw [appValue, BitVec.toInt_eq_toNat_cond]
    exact if_congr (by omega) rfl rfl
  · rw [decode_opSetref hop, decodeSetref, if_neg hmid]

/-- Settles O8: where bits 27 to 1 are 0 the word is one of the two, and neither of the two has another bit set. -/
theorem setenTwoWords : Obligations.SetenTwoWords := by
  refine ⟨rfl, rfl, fun cfg w hop => ?_⟩
  rw [decode_opSeten hop, decodeSeten]
  by_cases hmid : w.extractLsb' 1 27 = 0#27
  · rw [if_pos hmid, ← encode_seten_bit hop hmid]
    split <;> rfl
  · have hon : w ≠ 0x30000001#32 := fun h => hmid (h ▸ rfl)
    have hoff : w ≠ 0x30000000#32 := fun h => hmid (h ▸ rfl)
    rw [if_neg hmid, if_neg hon, if_neg hoff]

theorem zeroExtend_ofFin_chan : ∀ c : Chan, (BitVec.ofFin (w := 4) c).zeroExtend 32 = BitVec.ofNat 32 c.val := by decide

/-- Settles O9: the layout is that of `fieldWord`, a decoded FWR is well formed and encodes back to the word (O2), and FRD's
first check is that of the low half. -/
theorem fieldAccessWordLayout : Obligations.FieldAccessWordLayout := by
  refine ⟨fun l v => ?_, fun t => ?_, fun cfg a w l v h => ?_, fun cfg w hop hlow => ?_⟩
  · rw [encode, fieldWord, zeroExtend_ofFin_chan (ReadTarget.chan _),
      show (4#4).zeroExtend 32 <<< 28 = 0x40000000#32 from rfl]
  · rw [encode, fieldWord, zeroExtend_ofFin_chan t.chan, show (5#4).zeroExtend 32 <<< 28 = 0x50000000#32 from rfl,
      show (0#16).zeroExtend 32 = 0#32 from rfl, BitVec.or_zero]
  · obtain ⟨rfl, -, hwf⟩ := decodeThenEncode cfg a w _ h
    exact ⟨(lowField_fieldWord ..).symm, (wellFormed_fwr.mp hwf).2⟩
  · rw [decode_opFrd hop, decodeFrd, if_neg hlow]

/-! ## The field identifiers (30_encoding.md R89) -/

/-- The identifiers R89 reserves under N_STOP. -/
def ReservedFid (cfg : Config) (fid : BitVec 8) : Prop :=
  (0x07 ≤ fid.toNat ∧ fid.toNat ≤ 0x0F) ∨ (0x1C ≤ fid.toNat ∧ fid.toNat ≤ 0x1E) ∨
    (0x22 + cfg.nStop ≤ fid.toNat ∧ fid.toNat ≤ 0x29) ∨ 0x2F ≤ fid.toNat

theorem fid_sh (f : ShField) : (FieldName.sh f).fid.toNat ≤ 0x06 := by cases f <;> decide

theorem fid_chn (f : ChnField) : 0x10 ≤ (FieldName.chn f).fid.toNat ∧ (FieldName.chn f).fid.toNat ≤ 0x1B := by
  cases f <;> decide

theorem fid_stopSel : ∀ j : StopIx, (FieldName.wg (.stopSel j)).fid.toNat = 0x22 + j.val := by decide

theorem fid_wg {f : WgField} (h : ∀ j, f ≠ .stopSel j) :
    (0x20 ≤ (FieldName.wg f).fid.toNat ∧ (FieldName.wg f).fid.toNat ≤ 0x21) ∨
      (0x2A ≤ (FieldName.wg f).fid.toNat ∧ (FieldName.wg f).fid.toNat ≤ 0x2E) := by
  cases f with
  | stopSel j => exact absurd rfl (h j)
  | _ => decide

/-- No row of the table under `cfg` has a reserved identifier. -/
theorem not_reservedFid_of_inTable {cfg : Config} (hstop : cfg.nStop ≤ 8) {n : FieldName} (h : n.inTable cfg = true) :
    ¬ ReservedFid cfg n.fid := by
  unfold ReservedFid
  cases n with
  | sh f =>
    have := fid_sh f
    omega
  | chn f =>
    have := fid_chn f
    omega
  | cmpOut =>
    have : FieldName.cmpOut.fid.toNat = 0x1F := rfl
    omega
  | wg f =>
    by_cases hf : ∃ j, f = .stopSel j
    · obtain ⟨j, rfl⟩ := hf
      have hj : j.val < cfg.nStop := of_decide_eq_true h
      have := fid_stopSel j
      omega
    · have := fid_wg (not_exists.mp hf)
      omega

theorem decodeTarget_reserved {cfg : Config} {w : Cmd} (hstop : cfg.nStop ≤ 8) (h : ReservedFid cfg (fidField w)) :
    decodeTarget cfg w = .error .badField := by
  cases hn : FieldName.ofFid cfg (fidField w) with
  | none => rw [decodeTarget, hn]
  | some n =>
    obtain ⟨hfid, htable⟩ := FieldName.ofFid_some hn
    rw [← hfid] at h
    exact absurd h (not_reservedFid_of_inTable hstop htable)

theorem decodeTarget_of_row {cfg : Config} {w : Cmd} {n : FieldName} (hn : FieldName.ofFid cfg (fidField w) = some n) :
    decodeTarget cfg w =
      if n.chanLegal cfg (chanField w) then .ok (n.at (chanField w)) else .error .badChannel := by
  rw [decodeTarget, hn]

/-- Settles O10: the fixed rows by evaluating the table, the stop sources by `FieldName.ofFid_fid`, the reserved identifiers by
`not_reservedFid_of_inTable`; the comparator output stops at FWR's first check after the channel. -/
theorem fieldIdentifierTable : Obligations.FieldIdentifierTable := by
  refine ⟨fun cfg => ⟨rfl, rfl, rfl, rfl, fun j => ?_⟩, fun cfg w hstop hres => ?_, fun cfg w hop hfid hchan => ?_⟩
  · refine (FieldName.ofFid_fid cfg (.wg (.stopSel j))).trans ?_
    simp only [FieldName.inTable, WgField.inRange, decide_eq_true_eq]
  · have ht := decodeTarget_reserved hstop hres
    exact ⟨fun hop => decode_of_target_error (.inl hop) ht,
      fun hop hlow => decode_of_target_error (.inr ⟨hop, hlow⟩) ht⟩
  · have hn : FieldName.ofFid cfg (fidField w) = some .cmpOut := by rw [hfid]; rfl
    have ht : decodeTarget cfg w = .ok (.cmpOut (chanField w)) :=
      (decodeTarget_of_row hn).trans (if_pos (decide_eq_true hchan))
    rw [decode_opFwr hop, decodeFwr, ht]

/-! ## The operands of FWR and FRD (30_encoding.md R90, R91) -/

/-- Settles O11: an illegal channel is refused for the row, in either group. -/
theorem channelOperandChecked : Obligations.ChannelOperandChecked := by
  intro cfg w n hn hop
  have hbad (h : n.chanLegal cfg (chanField w) = false) : decode cfg .col w = .error .badChannel :=
    decode_of_target_error hop (by rw [decodeTarget_of_row hn, h]; rfl)
  constructor
  · rintro ⟨f, rfl⟩ hchan
    exact hbad (beq_false_of_ne hchan)
  · intro hsh hchan
    apply hbad
    cases n with
    | sh f => exact absurd rfl (hsh f)
    | _ => exact decide_eq_false (by omega)

/-- Settles O12: with a legal target the value's size alone decides. -/
theorem valueOperandChecked : Obligations.ValueOperandChecked := by
  intro cfg w l hop ht
  rw [decode_opFwr hop, decodeFwr, ht]
  exact ⟨fun h => if_neg (Nat.not_lt.mpr h), fun h => if_pos h⟩

/-! ## The pseudo-commands (30_encoding.md R98) -/

/-- A channel index in decimal reads back as the channel operand. -/
theorem readImmediate_chan : ∀ c : Chan,
    (readImmediate (Nat.toDigits 10 c.val)).bind (Immediate.toUnsigned 4) = some (BitVec.ofFin c) := by decide

theorem tokens_pin : ∀ c : Chan,
    tokens [] (beforeComment ("PINON ".toList ++ Nat.toDigits 10 c.val)) =
      [.word "PINON".toList, .word (Nat.toDigits 10 c.val)] ∧
    tokens [] (beforeComment ("PINOFF ".toList ++ Nat.toDigits 10 c.val)) =
      [.word "PINOFF".toList, .word (Nat.toDigits 10 c.val)] := by decide

/-- The word of PINON and PINOFF is that of FWR of `CHN.out_en` on the channel. -/
theorem pinWord_chan (c : Chan) (v : Word) :
    pinWord (Nat.toDigits 10 c.val) v = some (encode (.fwr (.chn c .outEn) v)) := by
  rw [pinWord, readImmediate_chan]
  rfl

theorem agentFor_encode_fwr (l : Loc) (v : Word) : agentFor (encode (.fwr l v)) = .col := by
  have h := Laws.AgentOwnsOpcode.fwr l v
  rw [agentFor, h]
  rfl

/-- A line of a mnemonic and one operand is the command of that mnemonic, issued by the only agent allowed. -/
theorem assembleLine_oneOperand {line m a : List Char} {w : Cmd}
    (htokens : tokens [] (beforeComment line) = [.word m, .word a]) (hword : wordOneOperand m a = some w) :
    assembleLine line = some [⟨agentFor w, w⟩] := by
  simp [assembleLine, htokens, entryOfTokens, commandWord, hword]

/-- Settles O13: a line of two pieces, whose word is that of the one command. -/
theorem pseudoCommandsExpand : Obligations.PseudoCommandsExpand := by
  refine ⟨assembleLine_oneOperand (m := "SETEN".toList) (a := ['1']) (by decide) rfl,
    assembleLine_oneOperand (m := "SETEN".toList) (a := ['0']) (by decide) rfl, fun c => ?_⟩
  obtain ⟨hon, hoff⟩ := tokens_pin c
  constructor
  · rw [assembleLine_oneOperand hon (pinWord_chan c 1#16), agentFor_encode_fwr]
  · rw [assembleLine_oneOperand hoff (pinWord_chan c 0#16), agentFor_encode_fwr]

end Sys2Proof.Machine
end

section
/-!
PROOFS. The initializer family (40_initializer.md): how INIT can end, the writes it is allowed, the fields it leaves in every
order R114 allows, and the order of its events.
-/

namespace Sys2Proof.Machine

/-! ## How INIT ends (40_initializer.md R110) -/

theorem exec_init_precheck {s : State} {m : FaultMark} (h : initPrecheck s = .error m) :
    FaultedOnly s m (exec .init s) := by
  simp only [FaultedOnly, exec, execInit, h, Progress.finish_stopped, State.raise]

theorem exec_init_writes {s : State} (h : initPrecheck s = .ok ()) :
    exec .init s = ((wrAll .init (initWrites s.cfg) s).andThen (fun u => .going u.markInitialized)).finish := by
  simp only [exec, execInit, h]

/-- Where no precondition and no write fails, INIT ends with all its writes performed and `initialized` set. -/
theorem exec_init_allowed {s : State} (h : initPrecheck s = .ok ()) (hall : AllAllowed .init (initWrites s.cfg) s) :
    exec .init s = .next (performAll .init (initWrites s.cfg) s).markInitialized.advance := by
  rw [exec_init_writes h, wrAll_going.mpr ⟨hall, rfl⟩, Progress.andThen_going, Progress.finish_going]

/-- What INIT can do: fail a precondition, stop in one of its writes, or end with all of them performed. -/
theorem exec_init_cases {s t : State} (h : exec .init s = .next t) :
    (∃ m, t = s.raise m) ∨ wrAll .init (initWrites s.cfg) s = .stopped t ∨
    t = (performAll .init (initWrites s.cfg) s).markInitialized.advance := by
  rcases hp : initPrecheck s with m | u
  · exact .inl ⟨m, Host.Outcome.next.inj (h.symm.trans (exec_init_precheck hp))⟩
  · rw [exec_init_writes hp] at h
    rcases hw : wrAll .init (initWrites s.cfg) s with x | x <;> rw [hw] at h <;> cases h
    · rw [(wrAll_going.mp hw).2]
      exact .inr (.inr rfl)
    · exact .inr (.inl rfl)

theorem initPrecheck_off {s : State} (hi : s.initialized = false) (hoff : s.value (.sh .moduleEn) = .known 0#16) :
    initPrecheck s = .ok () := by
  simp [initPrecheck, hi, rd_ok.mpr hoff]

/-- Settles O24: the preconditions are checked in this order and stop INIT before its writes. -/
theorem initPreconditionFaults : Obligations.InitPreconditionFaults := by
  refine ⟨fun s hi => exec_init_again hi, fun s v hi hv hne => exec_init_precheck ?_,
    fun s hi hu => exec_init_precheck ?_⟩
  · simp only [initPrecheck, hi, rd_ok.mpr hv, hne, if_false, Bool.false_eq_true]
    rfl
  · simp [initPrecheck, hi, rd_error.mpr ⟨hu, rfl⟩]

/-! ## The writes of INIT are allowed while the module is off (40_initializer.md R110, 20_memory.md R63) -/

/-- The write leaves an enable field or an output-buffer enable, if it writes one, at 0. -/
def EnablesNothing (l : Loc) (v : Word) : Prop := fieldClass l = .enable ∨ fieldClass l = .pin → v = 0#16

/-- A write of 0 to the channel's enable passes check (b): it changes nothing, or the output buffer is disconnected. -/
def MayDisable (s : State) (c : Chan) : Prop := s.value (.chn c .chEn) = .known 0#16 ∨ Disconnected s c

theorem initWrite_enablesNothing (cfg : Config) (a : InitStep) :
    EnablesNothing (initWrite cfg a).1 (initWrite cfg a).2 := by
  cases a <;> simp [EnablesNothing, initWrite, fieldClass]

theorem initWrite_chEn {cfg : Config} {a : InitStep} {c : Chan} (h : (initWrite cfg a).1 = .chn c .chEn) :
    a = .c1 ∧ c = cfg.ch := by
  cases a <;> cases h
  exact ⟨rfl, rfl⟩

section Off

variable {s : State} {l : Loc} {v : Word} (hoff : s.value (.sh .moduleEn) = .known 0#16) (hw : EnablesNothing l v)
include hw

theorem mayDisable_performWrite {c : Chan} (h : MayDisable s c) : MayDisable (performWrite .init l v s) c := by
  have hzero : ∀ k, fieldClass k = .enable ∨ fieldClass k = .pin → k = l → v = 0#16 := fun k hk he => hw (he ▸ hk)
  unfold MayDisable Disconnected
  rw [performWrite_value, performWrite_value]
  split
  · rename_i he
    exact .inl (congrArg _ (hzero _ (.inl rfl) he))
  · refine h.imp_right fun hd => ?_
    split
    · rename_i he
      simp [hzero _ (.inr rfl) he]
    · exact hd

include hoff

theorem moduleOff_performWrite (op : Op) : (performWrite op l v s).value (.sh .moduleEn) = .known 0#16 := by
  rw [performWrite_value]
  split
  · rename_i he
    rw [hw (.inl (he ▸ rfl))]
  · exact hoff

/-- With the module off, a write that enables nothing can fail only at a channel enable, in check (b). -/
theorem writeAllowed_of_off (hch : ∀ c, l = .chn c .chEn → MayDisable s c) : WriteAllowed s l v := by
  have hoff' : moduleOn (s.setValue l (.known v)) = false := by
    have h := moduleOff_performWrite hoff hw .init
    rw [performWrite_value, ← State.value_setValue] at h
    simp [moduleOn, h]
  refine ⟨not_inUse_of_off (by simp [moduleOn, hoff]), fun hne => ⟨?_, ?_⟩, ?_, fun hon => ?_⟩
  · rintro c rfl
    rw [hw (.inl rfl)] at hne
    exact (hch c rfl).resolve_left hne
  · rintro rfl
    exact absurd (hoff.trans (congrArg _ (hw (.inl rfl)).symm)) hne
  · rintro rfl c rfl
    exact absurd (hw (.inr rfl)) (by decide)
  · rw [hoff'] at hon
    cases hon

end Off

/-- Any steps of INIT are allowed in any order while the module is off, if C1 is among them only where channel CH may be
disabled. -/
theorem initSteps_allowed {cfg : Config} {steps : List InitStep} {s : State} (hoff : s.value (.sh .moduleEn) = .known 0#16)
    (hch : .c1 ∈ steps → MayDisable s cfg.ch) : AllAllowed .init (steps.map (initWrite cfg)) s := by
  induction steps generalizing s with
  | nil => trivial
  | cons a steps ih =>
    have hw := initWrite_enablesNothing cfg a
    refine ⟨writeAllowed_of_off hoff hw fun c hc => ?_, ih (moduleOff_performWrite hoff hw .init) fun hmem => ?_⟩
    · obtain ⟨rfl, rfl⟩ := initWrite_chEn hc
      exact hch List.mem_cons_self
    · exact mayDisable_performWrite hw (hch (List.mem_cons_of_mem _ hmem))

/-! ## The fields INIT leaves (40_initializer.md R113) -/

/-- Every step but C9 is the last one that writes its field. -/
theorem initStepOf_initWrite (cfg : Config) {a : InitStep} (h : a ≠ .c9) : initStepOf (initWrite cfg a).1 = a := by
  cases a
  case c9 => exact absurd rfl h
  all_goals rfl

theorem initStepOf_ne_c9 (l : Loc) : initStepOf l ≠ .c9 := by
  cases l with
  | sh f | chn _ f | wg _ f => cases f <;> simp [initStepOf]

/-- R113 lists what each step but C9 writes. -/
theorem afterInit_initWrite {cfg : Config} {a : InitStep} (ha : a ∈ InitStep.canonical cfg.nStop) (h : a ≠ .c9) :
    afterInit cfg (initWrite cfg a).1 = some (initWrite cfg a).2 := by
  have hstop := mem_canonical.mp ha
  cases a
  case c9 => exact absurd rfl h
  case w6 j => simp [afterInit, initWrite, hstop j rfl]
  all_goals simp [afterInit, initWrite]

/-- R113 lists every field INIT writes: C9 writes the field of C11. -/
theorem afterInit_written {cfg : Config} {a : InitStep} (ha : a ∈ InitStep.canonical cfg.nStop) :
    afterInit cfg (initWrite cfg a).1 ≠ none := by
  by_cases h : a = .c9
  · subst h
    simp [afterInit, initWrite]
  · simp [afterInit_initWrite ha h]

/-- The step of a field that R113 lists writes the value listed. -/
theorem initWrite_initStepOf {cfg : Config} {l : Loc} {v : Word} (h : afterInit cfg l = some v) :
    initWrite cfg (initStepOf l) = (l, v) := by
  obtain ⟨hmem, hloc⟩ := initStepOf_writes (Option.isSome_of_eq_some h)
  have hval := afterInit_initWrite hmem (initStepOf_ne_c9 l)
  rw [hloc, h] at hval
  exact Prod.ext hloc (Option.some.inj hval).symm

/-- A write decides the field, where each later write of the field repeats its value. -/
theorem performAll_value_repeated (op : Op) {ws : List (Loc × Word)} {k : Loc} {v : Word} {s : State}
    (hs : s.value k = .known v) (h : ∀ w ∈ ws, w.1 = k → w.2 = v) : (performAll op ws s).value k = .known v := by
  induction ws generalizing s with
  | nil => exact hs
  | cons w ws ih =>
    obtain ⟨l, x⟩ := w
    obtain ⟨hhead, htail⟩ := List.forall_mem_cons.mp h
    refine ih ?_ htail
    rw [performWrite_value]
    split
    · rename_i he
      exact congrArg _ (hhead he.symm)
    · exact hs

/-- A step that writes a field is the field's own step, or C9 where that is C11. -/
theorem initStep_same_field {cfg : Config} {a : InitStep} {l : Loc} (h : (initWrite cfg a).1 = l) :
    a = initStepOf l ∨ (a = .c9 ∧ initStepOf l = .c11) := by
  subst h
  by_cases h9 : a = .c9
  · subst h9
    exact .inr ⟨rfl, rfl⟩
  · exact .inl (initStepOf_initWrite cfg h9).symm

/-- Steps in an order R114 allows leave a field that R113 lists at its value, once they hold the field's own step: nothing
but C9 writes the field of another step, and C9 does not come after C11. -/
theorem performSteps_value {cfg : Config} {steps : List InitStep} (hpair : steps.Pairwise InitStep.MayPrecede) {l : Loc}
    {v : Word} (hv : afterInit cfg l = some v) (hmem : initStepOf l ∈ steps) (s : State) :
    (performAll .init (steps.map (initWrite cfg)) s).value l = .known v := by
  have hstep := initWrite_initStepOf hv
  induction steps generalizing s with
  | nil => cases hmem
  | cons a steps ih =>
    obtain ⟨hfirst, hrest⟩ := List.pairwise_cons.mp hpair
    rcases List.mem_cons.mp hmem with rfl | hmem
    · rw [List.map_cons, hstep, performAll]
      refine performAll_value_repeated .init (performWrite_value_self .init l v s) fun w hw hl => ?_
      obtain ⟨b, hb, rfl⟩ := List.mem_map.mp hw
      rcases initStep_same_field hl with rfl | ⟨rfl, hc11⟩
      · rw [hstep]
      · exact absurd ⟨hc11, rfl⟩ (hfirst _ hb).2
    · exact ih hrest hmem _

/-- INIT's writes, in every order R114 allows, leave each field that R113 lists at its value. -/
theorem performInit_value {cfg : Config} (ho : cfg.OrderValid) {l : Loc} {v : Word} (hv : afterInit cfg l = some v)
    (s : State) : (performAll .init (initWrites cfg) s).value l = .known v :=
  performSteps_value ho.2 hv (ho.1.mem_iff.mpr (initStepOf_writes (Option.isSome_of_eq_some hv)).1) s

/-- INIT writes no field that R113 does not list. -/
theorem performInit_value_unlisted {cfg : Config} (ho : cfg.OrderValid) {l : Loc} (hl : afterInit cfg l = none)
    (s : State) : (performAll .init (initWrites cfg) s).value l = s.value l := by
  refine performAll_value_ne .init (fun w hw he => ?_) s
  obtain ⟨a, ha, rfl⟩ := List.mem_map.mp hw
  exact afterInit_written (ho.1.mem_iff.mp ha) (he ▸ hl)

theorem stopIndices_length : ∀ n ≤ 8, (stopIndices n).length = n := by decide

/-- INIT has 27 writes, and one for each stop source (40_initializer.md R110). -/
theorem initWrites_length {cfg : Config} (hstop : cfg.nStop ≤ 8) (ho : cfg.OrderValid) :
    (initWrites cfg).length = 27 + cfg.nStop := by
  rw [initWrites, List.length_map, ho.1.length_eq]
  simp [InitStep.canonical, InitStep.groupS, InitStep.groupC, InitStep.groupR, InitStep.groupW,
    stopIndices_length _ hstop]
  omega

/-- Settles O21: every write is allowed where its turn comes, and the last write of each field is that of R113. -/
theorem initCompletes : Obligations.InitCompletes := by
  intro s hvalid hi hoff hch
  have ho := valid_order hvalid
  have hall : AllAllowed .init (initWrites s.cfg) s := initSteps_allowed hoff fun _ => hch
  obtain ⟨hcfg, -, hfault, hrefused, htrace, hindex, hreturned, hdraws⟩ := performAll_frame .init (initWrites s.cfg) s
  refine ⟨_, exec_init_allowed (initPrecheck_off hi hoff) hall, rfl, fun l v hv => ?_, fun l hl => ?_,
    ⟨_, performAll_log .init (initWrites s.cfg) s, ?_⟩,
    ⟨congrArg (· + 1) hindex, ⟨hcfg, htrace⟩, hfault, hrefused⟩, hreturned, hdraws⟩
  · simpa using performInit_value ho hv s
  · simpa using performInit_value_unlisted ho hl s
  · rw [writeEvents_length, initWrites_length hvalid.1.2.2.2.2 ho]

/-- Settles O26: R113 lists the same values under either order (O21). -/
theorem initOrderLeavesSameFields : Obligations.InitOrderLeavesSameFields := by
  intro s o₁ o₂ hv₁ hv₂ hi hoff hch
  have hvalue : ∀ o l, (s.withOrder o).value l = s.value l := fun o l => by cases l <;> rfl
  obtain ⟨t₁, he₁, -, hlisted₁, hother₁, ⟨evs₁, hlog₁, hlen₁⟩, -⟩ := initCompletes (s.withOrder o₁) hv₁ hi hoff hch
  obtain ⟨t₂, he₂, -, hlisted₂, hother₂, ⟨evs₂, hlog₂, hlen₂⟩, -⟩ := initCompletes (s.withOrder o₂) hv₂ hi hoff hch
  have hsame : ∀ l, t₁.value l = t₂.value l := by
    intro l
    have htable : afterInit (s.withOrder o₁).cfg l = afterInit (s.withOrder o₂).cfg l := rfl
    cases hl : afterInit (s.withOrder o₂).cfg l with
    | none => rw [hother₁ l (htable.trans hl), hother₂ l hl, hvalue, hvalue]
    | some v => rw [hlisted₁ l v (htable.trans hl), hlisted₂ l v hl]
  obtain ⟨hsh, hchn, hwg⟩ := registers_ext hsame
  refine ⟨t₁, t₂, he₁, he₂, hsh, hchn, hwg, ?_⟩
  rw [hlog₁, hlog₂, List.length_append, List.length_append, hlen₁, hlen₂]
  rfl

/-! ## The events of INIT (40_initializer.md R112, R115) -/

/-- The events of a list of writes are writes of the list's fields. -/
theorem mem_writeEvents {op : Op} {ws : List (Loc × Word)} {s : State} {e : Event} (h : e ∈ writeEvents op ws s) :
    ∃ w ∈ ws, ∃ old, e.action = .wrote w.1 old (.known w.2) := by
  induction ws generalizing s with
  | nil => cases h
  | cons w ws ih =>
    rcases List.mem_cons.mp h with rfl | h
    · exact ⟨w, List.mem_cons_self, s.value w.1, rfl⟩
    · obtain ⟨w', hw', hold⟩ := ih h
      exact ⟨w', List.mem_cons_of_mem _ hw', hold⟩

/-- A relation that orders the fields of a list of writes orders the fields of their events. -/
theorem writeEvents_pairwise {op : Op} {R : Loc → Loc → Prop} {ws : List (Loc × Word)}
    (h : ws.Pairwise (fun a b => R a.1 b.1)) (s : State) :
    (writeEvents op ws s).Pairwise (fun a b => ∀ la oa na lb ob nb, a.action = .wrote la oa na →
      b.action = .wrote lb ob nb → R la lb) := by
  induction ws generalizing s with
  | nil => exact .nil
  | cons w ws ih =>
    obtain ⟨hfirst, hrest⟩ := List.pairwise_cons.mp h
    refine List.pairwise_cons.mpr ⟨fun b hb la oa na lb ob nb ha hab => ?_, ih hrest _⟩
    obtain ⟨w', hw', old, hold⟩ := mem_writeEvents hb
    cases ha
    cases hold.symm.trans hab
    exact hfirst w' hw'

/-- The values that the events of a list of writes record for a field. -/
theorem writeEvents_wroteTo (op : Op) (l : Loc) (ws : List (Loc × Word)) (s : State) :
    (writeEvents op ws s).filterMap (Event.wroteTo? l) = (ws.filter (fun w => w.1 = l)).map (fun w => .known w.2) := by
  induction ws generalizing s with
  | nil => rfl
  | cons w ws ih =>
    have htail := ih (performWrite op w.1 w.2 s)
    by_cases h : w.1 = l
    · simp [writeEvents, writeEvent, Event.wroteTo?, h, ← htail]
    · simp [writeEvents, writeEvent, Event.wroteTo?, h, ← htail]

theorem writeGroup_initWrite (cfg : Config) (a : InitStep) : writeGroup (initWrite cfg a).1 = a.group := by
  cases a <;> rfl

/-- INIT logs the events of an initial part of its writes, none where a precondition fails. -/
theorem exec_init_log {s t : State} (h : exec .init s = .next t) :
    ∃ done rest, initWrites s.cfg = done ++ rest ∧ t.log = s.log ++ writeEvents .init done s := by
  rcases exec_init_cases h with ⟨m, rfl⟩ | hstop | rfl
  · exact ⟨[], _, rfl, (List.append_nil _).symm⟩
  · have hlog := wrAll_log .init (initWrites s.cfg) s
    rwa [hstop] at hlog
  · exact ⟨_, [], (List.append_nil _).symm, performAll_log .init (initWrites s.cfg) s⟩

/-- Settles O22: the events are those of an initial part of the writes, whose order keeps the groups apart. -/
theorem initWritesGroupsInOrder : Obligations.InitWritesGroupsInOrder := by
  intro s t ho h
  obtain ⟨done, rest, hsplit, hlog⟩ := exec_init_log h
  have hgroups : (initWrites s.cfg).Pairwise (fun a b => (writeGroup a.1).rank ≤ (writeGroup b.1).rank) := by
    refine List.pairwise_map.mpr (ho.2.imp fun hab => ?_)
    rw [writeGroup_initWrite, writeGroup_initWrite]
    exact hab.1
  rw [hsplit] at hgroups
  exact ⟨_, hlog, writeEvents_pairwise (List.pairwise_append.mp hgroups).1 s⟩

theorem initWrite_hysSel {cfg : Config} {a : InitStep} :
    (initWrite cfg a).1 = .chn cfg.ch .hysSel ↔ a = .c9 ∨ a = .c11 := by
  cases a <;> simp [initWrite]

/-- Of the canonical steps, C9 and C11 remain where those of `hys_sel` are taken out. -/
theorem canonical_hysteresis (n : Nat) :
    (InitStep.canonical n).filter (fun a => a = .c9 ∨ a = .c11) = [.c9, .c11] := by
  simp [InitStep.canonical, InitStep.groupS, InitStep.groupC, InitStep.groupR, InitStep.groupW]

/-- In every order R114 allows, C9 and then C11 are the steps that write `hys_sel` (40_initializer.md R115). -/
theorem initOrder_hysteresis {cfg : Config} (ho : cfg.OrderValid) :
    cfg.initOrder.filter (fun a => a = .c9 ∨ a = .c11) = [.c9, .c11] := by
  obtain ⟨hperm, hpair⟩ := ho
  have hperm' := hperm.filter (fun a => a = .c9 ∨ a = .c11)
  rw [canonical_hysteresis] at hperm'
  refine hperm'.eq_of_pairwise (fun a b ha hb hab hba => ?_) (hpair.filter _) (by decide)
  rcases List.mem_pair.mp hb with rfl | rfl <;> rcases List.mem_pair.mp (hperm'.mem_iff.mp ha) with rfl | rfl
  · rfl
  · exact absurd ⟨rfl, rfl⟩ hab.2
  · exact absurd ⟨rfl, rfl⟩ hba.2
  · rfl

theorem initWrites_hysteresis {cfg : Config} (ho : cfg.OrderValid) :
    (initWrites cfg).filter (fun w => w.1 = .chn cfg.ch .hysSel) = [initWrite cfg .c9, initWrite cfg .c11] := by
  rw [initWrites, List.filter_map]
  simp only [Function.comp_def, initWrite_hysSel, initOrder_hysteresis ho, List.map_cons, List.map_nil]

/-- INIT that ends without a fault has performed all its writes. -/
theorem exec_init_completed {s t : State} (h : exec .init s = .next t) (hf : t.fault = none) :
    t = (performAll .init (initWrites s.cfg) s).markInitialized.advance := by
  rcases exec_init_cases h with ⟨m, rfl⟩ | hstop | rfl
  · cases hf
  · exact absurd hf (wrAll_stopped hstop).1
  · rfl

/-- Settles O23: C9 and C11 are the writes of `hys_sel`, the field keeps the second, and the module is off. -/
theorem initWritesHysteresisNoneThenMax : Obligations.InitWritesHysteresisNoneThenMax := by
  intro s t hvalid _ h hf
  have ho := valid_order hvalid
  have ht := exec_init_completed h hf
  have hcfg : t.cfg = s.cfg := by
    rw [ht]
    exact (performAll_frame .init (initWrites s.cfg) s).1
  have hvalue : ∀ l v, afterInit s.cfg l = some v → t.value l = .known v := fun l v hv => by
    simpa [ht] using performInit_value ho hv s
  have hhys : hysteresis t s.cfg.ch = some .mv45 := by
    rw [hysteresis_known (hvalue (.chn s.cfg.ch .hysSel) _ (if_pos rfl)), hcfg]
    exact hysOfField_hysCode hvalid.2.2.2.1 .mv45
  refine ⟨writeEvents .init (initWrites s.cfg) s, ?_, ?_, hhys, ?_, liveDeadBand_off ?_⟩
  · rw [ht]
    exact performAll_log .init (initWrites s.cfg) s
  · rw [writeEvents_wroteTo, initWrites_hysteresis ho]
    rfl
  · rw [hysteresisMillivolts, hhys, hcfg]
    rfl
  · simp [live, moduleOn, hvalue (.sh .moduleEn) 0#16 rfl]

/-! ## INIT at a channel enabled behind a connected output buffer (40_initializer.md R110, 60_exceptions.md R232) -/

/-- The state in which INIT has performed the writes of group S. -/
def afterGroupS (s : State) : State := performAll .init (InitStep.groupS.map (initWrite s.cfg)) s

/-- Group S writes shared fields alone. -/
theorem afterGroupS_value {s : State} {l : Loc} (h : ∀ f, l ≠ .sh f) : (afterGroupS s).value l = s.value l := by
  refine performAll_value_ne .init (fun w hw he => ?_) s
  obtain ⟨a, ha, rfl⟩ := List.mem_map.mp hw
  have hshared : ∀ a ∈ InitStep.groupS, ∃ f, (initWrite s.cfg a).1 = .sh f := by simp [InitStep.groupS, initWrite]
  obtain ⟨f, hf⟩ := hshared a ha
  exact h f (he.symm.trans hf)

/-- INIT in its canonical order stops with FC5 at C1, after group S, where channel CH is enabled behind a connected output
buffer. -/
theorem exec_init_stops_at_c1 {s : State} (horder : s.cfg.initOrder = InitStep.canonical s.cfg.nStop)
    (hi : s.initialized = false) (hoff : s.value (.sh .moduleEn) = .known 0#16)
    (hen : s.value (.chn s.cfg.ch .chEn) = .known 1#16) (hout : s.value (.chn s.cfg.ch .outEn) = .known 1#16) :
    exec .init s = .next ((afterGroupS s).raise (.outputGlitchHazard (.chn s.cfg.ch .chEn) (.known 1#16) 0#16)) := by
  have hsteps : AllAllowed .init (InitStep.groupS.map (initWrite s.cfg)) s :=
    initSteps_allowed hoff fun hc1 => absurd hc1 (by decide)
  obtain ⟨later, hlater⟩ : ∃ later, initWrites s.cfg =
      InitStep.groupS.map (initWrite s.cfg) ++ (.chn s.cfg.ch .chEn, 0#16) :: later := by
    rw [initWrites, horder]
    exact ⟨_, List.map_append⟩
  have hen' : (afterGroupS s).value (.chn s.cfg.ch .chEn) = .known 1#16 := (afterGroupS_value (by simp)).trans hen
  have hout' : (afterGroupS s).value (.chn s.cfg.ch .outEn) = .known 1#16 := (afterGroupS_value (by simp)).trans hout
  have hstop := wr_chEn_stop (op := .init) (v := 0#16) (by rw [hen']; decide) hout'
  rw [hen'] at hstop
  rw [exec_init_writes (initPrecheck_off hi hoff), hlater, wrAll_append, wrAll_going.mpr ⟨hsteps, rfl⟩,
    Progress.andThen_going, wrAll_cons, ← afterGroupS, hstop, Progress.andThen_stopped, Progress.andThen_stopped,
    Progress.finish_stopped]

/-- Settles O25: INIT stops in the state after group S, which holds the shared values of R113 and every other field of the
start. -/
theorem initStopsAtConnectedChannel : Obligations.InitStopsAtConnectedChannel := by
  intro s horder hi hoff hen hout
  obtain ⟨-, hinit, -, -, -, hindex, -⟩ := performAll_frame .init (InitStep.groupS.map (initWrite s.cfg)) s
  refine ⟨_, exec_init_stops_at_c1 horder hi hoff hen hout, State.raise_fault _ _, fun f v hv => ?_, fun c f => ?_,
    fun c f => ?_, ?_, hinit.trans hi, hindex⟩
  · rw [State.raise_value]
    exact performSteps_value (by decide) hv (by cases f <;> decide) s
  · rw [State.raise_value, afterGroupS_value (by simp)]
  · rw [State.raise_value, afterGroupS_value (by simp)]
  · exact performAll_log_length .init (InitStep.groupS.map (initWrite s.cfg)) s

end Sys2Proof.Machine
end

section
/-!
PROOFS. The reference family (41_reference.md): the conversion `RefCode` over the rationals, its values under D00's constants in
each reading of REF_ROUNDING, and how SETREF ends.
-/

namespace Sys2Proof.Machine

/-! ## The rounded quotient (41_reference.md R140) -/

/-- The arithmetic shift is the floor of the rational quotient. -/
theorem floor_div_eq_asr (p : Int) (q : Nat) : ⌊(p : ℚ) / 2 ^ q⌋ = asr p q := by
  simpa [asr] using Rat.floor_intCast_div_natCast p (2 ^ q)

/-- Adding 2^(Q-1) before the arithmetic shift adds one half to the quotient. -/
theorem floor_div_add_half_eq_asr {q : Nat} (hq : 1 ≤ q) (p : Int) :
    ⌊(p : ℚ) / 2 ^ q + 1 / 2⌋ = asr (p + 2 ^ (q - 1)) q := by
  obtain ⟨n, rfl⟩ := Nat.exists_eq_add_of_le' hq
  have hhalf : (p : ℚ) / 2 ^ (n + 1) + 1 / 2 = ((p + 2 ^ n : Int) : ℚ) / 2 ^ (n + 1) := by
    push_cast
    field_simp
    ring
  rw [hhalf, floor_div_eq_asr, Nat.add_sub_cancel]

/-- Settles O27: each reading of REF_ROUNDING is an arithmetic shift, of the product or of its magnitude. -/
theorem refCodeRoundsTheQuotient : Obligations.RefCodeRoundsTheQuotient := by
  intro cfg v hq
  refine ⟨fun h => ?_, fun h => ?_, fun h => ?_⟩
  · rw [refCode, h, floor_div_add_half_eq_asr hq, roundShift]
  · rw [refCode, h, floor_div_eq_asr, roundShift]
  · rw [refCode, h, ← Int.cast_abs, Int.abs_eq_natAbs, floor_div_add_half_eq_asr hq, roundShift]

/-! ## `RefCode` under D00's constants (41_reference.md R141, R144) -/

/-- R141's form of the conversion, with D00's constants in place. -/
theorem refCode_default {cfg : Config} (h : cfg.DefaultConversion) (v : Int) :
    refCode cfg v = (v * 2047 + 16384) / 32768 + 2048 := by
  obtain ⟨hk, hoffset, hq, hrounding⟩ := h
  rw [refCode, hk, hoffset, hq, hrounding]
  rfl

/-- In every reading of REF_ROUNDING a product of at most 2047 * 2^15 in magnitude gives a quotient of at most 2047. -/
theorem roundShift_within_gain (mode : Rounding) {p : Int} (hlow : -(2047 * 32768) ≤ p) (hhigh : p ≤ 2047 * 32768) :
    -2047 ≤ roundShift mode 15 p ∧ roundShift mode 15 p ≤ 2047 := by
  cases mode with
  | halfUp =>
    change -2047 ≤ (p + 16384) / 32768 ∧ (p + 16384) / 32768 ≤ 2047
    omega
  | floor =>
    change -2047 ≤ p / 32768 ∧ p / 32768 ≤ 2047
    omega
  | halfAway =>
    change -2047 ≤ p.sign * ((p.natAbs + 16384) / 32768) ∧ p.sign * ((p.natAbs + 16384) / 32768) ≤ 2047
    rcases lt_trichotomy p 0 with hp | rfl | hp
    · rw [Int.sign_eq_neg_one_of_neg hp]
      omega
    · decide
    · rw [Int.sign_eq_one_of_pos hp]
      omega

/-- R144: D00's gain, offset and scale exponent keep every 16-bit value's code in 1..4095. -/
theorem refCode_within_range {cfg : Config} (hk : cfg.k = 2047) (hoffset : cfg.offset = 2048) (hq : cfg.q = 15)
    {v : Int} (hlow : -32768 ≤ v) (hhigh : v ≤ 32767) : 1 ≤ refCode cfg v ∧ refCode cfg v ≤ 4095 := by
  rw [refCode, hk, hoffset, hq]
  have hquotient := roundShift_within_gain cfg.rounding (p := v * 2047) (by omega) (by omega)
  omega

theorem refCode_imm_within_range {cfg : Config} (hk : cfg.k = 2047) (hoffset : cfg.offset = 2048) (hq : cfg.q = 15)
    (imm : Word) : 1 ≤ refCode cfg imm.toInt ∧ refCode cfg imm.toInt ≤ 4095 :=
  refCode_within_range hk hoffset hq (BitVec.le_toInt imm) (Int.le_sub_one_of_lt (BitVec.toInt_lt (x := imm)))

/-- Settles O28: a code 2048 + m is that of 16 * m + m / 128, since 2^15 / 2047 is just below 16 + 1 / 128. -/
theorem refCodeRangeAndOrder : Obligations.RefCodeRangeAndOrder := by
  intro cfg h
  have ⟨hk, hoffset, hq, _⟩ := h
  simp only [refCode_default h]
  refine ⟨by decide, fun v hlow hhigh => ?_, fun c hlow hhigh => ?_, fun v w hvw => ?_, fun v => ?_,
    fun v hlow hhigh => ?_, fun v hlow hhigh => ?_⟩
  · rw [← refCode_default h]
    exact refCode_within_range hk hoffset hq hlow hhigh
  · exact ⟨16 * (c - 2048) + (c - 2048) / 128, by omega, by omega, by omega⟩
  · omega
  · omega
  · omega
  · omega

/-- Rounding half up mirrors every product but one whose quotient by 2^15 lies half way. -/
theorem halfUp_neg_iff (p : Int) :
    (-p + 16384) / 32768 = -((p + 16384) / 32768) ↔ (2 * p) % 65536 ≠ 32768 := by
  constructor
  · omega
  · omega

/-- Settles O29: the code of -v mirrors that of v exactly where the quotient of v does not lie half way. -/
theorem refCodeSymmetryFailsAtTies : Obligations.RefCodeSymmetryFailsAtTies := by
  intro cfg h
  simp only [refCode_default h]
  refine ⟨fun v hlow hhigh => ?_, by decide, by decide⟩
  have hmirror : (-v * 2047 + 16384) / 32768 + 2048 = 4096 - ((v * 2047 + 16384) / 32768 + 2048) ↔
      (2 * (v * 2047)) % 65536 ≠ 32768 := by
    rw [← halfUp_neg_iff]
    omega
  have htie : (2 * (v * 2047)) % 65536 = 32768 ↔ (v = 16384 ∨ v = -16384) := by omega
  exact ⟨hmirror.trans (htie.not.trans not_or), htie⟩

/-! ## How SETREF ends (41_reference.md R142, R144, R145) -/

/-- Settles O31: the range is that of every reading of REF_ROUNDING, and outside it SETREF stops before its write. -/
theorem setrefFaultsOutsideCodeRange : Obligations.SetrefFaultsOutsideCodeRange :=
  ⟨fun _ imm hk hoffset hq => refCode_imm_within_range hk hoffset hq imm, fun _ _ => exec_setref_out⟩

/-- A code inside 0..4095 is the value of the word that SETREF writes. -/
theorem toNat_ofInt_code {code : Int} (hlow : 0 ≤ code) (hhigh : code ≤ 4095) :
    ((BitVec.ofInt 16 code).toNat : Int) = code := by
  rw [BitVec.toNat_ofInt]
  omega

/-- The high limit of a channel may be written in every state that meets the live invariants: no check of a write is about a
reference field, and the live invariants do not read one (R145). -/
theorem writeAllowed_datHigh {s : State} (hl : LiveConfigOk s) (c : Chan) (v : Word) :
    WriteAllowed s (.chn c .datHigh) v := by
  have hother : ∀ k, k ≠ .chn c .datHigh → (s.setValue (.chn c .datHigh) (.known v)).value k = s.value k :=
    fun _ hk => State.value_setValue_ne s hk _
  refine ⟨?_, fun _ => ⟨by simp, by simp⟩, by simp [PinFree], liveConfigOk_mono (State.setValue_cfg _ _ _) hl ?_ ?_ ?_ ?_⟩
  · simp [InUse, fieldClass]
  · simp [moduleOn, hother]
  · simp [hother]
  · simp [hother]
  · simp [hother]

/-- SETREF of a value whose code lies in 0..4095 ends with its one write performed. -/
theorem exec_setref_written {s : State} {imm : Word} (hi : s.initialized = true) (hl : LiveConfigOk s)
    (hlow : 0 ≤ refCode s.cfg imm.toInt) (hhigh : refCode s.cfg imm.toInt ≤ 4095) :
    exec (.setref imm) s =
      .next (performWrite .setref (.chn s.cfg.ch .datHigh) (BitVec.ofInt 16 (refCode s.cfg imm.toInt)) s).advance := by
  rw [exec_setref_in hi (by omega), wr_of_allowed (writeAllowed_datHigh hl _ _), Progress.finish_going]

/-- Settles O30: the one write of the high limit of CH is allowed, and its word holds the code. -/
theorem setrefCompletes : Obligations.SetrefCompletes := by
  intro s imm hi hl hlow hhigh
  refine ⟨_, _, exec_setref_written hi hl hlow hhigh, toNat_ofInt_code hlow hhigh, by simp, fun l hne => ?_,
    by simp [writeEvent, wroteEvent], by simpa using hi, by simp [Completed, InstanceSame], by simp [ReadsSame]⟩
  rw [State.advance_value, performWrite_value_ne .setref (List.mem_singleton.not.mp hne)]

/-- Settles O59: in a run that is going on the live invariants hold, and D00's constants keep the code in range, so SETREF
completes (O30). -/
theorem setrefNeverFaultsInARun : Obligations.SetrefNeverFaultsInARun := by
  intro s imm hinv hrun hi hdefault
  obtain ⟨hk, hoffset, hq, -⟩ := hdefault
  obtain ⟨hlow, hhigh⟩ := refCode_imm_within_range hk hoffset hq imm
  obtain ⟨t, -, hexec, -, -, -, -, -, ⟨hindex, -, hfault, hrefused⟩, -⟩ :=
    setrefCompletes s imm hi (hinv.liveOk hrun.1) (by omega) hhigh
  exact ⟨t, hexec, ⟨hfault.trans hrun.1, hrefused.trans hrun.2⟩, hindex⟩

end Sys2Proof.Machine
end

section
/-!
PROOFS. The enable family (42_enable.md): where the writes of SETEN.ON and SETEN.OFF are allowed, where FC5 stops them, and what
either command leaves in the fields and in the log.
-/

namespace Sys2Proof.Machine

/-! ## What a list of performed writes leaves alone -/

/-- A command that ends with a list of writes performed has completed, and has read nothing back. -/
theorem performAll_completed (op : Op) (ws : List (Loc × Word)) (s : State) :
    Completed s (performAll op ws s).advance ∧ ReadsSame s (performAll op ws s).advance := by
  obtain ⟨hcfg, -, hfault, hrefused, htrace, hindex, hreturned, hdraws⟩ := performAll_frame op ws s
  exact ⟨⟨congrArg (· + 1) hindex, ⟨hcfg, htrace⟩, hfault, hrefused⟩, hreturned, hdraws⟩

theorem fieldsSameBut_performAll (op : Op) (ws : List (Loc × Word)) (s : State) :
    FieldsSameBut s (performAll op ws s) (ws.map Prod.fst) := fun _ hl =>
  performAll_value_ne op (fun _ hw he => hl (List.mem_map.mpr ⟨_, hw, he⟩)) s

/-- A field that holds what it held need not be among the exceptions. -/
theorem FieldsSameBut.restrict {s t : State} {ls ks : List Loc} (h : FieldsSameBut s t ls)
    (hk : ∀ l ∈ ls, l ∈ ks ∨ t.value l = s.value l) : FieldsSameBut s t ks := by
  intro l hl
  by_cases hm : l ∈ ls
  · exact (hk l hm).resolve_left hl
  · exact h l hm

theorem EnableOutcome.restrict {s t : State} {ls ks : List Loc} {a b : Word} {evs : List Event} {m : Option FaultMark}
    (h : EnableOutcome s t ls a b evs m) (hk : ∀ l ∈ ls, l ∈ ks ∨ t.value l = s.value l) :
    EnableOutcome s t ks a b evs m := by
  obtain ⟨hch, hmd, hsame, hlog, hfault⟩ := h
  exact ⟨hch, hmd, hsame.restrict hk, hlog, hfault⟩

/-! ## The output buffers of the other channels (42_enable.md R162) -/

/-- O' of 42_enable.md R162: another channel's output buffer is connected. -/
def OtherConnected (s : State) : Prop :=
  ∃ c : Chan, c.val < s.cfg.nCh ∧ c ≠ s.cfg.ch ∧ s.value (.chn c .outEn) = .known 1#16

/-- Which of the existing channels' output buffers are connected is known. -/
abbrev BuffersKnown (s : State) : Prop := ∀ c : Chan, c.val < s.cfg.nCh → s.Known (.chn c .outEn)

theorem disconnected_of_zero {s : State} {c : Chan} (h : s.value (.chn c .outEn) = .known 0#16) : Disconnected s c := by
  simp [Disconnected, h]

theorem buffersKnown_of_bits {s : State} (h : ∀ c : Chan, c.val < s.cfg.nCh →
    s.value (.chn c .outEn) = .known 0#16 ∨ s.value (.chn c .outEn) = .known 1#16) : BuffersKnown s := by
  intro c hc
  rcases h c hc with h | h <;> simp [State.Known, h]

/-- Without O' every other channel is disconnected. -/
theorem others_disconnected {s : State} (hknown : BuffersKnown s) (h : ¬ OtherConnected s) (c : Chan)
    (hc : c.val < s.cfg.nCh) (hne : c ≠ s.cfg.ch) : Disconnected s c :=
  ⟨hknown c hc, fun hone => h ⟨c, hc, hne, hone⟩⟩

/-! ## SETEN.ON (42_enable.md R160) -/

section Enable

variable {s : State}

/-- With the configuration in order, the live invariants hold whatever the two enable fields that SETEN.ON writes hold. -/
theorem liveConfigOk_of_ready {t : State} (hr : ReadyToEnable s) (hcfg : t.cfg = s.cfg)
    (hsame : FieldsSameBut s t [.chn s.cfg.ch .chEn, .sh .moduleEn]) : LiveConfigOk t := by
  obtain ⟨htiming, hwave⟩ := hr
  refine fun _ => ⟨?_, fun c hc hlive => ?_⟩
  · simpa only [SharedTimingOk, hsame (.sh .tmodTime) (by simp), hsame (.sh .ssTime) (by simp)] using htiming
  · have hen : c = s.cfg.ch ∨ s.value (.chn c .chEn) = .known 1#16 := by
      by_cases hne : c = s.cfg.ch
      · exact .inl hne
      · exact .inr ((hsame _ (by simp [hne])).symm.trans (live_true.mp hlive).2)
    have hwg : ∀ f, t.value (.wg c f) = s.value (.wg c f) := fun f => hsame _ (by simp)
    simpa only [WaveOk, hwg] using hwave c (hcfg ▸ hc) hen

/-- So they hold after a write of either enable field, whatever was written to the two before. -/
theorem liveConfigOk_setEnable (hr : ReadyToEnable s) {t : State} {l : Loc} (x : FieldVal) (hcfg : t.cfg = s.cfg)
    (hsame : FieldsSameBut s t [.chn s.cfg.ch .chEn, .sh .moduleEn]) (hl : l ∈ [.chn s.cfg.ch .chEn, .sh .moduleEn]) :
    LiveConfigOk (t.setValue l x) := by
  refine liveConfigOk_of_ready hr ((State.setValue_cfg t l x).trans hcfg) fun k hk => ?_
  have hne : k ≠ l := fun he => hk (he ▸ hl)
  rw [State.value_setValue_ne t hne, hsame k hk]

/-- The state after E1: the channel enable is set. -/
def afterE1 (s : State) : State := performWrite .setenOn (.chn s.cfg.ch .chEn) 1#16 s

theorem afterE1_value {l : Loc} (h : l ≠ .chn s.cfg.ch .chEn) : (afterE1 s).value l = s.value l :=
  performWrite_value_ne .setenOn h 1#16 s

theorem afterE1_disconnected {c : Chan} : Disconnected (afterE1 s) c ↔ Disconnected s c := by
  rw [Disconnected, afterE1_value (by simp)]

/-- Where E1 changes the channel enable behind the connected output buffer, SETEN.ON stops before it. -/
theorem exec_setenOn_stops_at_e1 (hi : s.initialized = true) (hchange : s.value (.chn s.cfg.ch .chEn) ≠ .known 1#16)
    (hout : s.value (.chn s.cfg.ch .outEn) = .known 1#16) :
    exec .setenOn s = .next
      (s.raise (.outputGlitchHazard (.chn s.cfg.ch .chEn) (s.value (.chn s.cfg.ch .chEn)) 1#16)) := by
  rw [exec_setenOn hi, enableWrites, wrAll_cons, wr_chEn_stop hchange hout, Progress.andThen_stopped,
    Progress.finish_stopped]

section PastE1

variable (hi : s.initialized = true) (hr : ReadyToEnable s)
  (hch : s.value (.chn s.cfg.ch .chEn) = .known 1#16 ∨ Disconnected s s.cfg.ch)
include hi hr hch

/-- E1 is allowed where it changes nothing or the output buffer of CH is disconnected, and then E2 decides. -/
theorem exec_setenOn_e2 : exec .setenOn s = (wr .setenOn (.sh .moduleEn) 1#16 (afterE1 s)).finish := by
  have hallowed : WriteAllowed s (.chn s.cfg.ch .chEn) 1#16 :=
    writeAllowed_chEn hch (liveConfigOk_setEnable hr _ rfl (fun _ _ => rfl) (by simp))
  rw [exec_setenOn hi, enableWrites, wrAll_cons, wr_of_allowed hallowed, Progress.andThen_going, wrAll_single, afterE1]

/-- E2 is allowed where it changes nothing or every output buffer is disconnected. -/
theorem exec_setenOn_completes
    (hmd : s.value (.sh .moduleEn) = .known 1#16 ∨ ∀ c : Chan, c.val < s.cfg.nCh → Disconnected s c) :
    exec .setenOn s = .next (performAll .setenOn (enableWrites s.cfg) s).advance := by
  have hcfg : (afterE1 s).cfg = s.cfg := performWrite_cfg ..
  have hallowed : WriteAllowed (afterE1 s) (.sh .moduleEn) 1#16 := by
    refine writeAllowed_moduleEn ?_ (liveConfigOk_setEnable hr _ hcfg (fun l hl => ?_) (by simp))
    · simpa only [afterE1_disconnected, afterE1_value (l := .sh .moduleEn) (by simp), hcfg] using hmd
    · exact afterE1_value fun he => hl (by simp [he])
  rw [exec_setenOn_e2 hi hr hch, wr_of_allowed hallowed, Progress.finish_going]
  rfl

/-- Where E2 changes the module enable behind a connected output buffer, SETEN.ON stops after E1. -/
theorem exec_setenOn_stops_at_e2 (hchange : s.value (.sh .moduleEn) ≠ .known 1#16) (hknown : BuffersKnown s)
    (hout : ∃ d : Chan, d.val < s.cfg.nCh ∧ s.value (.chn d .outEn) = .known 1#16) :
    exec .setenOn s = .next
      ((afterE1 s).raise (.outputGlitchHazard (.sh .moduleEn) (s.value (.sh .moduleEn)) 1#16)) := by
  have hmd : (afterE1 s).value (.sh .moduleEn) = s.value (.sh .moduleEn) := afterE1_value (by simp)
  have hbuf : ∀ c, (afterE1 s).value (.chn c .outEn) = s.value (.chn c .outEn) := fun c => afterE1_value (by simp)
  have hcfg : (afterE1 s).cfg = s.cfg := performWrite_cfg ..
  have hstop := wr_moduleEn_stop (op := .setenOn) (s := afterE1 s) (v := 1#16) (by rwa [hmd])
    (fun c hc => by rw [State.Known, hbuf]; exact hknown c (hcfg ▸ hc)) (by simpa only [hbuf, hcfg] using hout)
  rw [exec_setenOn_e2 hi hr hch, hstop, hmd, Progress.finish_stopped]

end PastE1

/-- E1 and E2 leave both enables set. -/
theorem performEnable_value (s : State) :
    (performAll .setenOn (enableWrites s.cfg) s).value (.chn s.cfg.ch .chEn) = .known 1#16 ∧
    (performAll .setenOn (enableWrites s.cfg) s).value (.sh .moduleEn) = .known 1#16 := by
  simp [performAll, enableWrites, performWrite_value]

/-- The events of E1 and E2. -/
theorem writeEvents_enable (s : State) : writeEvents .setenOn (enableWrites s.cfg) s =
    [wroteEvent s.log.length .setenOn (.chn s.cfg.ch .chEn) (s.value (.chn s.cfg.ch .chEn)) 1#16,
     wroteEvent (s.log.length + 1) .setenOn (.sh .moduleEn) (s.value (.sh .moduleEn)) 1#16] := by
  simp [writeEvents, enableWrites, writeEvent, wroteEvent, performWrite_value]

end Enable

/-- Settles O34: the two writes are allowed in their turn, and nothing else is written. -/
theorem setenOnCompletes : Obligations.SetenOnCompletes := by
  intro s hi hr hch hmd
  obtain ⟨hcompleted, hreads⟩ := performAll_completed .setenOn (enableWrites s.cfg) s
  obtain ⟨hen, hon⟩ := performEnable_value s
  refine ⟨_, exec_setenOn_completes hi hr hch hmd, by simpa using hen, by simpa using hon, fun l hl => ?_, ?_, ?_,
    hcompleted, hreads⟩
  · rw [State.advance_value]
    exact fieldsSameBut_performAll .setenOn (enableWrites s.cfg) s l hl
  · rw [State.advance_log, performAll_log, writeEvents_enable]
  · simpa [performAll, enableWrites] using hi

/-! ## SETEN.OFF (42_enable.md R161) -/

section Disable

variable {s : State}

/-- Clearing an enable or a pin field keeps the live invariants. -/
theorem liveConfigOk_clear (hl : LiveConfigOk s) {l : Loc} (hclass : fieldClass l = .enable ∨ fieldClass l = .pin) :
    LiveConfigOk (s.setValue l (.known 0#16)) := by
  have hone : ∀ k, (s.setValue l (.known 0#16)).value k = .known 1#16 → s.value k = .known 1#16 := by
    intro k hk
    rw [State.value_setValue] at hk
    split at hk
    · simp at hk
    · exact hk
  refine liveConfigOk_mono (State.setValue_cfg ..) hl (fun hm => moduleOn_true.mpr (hone _ (moduleOn_true.mp hm)))
    (fun f hf => ?_) (fun c f => ?_) (fun c => hone _)
  · refine State.value_setValue_ne s (fun he => ?_) _
    cases f <;> simp [← he, fieldClass] at hclass hf
  · refine State.value_setValue_ne s (fun he => ?_) _
    simp [← he, fieldClass] at hclass

/-- D1 and D2 of 42_enable.md R161. -/
def channelOffWrites (cfg : Config) : List (Loc × Word) := [(.chn cfg.ch .outEn, 0#16), (.chn cfg.ch .chEn, 0#16)]

theorem disableWrites_eq (cfg : Config) : disableWrites cfg = channelOffWrites cfg ++ [(.sh .moduleEn, 0#16)] := rfl

/-- The state after D1 and D2: channel CH is disconnected from the pin and disabled. -/
def afterD2 (s : State) : State := performAll .setenOff (channelOffWrites s.cfg) s

theorem afterD2_value {l : Loc} (hout : l ≠ .chn s.cfg.ch .outEn) (hen : l ≠ .chn s.cfg.ch .chEn) :
    (afterD2 s).value l = s.value l :=
  fieldsSameBut_performAll .setenOff (channelOffWrites s.cfg) s l (by simp [channelOffWrites, hout, hen])

@[simp] theorem afterD2_outEn : (afterD2 s).value (.chn s.cfg.ch .outEn) = .known 0#16 := by
  simp [afterD2, performAll, channelOffWrites, performWrite_value]

@[simp] theorem afterD2_chEn : (afterD2 s).value (.chn s.cfg.ch .chEn) = .known 0#16 := by
  simp [afterD2, performAll, channelOffWrites]

@[simp] theorem afterD2_moduleEn : (afterD2 s).value (.sh .moduleEn) = s.value (.sh .moduleEn) :=
  afterD2_value (by simp) (by simp)

theorem afterD2_otherBuffer {c : Chan} (h : c ≠ s.cfg.ch) : (afterD2 s).value (.chn c .outEn) = s.value (.chn c .outEn) :=
  afterD2_value (by simp [h]) (by simp)

@[simp] theorem afterD2_cfg : (afterD2 s).cfg = s.cfg := (performAll_frame .setenOff (channelOffWrites s.cfg) s).1

/-- D1 and D2 cannot fault: D1 clears a pin field, and after it the output buffer of CH is disconnected. -/
theorem channelOffWrites_allowed (hl : LiveConfigOk s) : AllAllowed .setenOff (channelOffWrites s.cfg) s := by
  have hd1 : LiveConfigOk (s.setValue (.chn s.cfg.ch .outEn) (.known 0#16)) := liveConfigOk_clear hl (.inr rfl)
  exact ⟨writeAllowed_outEn_off hd1,
    writeAllowed_chEn (.inr (disconnected_of_zero (performWrite_value_self ..)))
      (liveConfigOk_clear (liveConfigOk_performWrite.mpr hd1) (.inl rfl)), trivial⟩

section PastD2

variable (hi : s.initialized = true) (hl : LiveConfigOk s)
include hi hl

/-- SETEN.OFF always reaches D3, which decides how it ends. -/
theorem exec_setenOff_d3 : exec .setenOff s = (wr .setenOff (.sh .moduleEn) 0#16 (afterD2 s)).finish := by
  rw [exec_setenOff hi, disableWrites_eq, wrAll_append, wrAll_going.mpr ⟨channelOffWrites_allowed hl, rfl⟩,
    Progress.andThen_going, wrAll_single, afterD2]

/-- D3 is allowed where it changes nothing or every other channel's output buffer is disconnected. -/
theorem exec_setenOff_completes (h : s.value (.sh .moduleEn) = .known 0#16 ∨
    ∀ c : Chan, c.val < s.cfg.nCh → c ≠ s.cfg.ch → Disconnected s c) :
    exec .setenOff s = .next (performAll .setenOff (disableWrites s.cfg) s).advance := by
  have hoff : LiveConfigOk ((afterD2 s).setValue (.sh .moduleEn) (.known 0#16)) := fun hon => by simp [moduleOn] at hon
  have hallowed : WriteAllowed (afterD2 s) (.sh .moduleEn) 0#16 := by
    refine writeAllowed_moduleEn (h.imp afterD2_moduleEn.trans fun hothers c hc => ?_) hoff
    by_cases hne : c = s.cfg.ch
    · subst hne
      exact disconnected_of_zero afterD2_outEn
    · rw [Disconnected, afterD2_otherBuffer hne]
      exact hothers c (afterD2_cfg ▸ hc) hne
  rw [exec_setenOff_d3 hi hl, wr_of_allowed hallowed, Progress.finish_going]
  rfl

/-- Where D3 changes the module enable behind another channel's connected output buffer, SETEN.OFF stops after D2. -/
theorem exec_setenOff_stops_at_d3 (hchange : s.value (.sh .moduleEn) ≠ .known 0#16) (hknown : BuffersKnown s)
    (hother : OtherConnected s) :
    exec .setenOff s = .next
      ((afterD2 s).raise (.outputGlitchHazard (.sh .moduleEn) (s.value (.sh .moduleEn)) 0#16)) := by
  obtain ⟨d, hd, hne, hone⟩ := hother
  have hbufs : BuffersKnown (afterD2 s) := fun c hc =>
    performAll_keeps_known .setenOff (channelOffWrites s.cfg) (hknown c (afterD2_cfg ▸ hc))
  have hstop := wr_moduleEn_stop (op := .setenOff) (v := 0#16) (afterD2_moduleEn ▸ hchange) hbufs
    ⟨d, afterD2_cfg.symm ▸ hd, (afterD2_otherBuffer hne).trans hone⟩
  rw [exec_setenOff_d3 hi hl, hstop, afterD2_moduleEn, Progress.finish_stopped]

end PastD2

/-- D1, D2 and D3 leave the output buffer and both enables cleared. -/
theorem performDisable_value (s : State) :
    (performAll .setenOff (disableWrites s.cfg) s).value (.chn s.cfg.ch .outEn) = .known 0#16 ∧
    (performAll .setenOff (disableWrites s.cfg) s).value (.chn s.cfg.ch .chEn) = .known 0#16 ∧
    (performAll .setenOff (disableWrites s.cfg) s).value (.sh .moduleEn) = .known 0#16 := by
  simp [performAll, disableWrites, performWrite_value]

/-- The events of D1, D2 and D3. -/
theorem writeEvents_disable (s : State) : writeEvents .setenOff (disableWrites s.cfg) s =
    [wroteEvent s.log.length .setenOff (.chn s.cfg.ch .outEn) (s.value (.chn s.cfg.ch .outEn)) 0#16,
     wroteEvent (s.log.length + 1) .setenOff (.chn s.cfg.ch .chEn) (s.value (.chn s.cfg.ch .chEn)) 0#16,
     wroteEvent (s.log.length + 2) .setenOff (.sh .moduleEn) (s.value (.sh .moduleEn)) 0#16] := by
  simp [writeEvents, disableWrites, writeEvent, wroteEvent, performWrite_value]

end Disable

/-- Settles O35: the three writes are allowed in their turn, and nothing else is written. -/
theorem setenOffCompletes : Obligations.SetenOffCompletes := by
  intro s hi hl h
  obtain ⟨hcompleted, hreads⟩ := performAll_completed .setenOff (disableWrites s.cfg) s
  obtain ⟨hout, hen, hmd⟩ := performDisable_value s
  refine ⟨_, exec_setenOff_completes hi hl h, by simpa using hout, by simpa using hen, by simpa using hmd,
    fun l hne => ?_, ?_, ?_, hcompleted, hreads⟩
  · rw [State.advance_value]
    exact fieldsSameBut_performAll .setenOff (disableWrites s.cfg) s l hne
  · rw [State.advance_log, performAll_log, writeEvents_disable]
  · simpa [performAll, disableWrites] using hi

/-! ## SETEN without a fault (42_enable.md R164, R166) -/

section Faultless

variable {s t : State}

/-- A SETEN that records no fault has found the block initialized and performed all its writes. -/
theorem seten_faultless {i : Instr} (hi : i = .setenOn ∨ i = .setenOff) (h : exec i s = .next t) (hf : t.fault = none) :
    t.initialized = true ∧ EndedAfterWrites i s t := by
  have hend : EndedAfterWrites i s t := (exec_ends h).resolve_left fun hfault => hfault.fault hf
  have hne : i ≠ .init := by rcases hi with rfl | rfl <;> simp
  refine ⟨?_, hend⟩
  rw [hend.initialized hne]
  by_contra hn
  rw [exec_notInitialized (eq_false_of_ne_true hn) (.inr hi)] at h
  cases h
  simp at hf

/-- SETEN.ON without a fault leaves both enables 1, every other field as it was, and the live invariants holding. -/
theorem setenOn_faultless (h : exec .setenOn s = .next t) (hf : t.fault = none) :
    t.initialized = true ∧ t.cfg = s.cfg ∧ t.value (.chn s.cfg.ch .chEn) = .known 1#16 ∧
    t.value (.sh .moduleEn) = .known 1#16 ∧ FieldsSameBut s t [.chn s.cfg.ch .chEn, .sh .moduleEn] ∧ LiveConfigOk t := by
  obtain ⟨hi, hend⟩ := seten_faultless (.inl rfl) h hf
  have hvalue : ∀ l, t.value l = (performAll .setenOn (enableWrites s.cfg) s).value l := hend.value
  obtain ⟨-, ⟨-, -, -, hlive⟩, -⟩ := hend.allowed
  obtain ⟨hen, hon⟩ := performEnable_value s
  refine ⟨hi, hend.cfg, (hvalue _).trans hen, (hvalue _).trans hon, fun l hl => ?_, ?_⟩
  · exact (hvalue l).trans (fieldsSameBut_performAll .setenOn (enableWrites s.cfg) s l hl)
  · exact (liveConfigOk_congr (by simp [hend.cfg, performAll, enableWrites]) hvalue).mpr
      (liveConfigOk_performWrite.mpr hlive)

/-- SETEN.OFF without a fault leaves the output buffer and both enables 0. -/
theorem setenOff_faultless (h : exec .setenOff s = .next t) (hf : t.fault = none) :
    t.initialized = true ∧ t.cfg = s.cfg ∧ t.value (.chn s.cfg.ch .outEn) = .known 0#16 ∧
    t.value (.chn s.cfg.ch .chEn) = .known 0#16 ∧ t.value (.sh .moduleEn) = .known 0#16 := by
  obtain ⟨hi, hend⟩ := seten_faultless (.inr rfl) h hf
  have hvalue : ∀ l, t.value l = (performAll .setenOff (disableWrites s.cfg) s).value l := hend.value
  obtain ⟨hout, hen, hmd⟩ := performDisable_value s
  exact ⟨hi, hend.cfg, (hvalue _).trans hout, (hvalue _).trans hen, (hvalue _).trans hmd⟩

/-- With channel CH live and the live invariants holding, the configuration is in order for a SETEN.ON. -/
theorem readyToEnable_of_live (hl : LiveConfigOk s) (hon : live s s.cfg.ch = true) : ReadyToEnable s := by
  obtain ⟨hmd, hch⟩ := live_true.mp hon
  obtain ⟨htiming, hwave⟩ := hl (moduleOn_true.mpr hmd)
  refine ⟨htiming, fun c hc hen => hwave c hc (live_true.mpr ⟨hmd, ?_⟩)⟩
  rcases hen with rfl | hen
  · exact hch
  · exact hen

/-- SETEN.ON from Enabled writes the values already held. -/
theorem setenOn_again (hi : s.initialized = true) (hl : LiveConfigOk s) (hch : s.value (.chn s.cfg.ch .chEn) = .known 1#16)
    (hmd : s.value (.sh .moduleEn) = .known 1#16) :
    ∃ u, exec .setenOn s = .next u ∧ u.fault = s.fault ∧ (∀ l, u.value l = s.value l) ∧
      u.log = s.log ++ [wroteEvent s.log.length .setenOn (.chn s.cfg.ch .chEn) (.known 1#16) 1#16,
        wroteEvent (s.log.length + 1) .setenOn (.sh .moduleEn) (.known 1#16) 1#16] := by
  obtain ⟨u, hexec, huch, humd, hsame, hlog, -, ⟨-, -, hfault, -⟩, -⟩ :=
    setenOnCompletes s hi (readyToEnable_of_live hl (live_true.mpr ⟨hmd, hch⟩)) (.inl hch) (.inl hmd)
  rw [hch, hmd] at hlog
  have hnone : FieldsSameBut s u [] := hsame.restrict (by simp [huch, humd, hch, hmd])
  exact ⟨u, hexec, hfault, fun l => hnone l List.not_mem_nil, hlog⟩

/-- SETEN.OFF from Disabled with the output buffer disconnected writes the values already held. -/
theorem setenOff_again (hi : s.initialized = true) (hout : s.value (.chn s.cfg.ch .outEn) = .known 0#16)
    (hch : s.value (.chn s.cfg.ch .chEn) = .known 0#16) (hmd : s.value (.sh .moduleEn) = .known 0#16) :
    ∃ u, exec .setenOff s = .next u ∧ u.fault = s.fault ∧ (∀ l, u.value l = s.value l) ∧
      u.log = s.log ++ [wroteEvent s.log.length .setenOff (.chn s.cfg.ch .outEn) (.known 0#16) 0#16,
        wroteEvent (s.log.length + 1) .setenOff (.chn s.cfg.ch .chEn) (.known 0#16) 0#16,
        wroteEvent (s.log.length + 2) .setenOff (.sh .moduleEn) (.known 0#16) 0#16] := by
  have hl : LiveConfigOk s := fun hon => by simp [moduleOn, hmd] at hon
  obtain ⟨u, hexec, huout, huch, humd, hsame, hlog, -, ⟨-, -, hfault, -⟩, -⟩ := setenOffCompletes s hi hl (.inl hmd)
  rw [hout, hch, hmd] at hlog
  have hnone : FieldsSameBut s u [] := hsame.restrict (by simp [huout, huch, humd, hout, hch, hmd])
  exact ⟨u, hexec, hfault, fun l => hnone l List.not_mem_nil, hlog⟩

end Faultless

/-- Settles O38: the first call leaves Enabled, or Disabled with the buffer off, where the second writes what is held. -/
theorem enableTwiceIsEnableOnce : Obligations.EnableTwiceIsEnableOnce := by
  refine ⟨fun s t _ h hf => ?_, fun s t _ h hf => ?_⟩
  · obtain ⟨hi, hcfg, hch, hmd, -, hl⟩ := setenOn_faultless h hf
    rw [← hcfg] at hch ⊢
    simpa only [hf] using setenOn_again hi hl hch hmd
  · obtain ⟨hi, hcfg, hout, hch, hmd⟩ := setenOff_faultless h hf
    rw [← hcfg] at hout hch ⊢
    simpa only [hf] using setenOff_again hi hout hch hmd

/-- Settles O39: a channel is live where both enables are 1, and neither command touches another channel's enable. -/
theorem moduleEnableIsShared : Obligations.ModuleEnableIsShared := by
  refine ⟨fun s t _ h hf c => ?_, fun s t _ h hf => ?_⟩
  · obtain ⟨-, -, -, -, hmd⟩ := setenOff_faultless h hf
    simp [live, moduleOn, hmd]
  · obtain ⟨-, -, hch, hmd, hsame, -⟩ := setenOn_faultless h hf
    refine ⟨live_true.mpr ⟨hmd, hch⟩, fun c hen => live_true.mpr ⟨hmd, ?_⟩⟩
    by_cases hc : c = s.cfg.ch
    · exact hc ▸ hch
    · exact (hsame _ (by simp [hc])).trans hen

/-! ## The tables of outcomes (42_enable.md R162, R163) -/

section Outcomes

variable {s : State} {a b o : Word} (hi : s.initialized = true) (hf : s.fault = none)
  (ha : s.value (.chn s.cfg.ch .chEn) = .known a) (hb : s.value (.sh .moduleEn) = .known b)
  (ho : s.value (.chn s.cfg.ch .outEn) = .known o)
include hi hf ha hb ho

/-- Where SETEN.ON ends: Enabled, at E1, or at E2. -/
theorem setenOn_outcomes (hr : ReadyToEnable s) (hknown : BuffersKnown s) (hch : s.cfg.ch.val < s.cfg.nCh) :
    ∃ t, exec .setenOn s = .next t ∧
      ((a = 1#16 ∨ o ≠ 1#16) → (b = 1#16 ∨ (o ≠ 1#16 ∧ ¬ OtherConnected s)) →
        EnableOutcome s t [.chn s.cfg.ch .chEn, .sh .moduleEn] 1#16 1#16
          [wroteEvent s.log.length .setenOn (.chn s.cfg.ch .chEn) (.known a) 1#16,
           wroteEvent (s.log.length + 1) .setenOn (.sh .moduleEn) (.known b) 1#16] none) ∧
      (a ≠ 1#16 → o = 1#16 →
        EnableOutcome s t [] a b [] (some (.outputGlitchHazard (.chn s.cfg.ch .chEn) (.known a) 1#16))) ∧
      ((a = 1#16 ∨ o ≠ 1#16) → b ≠ 1#16 → (o = 1#16 ∨ OtherConnected s) →
        EnableOutcome s t [.chn s.cfg.ch .chEn] 1#16 b
          [wroteEvent s.log.length .setenOn (.chn s.cfg.ch .chEn) (.known a) 1#16]
          (some (.outputGlitchHazard (.sh .moduleEn) (.known b) 1#16))) := by
  obtain ⟨t, ht⟩ := exec_next .setenOn s
  have hdet : ∀ {u}, exec .setenOn s = .next u → t = u := fun hu => Host.Outcome.next.inj (ht.symm.trans hu)
  have hdisc : o ≠ 1#16 → Disconnected s s.cfg.ch := fun h => by simp [Disconnected, ho, h]
  have hmay : (a = 1#16 ∨ o ≠ 1#16) → s.value (.chn s.cfg.ch .chEn) = .known 1#16 ∨ Disconnected s s.cfg.ch :=
    Or.imp (fun h : a = 1#16 => h ▸ ha) hdisc
  refine ⟨t, ht, fun hpass hquiet => ?_, fun hne hone => ?_, fun hpass hne hdriven => ?_⟩
  · have hmd : s.value (.sh .moduleEn) = .known 1#16 ∨ ∀ c : Chan, c.val < s.cfg.nCh → Disconnected s c := by
      refine hquiet.imp (fun h : b = 1#16 => h ▸ hb) fun ⟨hone, hother⟩ c hc => ?_
      by_cases hne : c = s.cfg.ch
      · exact hne ▸ hdisc hone
      · exact others_disconnected hknown hother c hc hne
    obtain ⟨u, hu, huch, humd, hsame, hlog, -, ⟨-, -, hfault, -⟩, -⟩ := setenOnCompletes s hi hr (hmay hpass) hmd
    obtain rfl := hdet hu
    rw [ha, hb] at hlog
    exact ⟨huch, humd, hsame, hlog, hfault.trans hf⟩
  · obtain rfl := hdet (exec_setenOn_stops_at_e1 hi (by simpa [ha] using hne) (hone ▸ ho))
    exact ⟨by simpa using ha, by simpa using hb, fun l _ => State.raise_value .., by simp, by simp [ha]⟩
  · have hbuf : ∃ d : Chan, d.val < s.cfg.nCh ∧ s.value (.chn d .outEn) = .known 1#16 := by
      rcases hdriven with hone | ⟨d, hd, -, hone⟩
      · exact ⟨s.cfg.ch, hch, hone ▸ ho⟩
      · exact ⟨d, hd, hone⟩
    obtain rfl := hdet (exec_setenOn_stops_at_e2 hi hr (hmay hpass) (by simpa [hb] using hne) hknown hbuf)
    refine ⟨by simp [afterE1], ?_, fun l hl => ?_, ?_, by simp [hb]⟩
    · rw [State.raise_value, afterE1_value (by simp), hb]
    · rw [State.raise_value, afterE1_value (by simpa using hl)]
    · simp [afterE1, writeEvent, wroteEvent, ha]

/-- Where SETEN.OFF ends: with all three fields cleared, or at D3; the output buffer is off either way. -/
theorem setenOff_outcomes (hl : LiveConfigOk s) (hknown : BuffersKnown s) :
    ∃ t, exec .setenOff s = .next t ∧ t.value (.chn s.cfg.ch .outEn) = .known 0#16 ∧
      ((b = 0#16 ∨ ¬ OtherConnected s) →
        EnableOutcome s t [.chn s.cfg.ch .outEn, .chn s.cfg.ch .chEn, .sh .moduleEn] 0#16 0#16
          [wroteEvent s.log.length .setenOff (.chn s.cfg.ch .outEn) (.known o) 0#16,
           wroteEvent (s.log.length + 1) .setenOff (.chn s.cfg.ch .chEn) (.known a) 0#16,
           wroteEvent (s.log.length + 2) .setenOff (.sh .moduleEn) (.known b) 0#16] none) ∧
      (b ≠ 0#16 → OtherConnected s →
        EnableOutcome s t [.chn s.cfg.ch .outEn, .chn s.cfg.ch .chEn] 0#16 b
          [wroteEvent s.log.length .setenOff (.chn s.cfg.ch .outEn) (.known o) 0#16,
           wroteEvent (s.log.length + 1) .setenOff (.chn s.cfg.ch .chEn) (.known a) 0#16]
          (some (.outputGlitchHazard (.sh .moduleEn) (.known b) 0#16))) := by
  by_cases hends : b = 0#16 ∨ ¬ OtherConnected s
  · have hmd : s.value (.sh .moduleEn) = .known 0#16 ∨
        ∀ c : Chan, c.val < s.cfg.nCh → c ≠ s.cfg.ch → Disconnected s c :=
      hends.imp (fun h : b = 0#16 => h ▸ hb) (others_disconnected hknown)
    obtain ⟨t, ht, hout, hch, hzero, hsame, hlog, -, ⟨-, -, hfault, -⟩, -⟩ := setenOffCompletes s hi hl hmd
    rw [ho, ha, hb] at hlog
    exact ⟨t, ht, hout, fun _ => ⟨hch, hzero, hsame, hlog, hfault.trans hf⟩,
      fun hne hother => (hends.elim hne fun hn => hn hother).elim⟩
  · obtain ⟨hne, hother⟩ := not_or.mp hends
    refine ⟨_, exec_setenOff_stops_at_d3 hi hl (by simpa [hb] using hne) hknown (not_not.mp hother), by simp,
      fun h => absurd h hends, fun _ _ => ⟨by simp, by simpa using hb, fun l hl => ?_, ?_, by simp [hb]⟩⟩
    · rw [State.raise_value]
      exact fieldsSameBut_performAll .setenOff (channelOffWrites s.cfg) s l hl
    · simp [afterD2, performAll, channelOffWrites, performWrite_value, writeEvent, wroteEvent, ho, ha]

end Outcomes

/-- Settles O36: each row is one of the three ends of SETEN.ON, less the fields that already held what it writes. -/
theorem enableOutcomeTable : Obligations.EnableOutcomeTable := by
  rintro s a b o hi hf ⟨-, -, hch, -⟩ hr ha hb ho hbits
  obtain ⟨t, ht, hdone, hstopE1, hstopE2⟩ := setenOn_outcomes hi hf ha hb ho hr (buffersKnown_of_bits hbits) hch
  refine ⟨t, ht, ?_, ?_, ?_, ?_, ?_, ?_, ?_, ?_⟩
  · rintro rfl rfl rfl hother
    exact hdone (.inr (by decide)) (.inr ⟨by decide, hother⟩)
  · rintro rfl rfl rfl
    exact hstopE1 (by decide) rfl
  · rintro rfl rfl rfl hother
    exact hstopE2 (.inr (by decide)) (by decide) (.inr hother)
  · rintro rfl rfl
    have hend := hdone (.inl rfl) (.inl rfl)
    have ⟨hen, hon, _⟩ := hend
    exact hend.restrict (by simp [hen, hon, ha, hb])
  · rintro rfl rfl rfl hother
    have hend := hdone (.inl rfl) (.inr ⟨by decide, hother⟩)
    have ⟨hen, _⟩ := hend
    exact hend.restrict (by simp [hen, ha])
  · rintro rfl rfl hdriven
    have hend := hstopE2 (.inl rfl) (by decide) hdriven
    have ⟨hen, _⟩ := hend
    exact hend.restrict (by simp [hen, ha])
  · rintro rfl rfl rfl
    have hend := hdone (.inr (by decide)) (.inl rfl)
    have ⟨_, hon, _⟩ := hend
    exact hend.restrict (by simp [hon, hb])
  · rintro rfl rfl rfl
    exact hstopE1 (by decide) rfl

/-- Settles O37: each row is one of the two ends of SETEN.OFF; with the module off D3 changes nothing. -/
theorem disableOutcomeTable : Obligations.DisableOutcomeTable := by
  intro s a b o hi hf _ hl ha hb ho hbits
  obtain ⟨t, ht, hout, hdone, hstop⟩ := setenOff_outcomes hi hf ha hb ho hl (buffersKnown_of_bits hbits)
  refine ⟨t, ht, hout, ?_, ?_, ?_⟩
  · rintro rfl
    have hend := hdone (.inl rfl)
    have ⟨_, hoff, _⟩ := hend
    exact hend.restrict (by simp [hoff, hb])
  · rintro rfl hother
    exact hdone (.inr hother)
  · rintro rfl hother
    exact hstop (by decide) hother

/-! ## SETEN.OFF in a run (42_enable.md R161) -/

theorem known_value {s : State} {l : Loc} (h : s.Known l) : ∃ v, s.value l = .known v := by
  cases hv : s.value l with
  | unknown => exact absurd hv h
  | known v => exact ⟨v, rfl⟩

/-- Settles O60: in a run the enable and pin fields are known and the live invariants hold, so SETEN.OFF ends in one of its two
ways. -/
theorem disableAlwaysDisconnectsThePin : Obligations.DisableAlwaysDisconnectsThePin := by
  intro s hinv hrun hi
  obtain ⟨hmd, hchans⟩ := hinv.known
  obtain ⟨hen, hout⟩ := hchans s.cfg.ch (valid_ch hinv.valid)
  obtain ⟨a, ha⟩ := known_value hen
  obtain ⟨b, hb⟩ := known_value hmd
  obtain ⟨o, ho⟩ := known_value hout
  obtain ⟨t, ht, hcleared, hdone, hstop⟩ :=
    setenOff_outcomes hi hrun.1 ha hb ho (hinv.liveOk hrun.1) (fun c hc => (hchans c hc).2)
  by_cases hends : b = 0#16 ∨ ¬ OtherConnected s
  · obtain ⟨hch, -, -, -, hfault⟩ := hdone hends
    exact ⟨t, ht, hcleared, hch, .inl hfault⟩
  · obtain ⟨hne, hother⟩ := not_or.mp hends
    obtain ⟨hch, -, -, -, hfault⟩ := hstop hne (not_not.mp hother)
    exact ⟨t, ht, hcleared, hch, .inr ⟨not_not.mp hother, hb ▸ hfault⟩⟩

end Sys2Proof.Machine
end

section
/-!
PROOFS. The field-access family (43_field_access.md): FWR of an allowed write, the faults a write can report and the one that
means configuration in use, and the read-backs of FRD.
-/

namespace Sys2Proof.Machine

/-! ## The faults of a write, check by check (20_memory.md R63, R64) -/

section Faults

variable {s : State} {l : Loc} {v : Word} {m : FaultMark}

/-- The search for a connected output buffer can only meet `Unknown`. -/
theorem firstConnected_error {cs : List Chan} (h : firstConnected s cs = .error m) : ∃ k, m = .unknownRead k := by
  induction cs with
  | nil => cases h
  | cons c cs ih =>
    unfold firstConnected at h
    rcases hr : rdIs s (.chn c .outEn) 1#16 with n | b
    · rw [hr] at h
      cases h
      exact ⟨_, (rdIs_error.mp hr).2⟩
    · rw [hr] at h
      cases b
      · exact ih h
      · cases h

/-- Check (b) reports FC5, or FC4 of a buffer it reads. -/
theorem checkEnable_error (h : checkEnable s l v = .error m) :
    (∃ k, m = .unknownRead k) ∨ m = .outputGlitchHazard l (s.value l) v := by
  unfold checkEnable at h
  split at h
  · split at h
    · cases h
    · split at h <;> cases h
      · exact .inl ⟨_, (rdIs_error.mp ‹_›).2⟩
      · exact .inr rfl
  · split at h
    · cases h
    · split at h <;> cases h
      · exact .inl (firstConnected_error ‹_›)
      · exact .inr rfl
  · cases h

/-- Check (c) reports FC6, or FC4 of a buffer it reads. -/
theorem checkPin_error (h : checkPin s l v = .error m) :
    (∃ k, m = .unknownRead k) ∨ ∃ other, m = .pinContention l other := by
  unfold checkPin at h
  split at h
  · split at h
    · split at h <;> cases h
      · exact .inl (firstConnected_error ‹_›)
      · exact .inr ⟨_, rfl⟩
    · cases h
  · cases h

theorem shOk_error (h : shOk s = .error m) : ∃ k, m = .unknownRead k := by
  unfold shOk at h
  split at h
  · cases h
    exact ⟨_, (rd_error.mp ‹_›).2⟩
  · split at h <;> cases h
    exact ⟨_, (rd_error.mp ‹_›).2⟩

theorem andAlso_error {a b : Except FaultMark Bool} (h : andAlso a b = .error m) : a = .error m ∨ b = .error m := by
  unfold andAlso at h
  split at h
  · exact .inl h
  · cases h
  · exact .inr h

/-- A pair of bits read one after the other can only meet `Unknown`. -/
theorem andAlso_rdIs_error {k k' : Loc} {x y : Word} (h : andAlso (rdIs s k x) (rdIs s k' y) = .error m) :
    ∃ k, m = .unknownRead k :=
  (andAlso_error h).elim (fun hr => ⟨_, (rdIs_error.mp hr).2⟩) (fun hr => ⟨_, (rdIs_error.mp hr).2⟩)

theorem wgOk_error {c : Chan} (h : wgOk s c = .error m) : ∃ k, m = .unknownRead k := by
  unfold wgOk at h
  split at h
  · cases h
    exact andAlso_rdIs_error ‹_›
  · cases h
  · split at h <;> cases h
    exact andAlso_rdIs_error ‹_›

theorem checkChannels_error {cs : List Chan} (h : checkChannels s cs = .error m) :
    (∃ k, m = .unknownRead k) ∨ ∃ site, m = .configInvariant site := by
  induction cs with
  | nil => cases h
  | cons c cs ih =>
    unfold checkChannels at h
    split at h
    · split at h
      · cases h
        exact .inl (wgOk_error ‹_›)
      · cases h
        exact .inr ⟨_, rfl⟩
      · exact ih h
    · exact ih h

/-- The live check reports FC8, or FC4 of a field it reads. -/
theorem checkLive_error (h : checkLive s = .error m) :
    (∃ k, m = .unknownRead k) ∨ ∃ site, m = .configInvariant site := by
  unfold checkLive at h
  split at h
  · split at h
    · cases h
      exact .inl (shOk_error ‹_›)
    · cases h
      exact .inr ⟨_, rfl⟩
    · exact checkChannels_error h
  · cases h

/-- The three checks before a write report FC7 only from check (a). -/
theorem checkWrite_liveReconfig {k : Loc} {old : FieldVal} {new : Word}
    (h : checkWrite s l v = .error (.liveReconfig k old new)) : InUse s l := by
  unfold checkWrite at h
  split at h
  · exact (checkReconfig_error ‹_›).2
  · split at h
    · cases h
      rcases checkEnable_error ‹_› with ⟨_, hm⟩ | hm <;> cases hm
    · rcases checkPin_error h with ⟨_, hm⟩ | ⟨_, hm⟩ <;> cases hm

end Faults

/-! ## FWR (43_field_access.md R190, R192) -/

/-- FWR of an allowed write ends with the write performed. -/
theorem exec_fwr_allowed {s : State} {l : Loc} {v : Word} (h : WriteAllowed s l v) :
    exec (.fwr l v) s = .next (performWrite .fwr l v s).advance := by
  rw [exec_fwr, wr_of_allowed h, Progress.finish_going]

/-- Settles O40: the allowed write is performed, and it is one write of one field. -/
theorem fwrCompletes : Obligations.FwrCompletes := by
  intro s l v h
  refine ⟨_, exec_fwr_allowed h, by simp, fun k hk => ?_, by simp [writeEvent, wroteEvent], by simp,
    by simp [Completed, InstanceSame], by simp [ReadsSame]⟩
  rw [State.advance_value, performWrite_value_ne .fwr (List.mem_singleton.not.mp hk)]

/-- From a state with no fault, FWR ends with FC7 exactly where the field is configuration in use: checks (b) and (c) and the
live check have other codes. -/
theorem exec_fwr_liveReconfig_iff {s : State} {l : Loc} {v : Word} (hf : s.fault = none) :
    (∃ t, exec (.fwr l v) s = .next t ∧ t.fault = some (.liveReconfig l (s.value l) v)) ↔ InUse s l := by
  refine ⟨?_, fun huse => ⟨_, configurationInUseIsNotRewritten s l v huse, rfl⟩⟩
  rintro ⟨t, hex, hfault⟩
  rw [exec_fwr] at hex
  rcases hw : wr .fwr l v s with u | u <;> rw [hw] at hex <;> cases hex
  · obtain ⟨-, rfl⟩ := wr_going.mp hw
    simp [hf] at hfault
  · rcases wr_stopped hw with ⟨m, hcheck, rfl⟩ | ⟨m, -, hlive, rfl⟩ <;> cases hfault
    · exact checkWrite_liveReconfig hcheck
    · rcases checkLive_error hlive with ⟨_, hm⟩ | ⟨_, hm⟩ <;> cases hm

/-- With the module on, a field in use is shared configuration, or configuration whose channel is enabled. -/
theorem inUse_of_on {s : State} {l : Loc} (hon : moduleOn s = true) :
    InUse s l ↔ fieldClass l = .sharedConfig ∨
      (fieldClass l = .channelConfig ∧ ∀ c, l.channel? = some c → s.value (.chn c .chEn) = .known 1#16) := by
  cases l with
  | sh f => cases f <;> simp [InUse, fieldClass, hon]
  | chn c f => simp [InUse, Loc.channel?, live, hon]
  | wg c f => simp [InUse, Loc.channel?, live, hon]

/-- Settles O46: FC7 is the fault of a field in use, and the module being on leaves its class and its channel's enable to ask. -/
theorem whatMayBeWrittenWhileOn : Obligations.WhatMayBeWrittenWhileOn := fun _ _ _ hf hon =>
  (exec_fwr_liveReconfig_iff hf).trans (inUse_of_on hon)

/-! ## FRD (43_field_access.md R191) -/

/-- FRD of what can be read completes: the value is logged and returned, and beside that only the read's own draw shows. -/
theorem exec_frd_completes {s u : State} {tgt : ReadTarget} {x : Word} (h : rdTarget s tgt = .ok (x, u)) :
    ∃ t, exec (.frd tgt) s = .next t ∧ (∀ k, t.value k = s.value k) ∧
      t.log = s.log ++ [readBackEvent s.log.length tgt x] ∧ t.returned = s.returned ++ [x] ∧
      t.draws = u.draws ∧ t.initialized = s.initialized ∧ Completed s t := by
  obtain ⟨hcfg, hlog, hreturned, htrace, hinit, hindex, hfault, hrefused⟩ := rdTarget_frame h
  refine ⟨(u.recordRead .frd tgt x).advance, by simp only [exec, execFrd, h, Progress.finish_going], fun k => ?_, ?_, ?_, rfl,
    hinit, congrArg (· + 1) hindex, ⟨hcfg, htrace⟩, hfault, hrefused⟩
  · rw [State.advance_value, State.recordRead_value, rdTarget_value h]
  · rw [State.advance_log, State.recordRead_log, readEvent, hlog]
    rfl
  · rw [State.advance_returned, State.recordRead_returned, hreturned]

theorem rdTarget_field {s : State} {l : Loc} {x : Word} (h : s.value l = .known x) : rdTarget s (.field l) = .ok (x, s) := by
  simp only [rdTarget, rd_ok.mpr h]

/-- Settles O47: the read gives the field's value and leaves the state, its draws included. -/
theorem frdReturnsTheField : Obligations.FrdReturnsTheField := fun _ _ _ h => exec_frd_completes (rdTarget_field h)

/-- A drawn bit, extended to a word, is 0 or 1. -/
theorem zeroExtend_bit_lt_two (b : BitVec 1) : (b.zeroExtend 16).toNat < 2 := by
  rw [BitVec.toNat_setWidth]
  exact (Nat.mod_le _ _).trans_lt b.isLt

/-- Settles O48: the read gives the next draw in every state, and only the draw counter moves. -/
theorem frdDrawsTheComparator : Obligations.FrdDrawsTheComparator := by
  intro s c
  obtain ⟨t, hex, hsame⟩ := exec_frd_completes (s := s) (tgt := .cmpOut c) rfl
  exact ⟨t, _, hex, zeroExtend_bit_lt_two (Config.cmpOutDraw s.draws c), hsame⟩

end Sys2Proof.Machine
end

section
/-!
PROOFS. The analog family (44_analog_behaviour.md): the fields that give the live threshold, and how it follows SETREF.
-/

namespace Sys2Proof.Machine

/-! ## The live threshold (44_analog_behaviour.md R212) -/

/-- The live threshold is the high limit, given exactly for a live channel whose waveform modes are off. -/
theorem liveThreshold_some {s : State} {c : Chan} {v : Word} :
    liveThreshold s c = some v ↔
      live s c = true ∧ waveformOff s c = true ∧ s.value (.chn c .datHigh) = .known v := by
  unfold liveThreshold
  cases live s c
  · simp
  · cases waveformOff s c
    · simp
    · cases s.value (.chn c .datHigh) <;> simp

/-- Whether a channel is live does not rest on a high limit. -/
theorem live_of_sameButDatHigh {s t : State} {c : Chan} (h : FieldsSameBut s t [.chn c .datHigh]) (d : Chan) :
    live t d = live s d := by
  rw [live, live, moduleOn, moduleOn, h _ (by simp), h _ (by simp)]

/-- Whether the waveform modes of a channel are off does not rest on a high limit. -/
theorem waveformOff_of_sameButDatHigh {s t : State} {c : Chan} (h : FieldsSameBut s t [.chn c .datHigh]) (d : Chan) :
    waveformOff t d = waveformOff s d := by
  rw [waveformOff, waveformOff, h _ (by simp), h _ (by simp), h _ (by simp)]

/-- Settles O32: D00's constants keep the code in range, so SETREF writes it to the high limit of CH and to no other field (O30),
and CH stays live with its waveform modes off. -/
theorem thresholdFollowsSetref : Obligations.ThresholdFollowsSetref := by
  intro s imm hi hl hlive hoff hdefault
  obtain ⟨hk, hoffset, hq, -⟩ := hdefault
  obtain ⟨hlow, hhigh⟩ := refCode_imm_within_range hk hoffset hq imm
  obtain ⟨t, code, hexec, hcode, hvalue, hsame, -⟩ := setrefCompletes s imm hi hl (by omega) hhigh
  exact ⟨t, code, hexec, liveThreshold_some.mpr ⟨(live_of_sameButDatHigh hsame _).trans hlive,
    (waveformOff_of_sameButDatHigh hsame _).trans hoff, hvalue⟩, hcode⟩

end Sys2Proof.Machine
end

section
/-!
PROOFS. The reset and hazards family (70_reset_and_hazards.md): one driver of the output pin, the write counts of the commands,
and the invariants of a run at reset.
-/

namespace Sys2Proof.Machine

/-! ## One pin driver (70_reset_and_hazards.md R267) -/

/-- Settles O55: of all that a step does, only a write changes a field, and check (c) lets none connect a second buffer. -/
theorem stepKeepsOnePinDriver : Obligations.StepKeepsOnePinDriver := fun _ _ hs h => step_keeps_onePinDriver h hs

/-! ## The write counts (70_reset_and_hazards.md R274) -/

section Counts

variable {s t : State}

/-- A command that is its writes logs one event for each of them, where it records no fault. -/
theorem wrAll_faultless_log_length {op : Op} {ws : List (Loc × Word)} (h : (wrAll op ws s).finish = .next t)
    (hf : t.fault = none) : t.log.length = s.log.length + ws.length := by
  rcases hw : wrAll op ws s with u | u <;> rw [hw] at h <;> cases h
  · obtain ⟨-, rfl⟩ := wrAll_going.mp hw
    exact performAll_log_length op ws s
  · exact absurd hf (wrAll_stopped hw).1

/-- INIT logs one event for each of its writes, where it records no fault. -/
theorem exec_init_faultless_log_length (h : exec .init s = .next t) (hf : t.fault = none) :
    t.log.length = s.log.length + (initWrites s.cfg).length := by
  rcases exec_init_cases h with ⟨m, rfl⟩ | hstop | rfl
  · cases hf
  · exact absurd hf (wrAll_stopped hstop).1
  · exact performAll_log_length .init (initWrites s.cfg) s

/-- FRD logs one read event, where it records no fault. -/
theorem exec_frd_faultless_log_length {tgt : ReadTarget} (h : exec (.frd tgt) s = .next t) (hf : t.fault = none) :
    t.log.length = s.log.length + 1 := by
  rcases hrd : rdTarget s tgt with m | ⟨x, u⟩
  · simp only [exec, execFrd, hrd, Progress.finish_stopped] at h
    cases h
    cases hf
  · obtain ⟨t', hexec, -, hlog, -⟩ := exec_frd_completes hrd
    cases hexec.symm.trans h
    rw [hlog, List.length_append, List.length_singleton]

/-- SETREF and SETEN record no fault only where INIT has run. -/
theorem initialized_of_faultless {i : Instr} (hgate : (∃ imm, i = .setref imm) ∨ i = .setenOn ∨ i = .setenOff)
    (h : exec i s = .next t) (hf : t.fault = none) : s.initialized = true := by
  by_contra hn
  rw [exec_notInitialized (eq_false_of_ne_true hn) hgate] at h
  cases h
  cases hf

/-- SETREF records no fault only with a code inside 0..4095. -/
theorem code_of_faultless {imm : Word} (h : exec (.setref imm) s = .next t) (hf : t.fault = none) :
    ¬ CodeOutOfRange s.cfg imm := by
  intro hcode
  obtain ⟨m, hm⟩ := exec_setref_codeOut hcode
  cases hm.symm.trans h
  cases hf

end Counts

/-- Settles O52: a command that records no fault has run to its end, with one event for each of its writes and one for a
read-back. -/
theorem writeCountsAreFixed : Obligations.WriteCountsAreFixed := by
  intro i s t horder ⟨_, _, _, _, hstop⟩ _ h hf
  cases i with
  | init => rw [exec_init_faultless_log_length h hf, initWrites_length hstop horder]
  | setref imm =>
    have hi := initialized_of_faultless (.inl ⟨imm, rfl⟩) h hf
    rw [exec_setref_in hi (code_of_faultless h hf), ← wrAll_single] at h
    exact wrAll_faultless_log_length h hf
  | setenOn =>
    rw [exec_setenOn (initialized_of_faultless (.inr (.inl rfl)) h hf)] at h
    exact wrAll_faultless_log_length h hf
  | setenOff =>
    rw [exec_setenOff (initialized_of_faultless (.inr (.inr rfl)) h hf)] at h
    exact wrAll_faultless_log_length h hf
  | fwr l v =>
    rw [exec_fwr, ← wrAll_single] at h
    exact wrAll_faultless_log_length h hf
  | frd tgt => exact exec_frd_faultless_log_length h hf

/-! ## The invariants of a run at reset (70_reset_and_hazards.md R260) -/

/-- Every value known after reset is 0. -/
theorem boot_known_eq_zero {cfg : Config} {tr : List TraceEntry} {l : Loc} {v : Word}
    (h : (State.boot cfg tr).value l = .known v) : v = 0#16 := by
  rw [State.boot_value] at h
  split at h <;> cases h
  rfl

/-- Reset turns nothing on and connects nothing. -/
theorem boot_value_ne_one (cfg : Config) (tr : List TraceEntry) (l : Loc) : (State.boot cfg tr).value l ≠ .known 1#16 :=
  fun h => absurd (boot_known_eq_zero h) (by decide)

theorem boot_known {cfg : Config} {tr : List TraceEntry} {l : Loc}
    (h : l = .sh .moduleEn ∨ (∃ c, l = .chn c .chEn) ∨ (∃ c, l = .chn c .outEn)) : (State.boot cfg tr).Known l := by
  rw [State.Known, State.boot_value, if_pos h]
  exact FieldVal.noConfusion

/-- Nothing is on, no field is written and the log is empty, so every part of the invariant holds of a valid instance. -/
theorem boot_runInvariant {cfg : Config} (hv : cfg.Valid) (tr : List TraceEntry) : RunInvariant (State.boot cfg tr) where
  valid := hv
  fit := fun _ _ h => boot_known_eq_zero h ▸ fits_zero _
  absent := fun _ _ => rfl
  known := ⟨boot_known (.inl rfl), fun c _ => ⟨boot_known (.inr (.inl ⟨c, rfl⟩)), boot_known (.inr (.inr ⟨c, rfl⟩))⟩⟩
  initKnown := fun h => nomatch h
  onePin := fun c _ _ _ h => absurd h (boot_value_ne_one cfg tr (.chn c .outEn))
  liveOk := fun _ hon => absurd (moduleOn_true.mp hon) (boot_value_ne_one cfg tr (.sh .moduleEn))
  logTells := fun _ => rfl
  numbered := rfl
  agents := fun _ h => nomatch h
  returnedTold := rfl
  oneMark := .inl rfl
  indexIn := Nat.zero_le _

/-- The instance that the machine's own reset starts is valid (notes/assumptions/1.md). -/
theorem vectors_valid : Config.vectors.Valid := by decide

/-- Settles O58: the machine's own reset is that of a valid instance with no trace. -/
theorem resetMeetsRunInvariant : Obligations.ResetMeetsRunInvariant :=
  ⟨fun _ tr hv => boot_runInvariant hv tr, boot_runInvariant vectors_valid []⟩

end Sys2Proof.Machine
end

section
/-!
PROOFS. The environment's draws (44_analog_behaviour.md, the opening paragraph): no check, no write and no read of a field reads
the draw counter, so replacing the counter passes through every operation, and through every command but FRD of a comparator
output.
-/

namespace Sys2Proof.Machine

/-- The state with another draw counter (44_analog_behaviour.md R211). -/
def State.withDraws (s : State) (n : Nat) : State := { s with draws := n }

/-- The point a command has reached, with another draw counter. -/
def Progress.withDraws (p : Progress) (n : Nat) : Progress :=
  match p with
  | .going s => .going (s.withDraws n)
  | .stopped s => .stopped (s.withDraws n)

section Draws

variable (s : State) (n : Nat)

/-! ## Reading with another draw counter (20_memory.md R62) -/

@[simp] theorem State.withDraws_cfg : (s.withDraws n).cfg = s.cfg := rfl

@[simp] theorem State.withDraws_initialized : (s.withDraws n).initialized = s.initialized := rfl

@[simp] theorem State.withDraws_value (l : Loc) : (s.withDraws n).value l = s.value l := by cases l <;> rfl

@[simp] theorem rd_withDraws (l : Loc) : rd (s.withDraws n) l = rd s l := by simp only [rd, State.withDraws_value]

@[simp] theorem rdIs_withDraws (l : Loc) (v : Word) : rdIs (s.withDraws n) l v = rdIs s l v := by
  simp only [rdIs, rd_withDraws]

@[simp] theorem moduleOn_withDraws : moduleOn (s.withDraws n) = moduleOn s := by simp only [moduleOn, State.withDraws_value]

@[simp] theorem live_withDraws (c : Chan) : live (s.withDraws n) c = live s c := by
  simp only [live, moduleOn_withDraws, State.withDraws_value]

@[simp] theorem firstConnected_withDraws (cs : List Chan) : firstConnected (s.withDraws n) cs = firstConnected s cs := by
  induction cs with
  | nil => rfl
  | cons c cs ih => simp only [firstConnected, rdIs_withDraws, ih]

/-! ## The checks with another draw counter (20_memory.md R63, R64) -/

@[simp] theorem checkWrite_withDraws (l : Loc) (v : Word) : checkWrite (s.withDraws n) l v = checkWrite s l v := by
  have hreconfig : checkReconfig (s.withDraws n) l v = checkReconfig s l v := by
    simp only [checkReconfig, moduleOn_withDraws, live_withDraws, State.withDraws_value]
  have henable : checkEnable (s.withDraws n) l v = checkEnable s l v := by
    simp only [checkEnable, rdIs_withDraws, firstConnected_withDraws, State.withDraws_value, State.withDraws_cfg]
  have hpin : checkPin (s.withDraws n) l v = checkPin s l v := by
    simp only [checkPin, firstConnected_withDraws, State.withDraws_cfg]
  simp only [checkWrite, hreconfig, henable, hpin]

@[simp] theorem checkChannels_withDraws (cs : List Chan) : checkChannels (s.withDraws n) cs = checkChannels s cs := by
  induction cs with
  | nil => rfl
  | cons c cs ih => simp only [checkChannels, wgOk, rdIs_withDraws, State.withDraws_value, ih]

@[simp] theorem checkLive_withDraws : checkLive (s.withDraws n) = checkLive s := by
  simp only [checkLive, shOk, moduleOn_withDraws, rd_withDraws, checkChannels_withDraws, State.withDraws_cfg]

@[simp] theorem initPrecheck_withDraws : initPrecheck (s.withDraws n) = initPrecheck s := by
  simp only [initPrecheck, rd_withDraws, State.withDraws_initialized]

/-! ## Writing with another draw counter (20_memory.md R63) -/

theorem performWrite_withDraws (op : Op) (l : Loc) (v : Word) :
    performWrite op l v (s.withDraws n) = (performWrite op l v s).withDraws n := by cases l <;> rfl

theorem wr_withDraws (op : Op) (l : Loc) (v : Word) : wr op l v (s.withDraws n) = (wr op l v s).withDraws n := by
  simp only [wr, checkWrite_withDraws, performWrite_withDraws, checkLive_withDraws]
  cases checkWrite s l v with
  | error m => rfl
  | ok u => cases checkLive (performWrite op l v s) <;> rfl

/-- The counter passes through two steps of a command where it passes through the second. -/
theorem andThen_withDraws (p : Progress) {f : State → Progress} (hf : ∀ u, f (u.withDraws n) = (f u).withDraws n) :
    (p.withDraws n).andThen f = (p.andThen f).withDraws n := by
  cases p with
  | going u => exact hf u
  | stopped u => rfl

theorem wrAll_withDraws (op : Op) (ws : List (Loc × Word)) :
    wrAll op ws (s.withDraws n) = (wrAll op ws s).withDraws n := by
  induction ws generalizing s with
  | nil => rfl
  | cons w ws ih =>
    obtain ⟨l, v⟩ := w
    rw [wrAll_cons, wrAll_cons, wr_withDraws, andThen_withDraws n _ ih]

end Draws

/-! ## Commands with another draw counter -/

section Commands

variable {s t : State} {n : Nat}

theorem finish_withDraws {p : Progress} (h : p.finish = .next t) : (p.withDraws n).finish = .next (t.withDraws n) := by
  cases p <;> cases h <;> rfl

/-- The counter passes through a command that asks for INIT first where it passes through the command's body. -/
theorem whenInitialized_finish_withDraws {i : Instr} {body : State → Progress}
    (hbody : body (s.withDraws n) = (body s).withDraws n) (h : (whenInitialized i s body).finish = .next t) :
    (whenInitialized i (s.withDraws n) body).finish = .next (t.withDraws n) := by
  unfold whenInitialized at h ⊢
  rw [State.withDraws_initialized, hbody]
  cases hinit : s.initialized <;> rw [hinit] at h <;> exact finish_withDraws h

theorem exec_init_withDraws (h : exec .init s = .next t) : exec .init (s.withDraws n) = .next (t.withDraws n) := by
  simp only [exec, execInit, initPrecheck_withDraws, State.withDraws_cfg, wrAll_withDraws] at h ⊢
  cases hpre : initPrecheck s <;> rw [hpre] at h
  case error m => exact finish_withDraws h
  case ok u =>
    have hmark := andThen_withDraws n (wrAll .init (initWrites s.cfg) s) (f := fun u => .going u.markInitialized)
      fun _ => rfl
    simp only [hmark]
    exact finish_withDraws h

theorem exec_frd_field_withDraws {l : Loc} (h : exec (.frd (.field l)) s = .next t) :
    exec (.frd (.field l)) (s.withDraws n) = .next (t.withDraws n) := by
  simp only [exec, execFrd, rdTarget, rd_withDraws] at h ⊢
  cases hrd : rd s l <;> rw [hrd] at h <;> exact finish_withDraws h

/-- Replacing the draw counter passes through every command but FRD of a comparator output. -/
theorem exec_withDraws {i : Instr} (hi : ∀ c, i ≠ .frd (.cmpOut c)) (h : exec i s = .next t) :
    exec i (s.withDraws n) = .next (t.withDraws n) := by
  cases i with
  | init => exact exec_init_withDraws h
  | setref imm =>
    refine whenInitialized_finish_withDraws ?_ h
    simp only [State.withDraws_cfg, wr_withDraws]
    split <;> rfl
  | setenOn => exact whenInitialized_finish_withDraws (wrAll_withDraws s n _ _) h
  | setenOff => exact whenInitialized_finish_withDraws (wrAll_withDraws s n _ _) h
  | fwr l v =>
    rw [exec_fwr, wr_withDraws]
    exact finish_withDraws h
  | frd tgt =>
    cases tgt with
    | cmpOut c => exact absurd rfl (hi c)
    | field l => exact exec_frd_field_withDraws h

end Commands

/-- Settles O53: no check, write or read of a field sees the draw counter, so the command ends as it did, but for the counter. -/
theorem drawsAffectOnlyComparatorReads : Obligations.DrawsAffectOnlyComparatorReads :=
  fun _ _ _ _ hi h => exec_withDraws hi h

end Sys2Proof.Machine
end
